-- ==== Sys2Proof/Word.lean ====
section
/-! DEFINITION. The word and byte types (00_scope.md R6, 10_state.md R20, 20_memory.md R60) and the three access widths
of the bus (20_memory.md R61). -/

namespace Sys2Proof

/-- A register, an address or an instruction: 32 bits (R6, R20, R100). -/
abbrev Word := BitVec 32

/-- The unit an address names: 8 bits (R60). -/
abbrev Byte := BitVec 8

/-- The bus offers accesses of 1, 2 and 4 bytes and no other (R61). -/
inductive Width where
  | one
  | two
  | four
  deriving DecidableEq, Repr, Inhabited

/-- How many bytes an access of this width moves (R61). -/
def Width.bytes : Width → Nat
  | .one => 1
  | .two => 2
  | .four => 4

/-- The parameter of a scheduler event: a signed 64-bit integer the scheduler passes through and never inspects
(10_state.md R44, D19), held as its 64 bits. -/
abbrev Param := BitVec 64

end Sys2Proof
end

