-- ==== Sys2Proof/Syntax.lean ====
section
/-! DEFINITION. The 72 admitted instructions (30_encoding.md R105), one constructor per row of spec/opcode_table.json. The
operands stand in the order of the assembler syntax (R113). Must-be-zero fields (R104) are no operands. -/

namespace Sys2Proof

/-- A general-register number (R20, R101). -/
abbrev Reg := Fin 32

/-- A 16-bit immediate, offset or displacement field (R101). -/
abbrev Imm := BitVec 16

/-- An admitted instruction. A shift amount and a coprocessor-0 index are numbers, whose range `Instr.wellFormed` checks. -/
inductive Instr where
  -- 41_alu.md
  | add (rd rs rt : Reg)
  | addu (rd rs rt : Reg)
  | sub (rd rs rt : Reg)
  | subu (rd rs rt : Reg)
  | and (rd rs rt : Reg)
  | or (rd rs rt : Reg)
  | xor (rd rs rt : Reg)
  | nor (rd rs rt : Reg)
  | slt (rd rs rt : Reg)
  | sltu (rd rs rt : Reg)
  | addi (rt rs : Reg) (imm : Imm)
  | addiu (rt rs : Reg) (imm : Imm)
  | slti (rt rs : Reg) (imm : Imm)
  | sltiu (rt rs : Reg) (imm : Imm)
  | andi (rt rs : Reg) (imm : Imm)
  | ori (rt rs : Reg) (imm : Imm)
  | xori (rt rs : Reg) (imm : Imm)
  | lui (rt : Reg) (imm : Imm)
  -- 42_shift.md
  | sll (rd rt : Reg) (shamt : Nat)
  | srl (rd rt : Reg) (shamt : Nat)
  | sra (rd rt : Reg) (shamt : Nat)
  | sllv (rd rt rs : Reg)
  | srlv (rd rt rs : Reg)
  | srav (rd rt rs : Reg)
  -- 43_muldiv.md
  | mult (rs rt : Reg)
  | multu (rs rt : Reg)
  | div (rs rt : Reg)
  | divu (rs rt : Reg)
  | mfhi (rd : Reg)
  | mthi (rs : Reg)
  | mflo (rd : Reg)
  | mtlo (rs : Reg)
  -- 44_branch_jump.md
  | j (index : BitVec 26)
  | jal (index : BitVec 26)
  | jr (rs : Reg)
  | jalr (rd rs : Reg)
  | beq (rs rt : Reg) (off : Imm)
  | bne (rs rt : Reg) (off : Imm)
  | blez (rs : Reg) (off : Imm)
  | bgtz (rs : Reg) (off : Imm)
  | bltz (rs : Reg) (off : Imm)
  | bgez (rs : Reg) (off : Imm)
  | bltzal (rs : Reg) (off : Imm)
  | bgezal (rs : Reg) (off : Imm)
  | beql (rs rt : Reg) (off : Imm)
  | bnel (rs rt : Reg) (off : Imm)
  | blezl (rs : Reg) (off : Imm)
  | bgtzl (rs : Reg) (off : Imm)
  | bltzl (rs : Reg) (off : Imm)
  | bgezl (rs : Reg) (off : Imm)
  | bltzall (rs : Reg) (off : Imm)
  | bgezall (rs : Reg) (off : Imm)
  -- 45_load_store.md
  | lb (rt : Reg) (off : Imm) (rs : Reg)
  | lbu (rt : Reg) (off : Imm) (rs : Reg)
  | lh (rt : Reg) (off : Imm) (rs : Reg)
  | lhu (rt : Reg) (off : Imm) (rs : Reg)
  | lw (rt : Reg) (off : Imm) (rs : Reg)
  | lwl (rt : Reg) (off : Imm) (rs : Reg)
  | lwr (rt : Reg) (off : Imm) (rs : Reg)
  | sb (rt : Reg) (off : Imm) (rs : Reg)
  | sh (rt : Reg) (off : Imm) (rs : Reg)
  | sw (rt : Reg) (off : Imm) (rs : Reg)
  | swl (rt : Reg) (off : Imm) (rs : Reg)
  | swr (rt : Reg) (off : Imm) (rs : Reg)
  | ll (rt : Reg) (off : Imm) (rs : Reg)
  | sc (rt : Reg) (off : Imm) (rs : Reg)
  -- 46_system_cop0.md
  | syscall (code : BitVec 20)
  | brk (code : BitVec 20)
  | sync (stype : BitVec 5)
  | mfc0 (rt : Reg) (index : Nat)
  | mtc0 (rt : Reg) (index : Nat)
  | eret
  deriving DecidableEq, Repr

end Sys2Proof
end

