-- ==== Sys2Proof/WellFormed.lean ====
section
/-! DEFINITION. When a term of `Instr` is an instruction the encoding can hold (30_encoding.md R101: `shamt` and the
coprocessor-0 index are 5-bit fields; every other operand's range is in its type). -/

namespace Sys2Proof

/-- The range checks of R101: a shift amount is 0..31 and a coprocessor-0 index is 0..31. -/
def Instr.wellFormed : Instr → Bool
  | .sll _ _ shamt | .srl _ _ shamt | .sra _ _ shamt => decide (shamt < 32)
  | .mfc0 _ index | .mtc0 _ index => decide (index < 32)
  | .add .. | .addu .. | .sub .. | .subu .. | .and .. | .or .. | .xor .. | .nor .. | .slt .. | .sltu .. => true
  | .addi .. | .addiu .. | .slti .. | .sltiu .. | .andi .. | .ori .. | .xori .. | .lui .. => true
  | .sllv .. | .srlv .. | .srav .. => true
  | .mult .. | .multu .. | .div .. | .divu .. | .mfhi .. | .mthi .. | .mflo .. | .mtlo .. => true
  | .j .. | .jal .. | .jr .. | .jalr .. => true
  | .beq .. | .bne .. | .blez .. | .bgtz .. | .bltz .. | .bgez .. | .bltzal .. | .bgezal .. => true
  | .beql .. | .bnel .. | .blezl .. | .bgtzl .. | .bltzl .. | .bgezl .. | .bltzall .. | .bgezall .. => true
  | .lb .. | .lbu .. | .lh .. | .lhu .. | .lw .. | .lwl .. | .lwr .. => true
  | .sb .. | .sh .. | .sw .. | .swl .. | .swr .. | .ll .. | .sc .. => true
  | .syscall .. | .brk .. | .sync .. | .eret => true

end Sys2Proof
end

