-- ==== Sys2Proof/Decode.lean ====
section
/-! DEFINITION. Decoding and encoding (30_encoding.md): the fields (R101), the procedure and its maps (R104, R107 to R110),
the table of masks (spec/opcode_table.json), and the encoder, written from the same formats (R102). -/

namespace Sys2Proof

/-! ## Fields (R101) -/

def opField (w : Word) : BitVec 6 := w.extractLsb' 26 6
def rsField (w : Word) : Reg := (w.extractLsb' 21 5).toFin
def rtField (w : Word) : Reg := (w.extractLsb' 16 5).toFin
def rdField (w : Word) : Reg := (w.extractLsb' 11 5).toFin
def shamtField (w : Word) : BitVec 5 := w.extractLsb' 6 5
def functField (w : Word) : BitVec 6 := w.extractLsb' 0 6
def immField (w : Word) : Imm := w.extractLsb' 0 16
def indexField (w : Word) : BitVec 26 := w.extractLsb' 0 26
def codeField (w : Word) : BitVec 20 := w.extractLsb' 6 20

/-! ## Decoding -/

/-- Why a word is `Unmodeled` (R104, R106), or why bytes hold no whole word. -/
inductive DecodeError where
  /-- The primary opcode is in no row of R107. -/
  | opcode (op : BitVec 6)
  /-- The function code is in no row of the SPECIAL map R108. -/
  | funct (f : BitVec 6)
  /-- The REGIMM selector is in no row of R109. -/
  | regimm (rt : Reg)
  /-- A coprocessor-0 word other than the three forms of R110. -/
  | cop0
  /-- A must-be-zero field of the selected row is not zero (R104). -/
  | mustBeZero
  /-- Fewer than the four bytes of an instruction (R100). -/
  | truncated
  deriving DecidableEq, Repr

/-- The must-be-zero check of R104: the instruction, if the fields its row wants zero are zero. -/
def ifZero (ok : Bool) (i : Instr) : Except DecodeError Instr :=
  if ok then .ok i else .error .mustBeZero

/-- The SPECIAL map (R108), with its MBZ column. -/
def decodeSpecial (w : Word) : Except DecodeError Instr :=
  let rs := rsField w
  let rt := rtField w
  let rd := rdField w
  let sa := shamtField w
  match functField w with
  | 0 => ifZero (rs == 0) (.sll rd rt sa.toNat)
  | 2 => ifZero (rs == 0) (.srl rd rt sa.toNat)
  | 3 => ifZero (rs == 0) (.sra rd rt sa.toNat)
  | 4 => ifZero (sa == 0) (.sllv rd rt rs)
  | 6 => ifZero (sa == 0) (.srlv rd rt rs)
  | 7 => ifZero (sa == 0) (.srav rd rt rs)
  | 8 => ifZero (rt == 0 && rd == 0 && sa == 0) (.jr rs)
  | 9 => ifZero (rt == 0 && sa == 0) (.jalr rd rs)
  | 12 => .ok (.syscall (codeField w))
  | 13 => .ok (.brk (codeField w))
  | 15 => ifZero (rs == 0 && rt == 0 && rd == 0) (.sync sa)
  | 16 => ifZero (rs == 0 && rt == 0 && sa == 0) (.mfhi rd)
  | 17 => ifZero (rt == 0 && rd == 0 && sa == 0) (.mthi rs)
  | 18 => ifZero (rs == 0 && rt == 0 && sa == 0) (.mflo rd)
  | 19 => ifZero (rt == 0 && rd == 0 && sa == 0) (.mtlo rs)
  | 24 => ifZero (rd == 0 && sa == 0) (.mult rs rt)
  | 25 => ifZero (rd == 0 && sa == 0) (.multu rs rt)
  | 26 => ifZero (rd == 0 && sa == 0) (.div rs rt)
  | 27 => ifZero (rd == 0 && sa == 0) (.divu rs rt)
  | 32 => ifZero (sa == 0) (.add rd rs rt)
  | 33 => ifZero (sa == 0) (.addu rd rs rt)
  | 34 => ifZero (sa == 0) (.sub rd rs rt)
  | 35 => ifZero (sa == 0) (.subu rd rs rt)
  | 36 => ifZero (sa == 0) (.and rd rs rt)
  | 37 => ifZero (sa == 0) (.or rd rs rt)
  | 38 => ifZero (sa == 0) (.xor rd rs rt)
  | 39 => ifZero (sa == 0) (.nor rd rs rt)
  | 42 => ifZero (sa == 0) (.slt rd rs rt)
  | 43 => ifZero (sa == 0) (.sltu rd rs rt)
  | f => .error (.funct f)

/-- The REGIMM map (R109). -/
def decodeRegimm (w : Word) : Except DecodeError Instr :=
  let rs := rsField w
  let imm := immField w
  match rtField w with
  | 0 => .ok (.bltz rs imm)
  | 1 => .ok (.bgez rs imm)
  | 2 => .ok (.bltzl rs imm)
  | 3 => .ok (.bgezl rs imm)
  | 16 => .ok (.bltzal rs imm)
  | 17 => .ok (.bgezal rs imm)
  | 18 => .ok (.bltzall rs imm)
  | 19 => .ok (.bgezall rs imm)
  | rt => .error (.regimm rt)

/-- The COP0 map (R110). -/
def decodeCop0 (w : Word) : Except DecodeError Instr :=
  let low := w.extractLsb' 0 11
  match rsField w with
  | 0 => ifZero (low == 0) (.mfc0 (rtField w) (rdField w).val)
  | 4 => ifZero (low == 0) (.mtc0 (rtField w) (rdField w).val)
  | _ => if w = 0x42000018#32 then .ok .eret else .error .cop0

/-- `decode(w)` (R104), through the primary map (R107). -/
def decode (w : Word) : Except DecodeError Instr :=
  let rs := rsField w
  let rt := rtField w
  let imm := immField w
  match opField w with
  | 0 => decodeSpecial w
  | 1 => decodeRegimm w
  | 2 => .ok (.j (indexField w))
  | 3 => .ok (.jal (indexField w))
  | 4 => .ok (.beq rs rt imm)
  | 5 => .ok (.bne rs rt imm)
  | 6 => ifZero (rt == 0) (.blez rs imm)
  | 7 => ifZero (rt == 0) (.bgtz rs imm)
  | 8 => .ok (.addi rt rs imm)
  | 9 => .ok (.addiu rt rs imm)
  | 10 => .ok (.slti rt rs imm)
  | 11 => .ok (.sltiu rt rs imm)
  | 12 => .ok (.andi rt rs imm)
  | 13 => .ok (.ori rt rs imm)
  | 14 => .ok (.xori rt rs imm)
  | 15 => ifZero (rs == 0) (.lui rt imm)
  | 16 => decodeCop0 w
  | 20 => .ok (.beql rs rt imm)
  | 21 => .ok (.bnel rs rt imm)
  | 22 => ifZero (rt == 0) (.blezl rs imm)
  | 23 => ifZero (rt == 0) (.bgtzl rs imm)
  | 32 => .ok (.lb rt imm rs)
  | 33 => .ok (.lh rt imm rs)
  | 34 => .ok (.lwl rt imm rs)
  | 35 => .ok (.lw rt imm rs)
  | 36 => .ok (.lbu rt imm rs)
  | 37 => .ok (.lhu rt imm rs)
  | 38 => .ok (.lwr rt imm rs)
  | 40 => .ok (.sb rt imm rs)
  | 41 => .ok (.sh rt imm rs)
  | 42 => .ok (.swl rt imm rs)
  | 43 => .ok (.sw rt imm rs)
  | 46 => .ok (.swr rt imm rs)
  | 48 => .ok (.ll rt imm rs)
  | 56 => .ok (.sc rt imm rs)
  | op => .error (.opcode op)

/-- Four bytes, the one at the lowest address first, as a word: little-endian (R71, R100). -/
def wordOfBytes (b0 b1 b2 b3 : Byte) : Word := b3 ++ b2 ++ b1 ++ b0

/-- Decoding from the front of a list of bytes; the rest of the list comes back. Total: fewer than four bytes are refused by
name. -/
def decodeBytes : List Byte → Except DecodeError (Instr × List Byte)
  | b0 :: b1 :: b2 :: b3 :: rest =>
    match decode (wordOfBytes b0 b1 b2 b3) with
    | .ok i => .ok (i, rest)
    | .error e => .error e
  | _ => .error .truncated

/-- The four bytes of a word in the order the hardware stores them (R71). -/
def bytesOfWord (w : Word) : List Byte :=
  [w.extractLsb' 0 8, w.extractLsb' 8 8, w.extractLsb' 16 8, w.extractLsb' 24 8]

/-- The instruction the decoder reads from the word whose bits are `w`, numbered as the opcode table numbers them; bits
above `nbits` are 0. -/
def decodeTableWord (nbits w : Nat) : Option Instr :=
  match decodeBytes (bytesOfWord (BitVec.ofNat 32 (w % 2 ^ nbits))) with
  | .ok (i, _) => some i
  | .error _ => none

/-! ## Encoding (R102) -/

/-- A register number as its 5-bit field. -/
def regBits (r : Reg) : BitVec 5 := BitVec.ofFin r

/-- R-type: `op | rs | rt | rd | shamt | funct`. -/
def rType (op : BitVec 6) (rs rt rd : Reg) (shamt : BitVec 5) (funct : BitVec 6) : Word :=
  op ++ regBits rs ++ regBits rt ++ regBits rd ++ shamt ++ funct

/-- I-type: `op | rs | rt | imm`. -/
def iType (op : BitVec 6) (rs rt : Reg) (imm : Imm) : Word :=
  op ++ regBits rs ++ regBits rt ++ imm

/-- J-type: `op | index`. -/
def jType (op : BitVec 6) (index : BitVec 26) : Word :=
  op ++ index

/-- SYSCALL and BREAK: `op | code | funct`, with `op` 0 (R101, R108). -/
def codeType (code : BitVec 20) (funct : BitVec 6) : Word :=
  0#6 ++ code ++ funct

/-- The moves of coprocessor 0: `op | rs | rt | index | 0`, with `op` 16 (R110). -/
def cop0Type (rs : BitVec 5) (rt : Reg) (index : Nat) : Word :=
  16#6 ++ rs ++ regBits rt ++ BitVec.ofNat 5 index ++ 0#11

/-- The word of an instruction: the row of R107 to R110 with its operands in their fields and its must-be-zero fields zero. -/
def encode : Instr → Word
  | .add rd rs rt => rType 0 rs rt rd 0 32
  | .addu rd rs rt => rType 0 rs rt rd 0 33
  | .sub rd rs rt => rType 0 rs rt rd 0 34
  | .subu rd rs rt => rType 0 rs rt rd 0 35
  | .and rd rs rt => rType 0 rs rt rd 0 36
  | .or rd rs rt => rType 0 rs rt rd 0 37
  | .xor rd rs rt => rType 0 rs rt rd 0 38
  | .nor rd rs rt => rType 0 rs rt rd 0 39
  | .slt rd rs rt => rType 0 rs rt rd 0 42
  | .sltu rd rs rt => rType 0 rs rt rd 0 43
  | .addi rt rs imm => iType 8 rs rt imm
  | .addiu rt rs imm => iType 9 rs rt imm
  | .slti rt rs imm => iType 10 rs rt imm
  | .sltiu rt rs imm => iType 11 rs rt imm
  | .andi rt rs imm => iType 12 rs rt imm
  | .ori rt rs imm => iType 13 rs rt imm
  | .xori rt rs imm => iType 14 rs rt imm
  | .lui rt imm => iType 15 0 rt imm
  | .sll rd rt shamt => rType 0 0 rt rd (BitVec.ofNat 5 shamt) 0
  | .srl rd rt shamt => rType 0 0 rt rd (BitVec.ofNat 5 shamt) 2
  | .sra rd rt shamt => rType 0 0 rt rd (BitVec.ofNat 5 shamt) 3
  | .sllv rd rt rs => rType 0 rs rt rd 0 4
  | .srlv rd rt rs => rType 0 rs rt rd 0 6
  | .srav rd rt rs => rType 0 rs rt rd 0 7
  | .mult rs rt => rType 0 rs rt 0 0 24
  | .multu rs rt => rType 0 rs rt 0 0 25
  | .div rs rt => rType 0 rs rt 0 0 26
  | .divu rs rt => rType 0 rs rt 0 0 27
  | .mfhi rd => rType 0 0 0 rd 0 16
  | .mthi rs => rType 0 rs 0 0 0 17
  | .mflo rd => rType 0 0 0 rd 0 18
  | .mtlo rs => rType 0 rs 0 0 0 19
  | .j index => jType 2 index
  | .jal index => jType 3 index
  | .jr rs => rType 0 rs 0 0 0 8
  | .jalr rd rs => rType 0 rs 0 rd 0 9
  | .beq rs rt off => iType 4 rs rt off
  | .bne rs rt off => iType 5 rs rt off
  | .blez rs off => iType 6 rs 0 off
  | .bgtz rs off => iType 7 rs 0 off
  | .bltz rs off => iType 1 rs 0 off
  | .bgez rs off => iType 1 rs 1 off
  | .bltzal rs off => iType 1 rs 16 off
  | .bgezal rs off => iType 1 rs 17 off
  | .beql rs rt off => iType 20 rs rt off
  | .bnel rs rt off => iType 21 rs rt off
  | .blezl rs off => iType 22 rs 0 off
  | .bgtzl rs off => iType 23 rs 0 off
  | .bltzl rs off => iType 1 rs 2 off
  | .bgezl rs off => iType 1 rs 3 off
  | .bltzall rs off => iType 1 rs 18 off
  | .bgezall rs off => iType 1 rs 19 off
  | .lb rt off rs => iType 32 rs rt off
  | .lbu rt off rs => iType 36 rs rt off
  | .lh rt off rs => iType 33 rs rt off
  | .lhu rt off rs => iType 37 rs rt off
  | .lw rt off rs => iType 35 rs rt off
  | .lwl rt off rs => iType 34 rs rt off
  | .lwr rt off rs => iType 38 rs rt off
  | .sb rt off rs => iType 40 rs rt off
  | .sh rt off rs => iType 41 rs rt off
  | .sw rt off rs => iType 43 rs rt off
  | .swl rt off rs => iType 42 rs rt off
  | .swr rt off rs => iType 46 rs rt off
  | .ll rt off rs => iType 48 rs rt off
  | .sc rt off rs => iType 56 rs rt off
  | .syscall code => codeType code 12
  | .brk code => codeType code 13
  | .sync stype => rType 0 0 0 0 stype 15
  | .mfc0 rt index => cop0Type 0 rt index
  | .mtc0 rt index => cop0Type 4 rt index
  | .eret => 0x42000018#32

/-! ## The opcode table (R104: `w & mask == match`) -/

/-- One row of spec/opcode_table.json. -/
structure TableRow where
  mnemonic : String
  mask     : Word
  value    : Word
  deriving DecidableEq, Repr

/-- The word is one of this row's (R104). -/
abbrev TableRow.covers (r : TableRow) (w : Word) : Prop := w &&& r.mask = r.value

/-- The rows of 41_alu.md. -/
def aluRows : List TableRow :=
  [⟨"ADD", 0xFC0007FF#32, 0x00000020#32⟩,
   ⟨"ADDU", 0xFC0007FF#32, 0x00000021#32⟩,
   ⟨"SUB", 0xFC0007FF#32, 0x00000022#32⟩,
   ⟨"SUBU", 0xFC0007FF#32, 0x00000023#32⟩,
   ⟨"AND", 0xFC0007FF#32, 0x00000024#32⟩,
   ⟨"OR", 0xFC0007FF#32, 0x00000025#32⟩,
   ⟨"XOR", 0xFC0007FF#32, 0x00000026#32⟩] ++
  [⟨"NOR", 0xFC0007FF#32, 0x00000027#32⟩,
   ⟨"SLT", 0xFC0007FF#32, 0x0000002A#32⟩,
   ⟨"SLTU", 0xFC0007FF#32, 0x0000002B#32⟩,
   ⟨"ADDI", 0xFC000000#32, 0x20000000#32⟩,
   ⟨"ADDIU", 0xFC000000#32, 0x24000000#32⟩,
   ⟨"SLTI", 0xFC000000#32, 0x28000000#32⟩,
   ⟨"SLTIU", 0xFC000000#32, 0x2C000000#32⟩] ++
  [⟨"ANDI", 0xFC000000#32, 0x30000000#32⟩,
   ⟨"ORI", 0xFC000000#32, 0x34000000#32⟩,
   ⟨"XORI", 0xFC000000#32, 0x38000000#32⟩,
   ⟨"LUI", 0xFFE00000#32, 0x3C000000#32⟩]

/-- The rows of 42_shift.md. -/
def shiftRows : List TableRow :=
  [⟨"SLL", 0xFFE0003F#32, 0x00000000#32⟩,
   ⟨"SRL", 0xFFE0003F#32, 0x00000002#32⟩,
   ⟨"SRA", 0xFFE0003F#32, 0x00000003#32⟩,
   ⟨"SLLV", 0xFC0007FF#32, 0x00000004#32⟩,
   ⟨"SRLV", 0xFC0007FF#32, 0x00000006#32⟩,
   ⟨"SRAV", 0xFC0007FF#32, 0x00000007#32⟩]

/-- The rows of 43_muldiv.md. -/
def mulDivRows : List TableRow :=
  [⟨"MULT", 0xFC00FFFF#32, 0x00000018#32⟩,
   ⟨"MULTU", 0xFC00FFFF#32, 0x00000019#32⟩,
   ⟨"DIV", 0xFC00FFFF#32, 0x0000001A#32⟩,
   ⟨"DIVU", 0xFC00FFFF#32, 0x0000001B#32⟩,
   ⟨"MFHI", 0xFFFF07FF#32, 0x00000010#32⟩,
   ⟨"MTHI", 0xFC1FFFFF#32, 0x00000011#32⟩,
   ⟨"MFLO", 0xFFFF07FF#32, 0x00000012#32⟩] ++
  [⟨"MTLO", 0xFC1FFFFF#32, 0x00000013#32⟩]

/-- The rows of 44_branch_jump.md. -/
def branchRows : List TableRow :=
  [⟨"J", 0xFC000000#32, 0x08000000#32⟩,
   ⟨"JAL", 0xFC000000#32, 0x0C000000#32⟩,
   ⟨"JR", 0xFC1FFFFF#32, 0x00000008#32⟩,
   ⟨"JALR", 0xFC1F07FF#32, 0x00000009#32⟩,
   ⟨"BEQ", 0xFC000000#32, 0x10000000#32⟩,
   ⟨"BNE", 0xFC000000#32, 0x14000000#32⟩,
   ⟨"BLEZ", 0xFC1F0000#32, 0x18000000#32⟩] ++
  [⟨"BGTZ", 0xFC1F0000#32, 0x1C000000#32⟩,
   ⟨"BLTZ", 0xFC1F0000#32, 0x04000000#32⟩,
   ⟨"BGEZ", 0xFC1F0000#32, 0x04010000#32⟩,
   ⟨"BLTZAL", 0xFC1F0000#32, 0x04100000#32⟩,
   ⟨"BGEZAL", 0xFC1F0000#32, 0x04110000#32⟩,
   ⟨"BEQL", 0xFC000000#32, 0x50000000#32⟩,
   ⟨"BNEL", 0xFC000000#32, 0x54000000#32⟩] ++
  [⟨"BLEZL", 0xFC1F0000#32, 0x58000000#32⟩,
   ⟨"BGTZL", 0xFC1F0000#32, 0x5C000000#32⟩,
   ⟨"BLTZL", 0xFC1F0000#32, 0x04020000#32⟩,
   ⟨"BGEZL", 0xFC1F0000#32, 0x04030000#32⟩,
   ⟨"BLTZALL", 0xFC1F0000#32, 0x04120000#32⟩,
   ⟨"BGEZALL", 0xFC1F0000#32, 0x04130000#32⟩]

/-- The rows of 45_load_store.md. -/
def loadStoreRows : List TableRow :=
  [⟨"LB", 0xFC000000#32, 0x80000000#32⟩,
   ⟨"LBU", 0xFC000000#32, 0x90000000#32⟩,
   ⟨"LH", 0xFC000000#32, 0x84000000#32⟩,
   ⟨"LHU", 0xFC000000#32, 0x94000000#32⟩,
   ⟨"LW", 0xFC000000#32, 0x8C000000#32⟩,
   ⟨"LWL", 0xFC000000#32, 0x88000000#32⟩,
   ⟨"LWR", 0xFC000000#32, 0x98000000#32⟩] ++
  [⟨"SB", 0xFC000000#32, 0xA0000000#32⟩,
   ⟨"SH", 0xFC000000#32, 0xA4000000#32⟩,
   ⟨"SW", 0xFC000000#32, 0xAC000000#32⟩,
   ⟨"SWL", 0xFC000000#32, 0xA8000000#32⟩,
   ⟨"SWR", 0xFC000000#32, 0xB8000000#32⟩,
   ⟨"LL", 0xFC000000#32, 0xC0000000#32⟩,
   ⟨"SC", 0xFC000000#32, 0xE0000000#32⟩]

/-- The rows of 46_system_cop0.md. -/
def systemRows : List TableRow :=
  [⟨"SYSCALL", 0xFC00003F#32, 0x0000000C#32⟩,
   ⟨"BREAK", 0xFC00003F#32, 0x0000000D#32⟩,
   ⟨"SYNC", 0xFFFFF83F#32, 0x0000000F#32⟩,
   ⟨"MFC0", 0xFFE007FF#32, 0x40000000#32⟩,
   ⟨"MTC0", 0xFFE007FF#32, 0x40800000#32⟩,
   ⟨"ERET", 0xFFFFFFFF#32, 0x42000018#32⟩]

/-- All 72 rows, as spec/opcode_table.json lists them. -/
def opcodeTable : List TableRow :=
  aluRows ++ shiftRows ++ mulDivRows ++ branchRows ++ loadStoreRows ++ systemRows

/-- The mnemonic of an instruction's row. -/
def Instr.mnemonic : Instr → String
  | .add .. => "ADD"
  | .addu .. => "ADDU"
  | .sub .. => "SUB"
  | .subu .. => "SUBU"
  | .and .. => "AND"
  | .or .. => "OR"
  | .xor .. => "XOR"
  | .nor .. => "NOR"
  | .slt .. => "SLT"
  | .sltu .. => "SLTU"
  | .addi .. => "ADDI"
  | .addiu .. => "ADDIU"
  | .slti .. => "SLTI"
  | .sltiu .. => "SLTIU"
  | .andi .. => "ANDI"
  | .ori .. => "ORI"
  | .xori .. => "XORI"
  | .lui .. => "LUI"
  | .sll .. => "SLL"
  | .srl .. => "SRL"
  | .sra .. => "SRA"
  | .sllv .. => "SLLV"
  | .srlv .. => "SRLV"
  | .srav .. => "SRAV"
  | .mult .. => "MULT"
  | .multu .. => "MULTU"
  | .div .. => "DIV"
  | .divu .. => "DIVU"
  | .mfhi .. => "MFHI"
  | .mthi .. => "MTHI"
  | .mflo .. => "MFLO"
  | .mtlo .. => "MTLO"
  | .j .. => "J"
  | .jal .. => "JAL"
  | .jr .. => "JR"
  | .jalr .. => "JALR"
  | .beq .. => "BEQ"
  | .bne .. => "BNE"
  | .blez .. => "BLEZ"
  | .bgtz .. => "BGTZ"
  | .bltz .. => "BLTZ"
  | .bgez .. => "BGEZ"
  | .bltzal .. => "BLTZAL"
  | .bgezal .. => "BGEZAL"
  | .beql .. => "BEQL"
  | .bnel .. => "BNEL"
  | .blezl .. => "BLEZL"
  | .bgtzl .. => "BGTZL"
  | .bltzl .. => "BLTZL"
  | .bgezl .. => "BGEZL"
  | .bltzall .. => "BLTZALL"
  | .bgezall .. => "BGEZALL"
  | .lb .. => "LB"
  | .lbu .. => "LBU"
  | .lh .. => "LH"
  | .lhu .. => "LHU"
  | .lw .. => "LW"
  | .lwl .. => "LWL"
  | .lwr .. => "LWR"
  | .sb .. => "SB"
  | .sh .. => "SH"
  | .sw .. => "SW"
  | .swl .. => "SWL"
  | .swr .. => "SWR"
  | .ll .. => "LL"
  | .sc .. => "SC"
  | .syscall .. => "SYSCALL"
  | .brk .. => "BREAK"
  | .sync .. => "SYNC"
  | .mfc0 .. => "MFC0"
  | .mtc0 .. => "MTC0"
  | .eret => "ERET"

end Sys2Proof
end

