-- ==== Sys2Proof/Config.lean ====
section
/-! DEFINITION. What is fixed for one machine (00_scope.md R5: every OPEN parameter), the boundary contract's vocabulary
(60_exceptions.md R350 to R356), and the free values: the opaque constants that stand for what the spec leaves as a draw
(93_implementation_defined.md, "Values the spec leaves as draws"). -/

namespace Sys2Proof

/-- Who answers in a device window (R63, R69): the interrupt controller's own register window (R333, R362), or one of the
out-of-scope peripherals, numbered. -/
inductive DeviceHandle where
  | intc
  | peripheral (n : Nat)
  deriving DecidableEq, Repr

/-- The owner of a region (R5 REGIONS, R63). -/
inductive Owner where
  | ram
  | rom
  | device (h : DeviceHandle)
  deriving DecidableEq, Repr

/-- One entry of the region table: `{ baseAddress, size, ownerHandle }` (R47, R63). -/
structure Region where
  base  : Nat
  size  : Nat
  owner : Owner
  deriving DecidableEq, Repr

/-- MISALIGNED_POLICY (R5, R70, D4). -/
inductive MisalignedPolicy where
  | byteAssemble
  | fatal
  deriving DecidableEq, Repr

/-- Which of a bank's two words a port of the controller's window reaches (R332, R333). -/
inductive IntcReg where
  | pending
  | mask
  deriving DecidableEq, Repr

/-- One port of the interrupt controller's register window: the physical address and width that reach one raw word.
The spec gives the four raw operations (R332, R333) and makes the addresses part of REGIONS (R333, N9). The form of the table is a
DESIGN CHOICE, unsafe for narrow ports: assumption log 9. -/
structure IntcPort where
  addr  : Nat
  width : Width
  reg   : IntcReg
  bank  : Nat
  deriving DecidableEq, Repr

/-- The interrupt lines R42 names as examples, and any other line of the platform. -/
inductive SourceName where
  | timer
  | storageController
  | cryptoEngine
  | serialBus
  | verticalSync
  | removableMedia
  | audioWiredRemote
  | gpioAggregated
  | other (n : Nat)
  deriving DecidableEq, Repr

/-- One row of CYCLES (R125): words with `w &&& mask = value` consume `cost` virtual cycles. -/
structure CycleRule where
  mask  : Word
  value : Word
  cost  : Nat
  deriving DecidableEq, Repr

/-- The parameters of 00_scope.md R5 that the spec marks OPEN, as plain data (DESIGN CHOICE, safe: assumption log 1). DIV_CORNER is
`Config.divCorner` below. -/
structure Config where
  /-- PHYS_MASK (R62). -/
  physMask    : Word
  /-- REGIONS (R63). -/
  regions     : List Region
  /-- ROM_IMAGE (R47, R68): the bytes of the boot ROM backing array from its first byte on. Where the list gives no byte the
  parameter is left open (`Config.openRom`). -/
  romImage    : List Byte
  /-- MISALIGNED_POLICY (R70). -/
  misaligned  : MisalignedPolicy
  /-- RESET_PC (R400). -/
  resetPc     : Word
  /-- RESET_STATUS (R400). -/
  resetStatus : Word
  /-- RESET_EBASE (R400). -/
  resetEbase  : Word
  /-- VEC_BOOT_BASE (R320). -/
  vecBootBase : Word
  /-- VEC_OFF_INT (R320). -/
  vecOffInt   : Word
  /-- VEC_OFF_OTHER (R320). -/
  vecOffOther : Word
  /-- INTC_IP_LINE (R37). -/
  ipLine      : Nat
  /-- N_BANKS (R41). -/
  nBanks      : Nat
  /-- SOURCE_MAP (R42). -/
  sourceMap   : List (SourceName × Nat)
  /-- The ports of the interrupt controller's window (part of REGIONS, R333). -/
  intcPorts   : List IntcPort
  /-- RUN_QUANTUM (R343). -/
  runQuantum  : Nat
  /-- CYCLES (R125): the first row that matches the word gives its cost, a word no row matches costs 1 (the default). Every
  function from instruction words to costs is such a table, since there are finitely many words. -/
  cycleRules  : List CycleRule
  deriving DecidableEq, Repr

/-- What a device may do in one of its transitions, besides changing its own private state (R351 to R354). -/
inductive Effect where
  /-- `raise(source)` (R330, R352). -/
  | raise (source : Nat)
  /-- `clear(source)` (R331, R352). -/
  | clear (source : Nat)
  /-- `addEvent(handlerId, parameter, delayCycles)` (R342, R354). -/
  | addEvent (handler : Nat) (param : Param) (delay : Int)
  /-- A byte of the RAM backing array written directly (R79, R353). -/
  | writeRam (offset : Nat) (value : Byte)
  deriving DecidableEq, Repr

/-- The three entry points of a device (R351, R354, D32). -/
inductive DeviceCall where
  | read (pa : Nat) (width : Width)
  | write (pa : Nat) (width : Width) (value : Word)
  | callback (handler : Nat) (param : Param)
  deriving DecidableEq, Repr

/-- What a device's transition answers (R351): its own fatal 'unhandled register', or a value (used by a read only) and a
finite list of effects, performed in order. -/
inductive DeviceReply where
  | unhandled
  | done (value : Word) (effects : List Effect)
  deriving DecidableEq, Repr, Inhabited

/-- Which division asks for a corner result (R192, R193). -/
inductive DivOp where
  | signed
  | unsigned
  deriving DecidableEq, Repr

namespace Config

/-- DIV_CORNER (R192, R193, D24, U2): `(lo, hi)` of a division the spec leaves open. A FREE VALUE: no body, so nothing can
be proved of which value it is. The first argument is the model's draw counter (a fresh draw per execution, U2). Safe: assumption log 5. -/
opaque divCorner : Nat → DivOp → Word → Word → Word × Word

/-- What a peripheral answers when the state's script of replies is empty (R355, U10: "takes each output as any value within
the contract"). A FREE VALUE, applied to the draw counter, the peripheral's number and the call. Safe: assumption log 6. -/
opaque deviceReply : Nat → Nat → DeviceCall → DeviceReply

/-- What a byte of RAM holds that neither the host loaded nor the machine wrote (R50, R68, D36, U3: any value, fixed
for the run, never assumed zero). A FREE VALUE, applied to the physical address. Safe: assumption log 4. -/
opaque initByte : Nat → Byte

/-- A byte of ROM_IMAGE that the configuration leaves open, R5 giving that parameter no default. A FREE VALUE, applied to the offset
in the ROM array: an image that nothing is known of. Safe: assumption log 4. -/
opaque openRom : Nat → Byte

/-- The configuration of `State.reset`: the defaults of 00_scope.md R5. R5 gives ROM_IMAGE no default, and none is chosen: the
image is wholly open. R5 gives REGIONS no default; the table here is the
standard test platform's of 95_test_vectors.md (DESIGN CHOICE, unsafe: assumption log 2). -/
def standard : Config where
  physMask    := 0x1FFFFFFF#32
  regions     := [⟨0, 0x10000, .ram⟩, ⟨0x1FC00000, 0x1000, .rom⟩]
  romImage    := []
  misaligned  := .byteAssemble
  resetPc     := 0xBFC00000#32
  resetStatus := 0x00400000#32
  resetEbase  := 0#32
  vecBootBase := 0xBFC00000#32
  vecOffInt   := 0x200#32
  vecOffOther := 0x180#32
  ipLine      := 2
  nBanks      := 2
  sourceMap   := []
  intcPorts   := []
  runQuantum  := 64
  cycleRules  := []

end Config

/-- `pa` lies in the region: `baseAddress <= pa < baseAddress + size` (R63). -/
def Region.has (r : Region) (pa : Nat) : Bool :=
  decide (r.base ≤ pa) && decide (pa < r.base + r.size)

/-- Two regions share no address (R63). -/
def Region.apart (r q : Region) : Bool :=
  decide (r.base + r.size ≤ q.base) || decide (q.base + q.size ≤ r.base)

/-- R63 for one entry: non-empty, inside the masked range, and its base survives the mask. -/
def Region.wf (c : Config) (r : Region) : Bool :=
  decide (0 < r.size) && decide (r.base + r.size ≤ c.physMask.toNat + 1) &&
    decide (BitVec.ofNat 32 r.base &&& ~~~c.physMask = 0)

/-- The configuration conditions of R63 and U25, which the spec makes a precondition: the region table is well formed, the ROM image
fits its array (R68), and the numbers lie in the ranges R5 gives them. -/
def Config.wf (c : Config) : Bool :=
  c.regions.all (Region.wf c) &&
    decide (c.regions.Pairwise (fun r q => r.apart q = true)) &&
    decide ((c.regions.filter (fun r => r.owner == .ram)).length = 1) &&
    decide ((c.regions.filter (fun r => r.owner == .rom)).length = 1) &&
    decide (c.resetPc ≠ 0) && decide (c.resetPc.toNat % 4 = 0) &&
    decide (1 ≤ c.runQuantum) && c.cycleRules.all (fun r => decide (1 ≤ r.cost)) &&
    decide (2 ≤ c.ipLine) && decide (c.ipLine ≤ 7) && decide (1 ≤ c.nBanks) &&
    c.regions.all (fun r => r.owner != .rom || decide (c.romImage.length ≤ r.size))

end Sys2Proof
end

