-- ==== Sys2Proof/Machine/State.lean ====
section
/-! DEFINITION. The machine's state as plain data (10_state.md), the reasons a step can stop (00_scope.md R10), and the state
after reset (10_state.md R50, 70_reset_and_hazards.md R400). -/

namespace Sys2Proof.Machine

/-- Where a device failed to recognise what it was asked for (DEDUCED, safe: assumption log 13). -/
inductive BadRegister where
  /-- A bus address inside its window (R351). -/
  | address (pa : Nat)
  /-- A bank number outside 0..N_BANKS-1 (R332, D20). -/
  | bank (b : Nat)
  /-- An interrupt source number out of range (D20). -/
  | source (s : Nat)
  deriving DecidableEq, Repr

/-- The fatal conditions of R10: the machine stops, and no state follows (R9). Every one of them is what the spec says the
machine does, so each is safe. -/
inductive Fault where
  /-- Raised by `doBranch` (R130): a control-flow instruction in a delay slot. Safe: the spec's own. -/
  | branchInDelaySlot
  /-- Raised by `setPC` and `doBranch` (R126, R130): a taken target of zero. Safe: the spec's own. -/
  | jumpToZero (target : Word)
  /-- Raised by `setPC` and `doBranch` (R126, R130): a taken target that is no multiple of 4. Safe: the spec's own. -/
  | misalignedJumpTarget (target : Word)
  /-- Raised by `addEvent` (R342): a delay of zero or less. Safe: the spec's own. -/
  | nonPositiveDelay (handler : Nat) (delay : Int)
  /-- Raised at the start of a scheduler run (R344): the queue is empty. Safe: the spec's own. -/
  | emptyQueueAtRun
  /-- Raised by the bus (R64, R65): no owner, a write to ROM, or an access that leaves its region. Safe: the spec's own. -/
  | unhandledAccess (pa : Nat) (width : Width) (isWrite : Bool)
  /-- Raised by a device (R351), the interrupt controller included (R332, D20). Safe: the spec's own. -/
  | unhandledRegister (device : DeviceHandle) (register : BadRegister)
  /-- Raised by `cop0Read` and `cop0Write` (R306). Safe: the spec's own. -/
  | unmappedCop0Index (index : Nat)
  /-- Raised by exception return with `status.ERL` set (R325). Safe: the spec's own. -/
  | eretWithERL
  /-- Raised by the instruction cycle (R106) for a word outside the 72 instructions. Safe: the spec's own. -/
  | unmodeledInstruction (word : Word) (address : Word)
  /-- Raised by `addEvent` (R342) and by delivery of an event, for an id no handler has. Safe: the spec's own. -/
  | invalidHandlerId (handler : Nat)
  /-- Raised by the bus when MISALIGNED_POLICY is `fatal` (R70). Safe: the spec's own. -/
  | misalignedDataAccess (pa : Nat) (width : Width)
  deriving DecidableEq, Repr

/-- The steps the model gives no meaning to. -/
inductive Refusal where
  /-- Raised by `exec` for an instruction without a meaning (no arm does). Safe. -/
  | notModelled (mnemonic : String)
  /-- Raised when a peripheral's reply breaks the contract of R351 to R355: an effect outside the RAM array, or 'unhandled
  register' answered to a callback. 93_implementation_defined.md U10: such a device "is refused". Safe: it stops where the
  spec admits no such device. -/
  | deviceBreaksContract (device : Nat)
  deriving DecidableEq, Repr

/-- The coprocessor-0 registers (R33). `cause` is stored as its three stored fields (R37). -/
structure Cop0 where
  /-- `status`, all 32 bits (R34, R35). -/
  status  : Word
  /-- `cause.ExcCode` (R36). -/
  excCode : BitVec 5
  /-- `cause.IPsw`, IP[1:0] (R37). -/
  ipsw    : BitVec 2
  /-- `cause.BD` (R36). -/
  bd      : Bool
  /-- `epc` (R38). -/
  epc     : Word
  /-- `ebase` (R39). -/
  ebase   : Word
  deriving DecidableEq, Repr

/-- One bank of the interrupt controller: `intc.pending[b]` and `intc.mask[b]` (R41). -/
structure Bank where
  pending : Word
  mask    : Word
  deriving DecidableEq, Repr

/-- A scheduler event (R44). -/
structure Event where
  handler : Nat
  param   : Param
  due     : Nat
  seq     : Nat
  deriving DecidableEq, Repr

/-- The scheduler (R43 to R46). The queue is held in the order of R45, the next event first. `handlers` says which
peripheral's transition each handler id calls. -/
structure Sched where
  now      : Nat
  queue    : List Event
  nextSeq  : Nat
  handlers : List Nat
  deriving DecidableEq, Repr

/-- Whose turn it is, with the run loop's own counters: inside `cpuRun` with `n` cycles used (R139), or inside `run` with its
horizon (R344). -/
inductive Phase where
  | cpu (used : Nat)
  | draining (horizon : Nat)
  deriving DecidableEq, Repr

/-- RAM and ROM bytes by physical address (R47, R68): strictly rising addresses. -/
abbrev Memory := List Host.Cell

/-- Everything the spec gives the machine (10_state.md), the parameters of R5 (R48), and the model's own `replies` and
`draws`. -/
structure State where
  /-- The parameters of R5; no step changes them. -/
  cfg     : Config
  /-- x[0]..x[31] (R20). -/
  regs    : Vector Word 32
  /-- LO (R24). -/
  lo      : Word
  /-- HI (R24). -/
  hi      : Word
  /-- R26. -/
  pc      : Word
  /-- R27. -/
  npc     : Word
  /-- `ds_cur` (R29). -/
  dsCur   : Bool
  /-- `ds_next` (R29). -/
  dsNext  : Bool
  /-- R31. -/
  halted  : Bool
  /-- R32. -/
  llbit   : Bool
  /-- R33. -/
  cop0    : Cop0
  /-- R41: bank b is element b. -/
  intc    : List Bank
  /-- R43 to R46. -/
  sched   : Sched
  /-- R47. -/
  mem     : Memory
  /-- R138, R139, R344. -/
  phase   : Phase
  /-- The model's own: what the peripherals answer next, oldest first (DESIGN CHOICE, safe: assumption log 6). -/
  replies : List DeviceReply
  /-- The model's own: how many free values have been drawn (DESIGN CHOICE, safe: assumption log 5). -/
  draws   : Nat
  deriving DecidableEq, Repr

/-- The state after reset for a configuration (R50, R400). Registers R50 leaves unspecified hold 0 (DESIGN CHOICE,
unsafe: assumption log 3). -/
def State.resetFor (c : Config) : State where
  cfg     := c
  regs    := Vector.replicate 32 0#32
  lo      := 0#32
  hi      := 0#32
  pc      := c.resetPc
  npc     := c.resetPc + 4
  dsCur   := false
  dsNext  := false
  halted  := false
  llbit   := false
  cop0    := { status := c.resetStatus, excCode := 0#5, ipsw := 0#2, bd := false, epc := 0#32, ebase := c.resetEbase }
  intc    := List.replicate c.nBanks ⟨0#32, 0#32⟩
  sched   := { now := 0, queue := [], nextSeq := 0, handlers := [] }
  mem     := []
  phase   := .cpu 0
  replies := []
  draws   := 0

/-- The machine right after reset, with the default parameters of R5. -/
def State.reset : State := State.resetFor Config.standard

/-- What an operation answers: a value, a fatal condition or a refusal. -/
abbrev Res (α : Type) := Host.Outcome α Fault Refusal

/-- Go on with the value of `r`, or stop as `r` stops. -/
def Res.bind {α β : Type} (r : Res α) (f : α → Res β) : Res β :=
  match r with
  | .next a => f a
  | .fault e => .fault e
  | .refused e => .refused e

end Sys2Proof.Machine
end

