-- ==== Sys2Proof/Machine/Memory.lean ====
section
/-! DEFINITION. The byte store: a list of (address, byte) pairs in one canonical form, strictly rising addresses
(20_memory.md R68, 10_state.md R47). An address that is not listed holds no stored byte; it reads as the reset contents of its array,
ROM_IMAGE or the unspecified contents of RAM (10_state.md R50). -/

namespace Sys2Proof.Machine

/-- What the store lists at an address; `none` where nothing is listed. -/
def Memory.get (m : Memory) (a : Nat) : Option Byte :=
  match m with
  | [] => none
  | (k, b) :: rest => if a = k then some b else Memory.get rest a

/-- List `v` at `a`, in its place. -/
def Memory.set (m : Memory) (a : Nat) (v : Byte) : Memory :=
  match m with
  | [] => [(a, v)]
  | (k, b) :: rest =>
    if a < k then (a, v) :: (k, b) :: rest
    else if a = k then (k, v) :: rest
    else (k, b) :: Memory.set rest a v

/-- The canonical form: addresses strictly rising. The machine lists RAM bytes only (R65), and what an unlisted one reads as is a free
value, so no entry is known to repeat it (assumption log 4). -/
def Memory.wf (m : Memory) : Bool :=
  match m with
  | [] => true
  | (k, _) :: rest => rest.all (fun c => decide (k < c.1)) && Memory.wf rest

/-- Byte `k` of ROM_IMAGE: the configuration's, or open where the configuration gives none (R5, R68). -/
def romByte (c : Config) (k : Nat) : Byte :=
  (c.romImage[k]?).getD (Config.openRom k)

/-- The ROM region of the table, if there is one. -/
def romRegion (c : Config) : Option Region :=
  c.regions.find? fun r => r.owner == .rom

/-- What an address reads as where memory lists nothing: ROM_IMAGE in the ROM region, and elsewhere the unspecified contents
(R50, R68; assumption log 4). -/
def unlistedByte (c : Config) (pa : Nat) : Byte :=
  match romRegion c with
  | some r => if r.has pa then romByte c (pa - r.base) else Config.initByte pa
  | none => Config.initByte pa

/-- The byte at a physical address: the listed one, or the reset contents (R50, R68). -/
def State.byteAt (s : State) (pa : Nat) : Byte :=
  (Memory.get s.mem pa).getD (unlistedByte s.cfg pa)

/-- The `n` bytes from `pa` on, the one at the lowest address least significant (R66, R71). -/
def State.loadBytes (s : State) (pa : Nat) : Nat → Word
  | 0 => 0#32
  | n + 1 => (s.byteAt pa).setWidth 32 ||| (State.loadBytes s (pa + 1) n <<< 8)

/-- Store the low `n` bytes of `v` from `pa` on, the least significant at the lowest address (R67, R71). -/
def Memory.storeBytes (m : Memory) (pa : Nat) (v : Word) : Nat → Memory
  | 0 => m
  | n + 1 => Memory.storeBytes (Memory.set m pa (v.setWidth 8)) (pa + 1) (v >>> 8) n

end Sys2Proof.Machine
end

