-- ==== Sys2Proof/Machine/Devices.lean ====
section
/-! DEFINITION. The interrupt controller (60_exceptions.md R330 to R334), the event scheduler's operations (R340 to R343), and the
boundary contract with the peripherals (R350 to R355). -/

namespace Sys2Proof.Machine

/-! ## The interrupt controller -/

/-- Bank `b` replaced by its image under `f`; a bank number out of range is fatal (R332, D20). -/
def State.updateBank (s : State) (b : Nat) (bad : BadRegister) (f : Bank → Bank) : Res State :=
  match s.intc[b]? with
  | some k => .next { s with intc := s.intc.set b (f k) }
  | none => .fault (.unhandledRegister .intc bad)

/-- `raise(source)` (R330). -/
def intcRaise (source : Nat) (s : State) : Res State :=
  s.updateBank (source / 32) (.source source) fun k => { k with pending := k.pending ||| (1#32 <<< (source % 32)) }

/-- `clear(source)` (R331). -/
def intcClear (source : Nat) (s : State) : Res State :=
  s.updateBank (source / 32) (.source source) fun k => { k with pending := k.pending &&& ~~~(1#32 <<< (source % 32)) }

/-- `setMask(bank, value)` (R332). -/
def intcSetMask (bank : Nat) (v : Word) (s : State) : Res State :=
  s.updateBank bank (.bank bank) fun k => { k with mask := v }

/-- `setPending(bank, value)` (R333). -/
def intcSetPending (bank : Nat) (v : Word) (s : State) : Res State :=
  s.updateBank bank (.bank bank) fun k => { k with pending := v }

/-- `getMask(bank)` (R332). -/
def intcGetMask (bank : Nat) (s : State) : Res Word :=
  match s.intc[bank]? with
  | some k => .next k.mask
  | none => .fault (.unhandledRegister .intc (.bank bank))

/-- `getPending(bank)`, unmasked (R333). -/
def intcGetPending (bank : Nat) (s : State) : Res Word :=
  match s.intc[bank]? with
  | some k => .next k.pending
  | none => .fault (.unhandledRegister .intc (.bank bank))

/-- `isPending()`: some bank has a pending bit its mask lets through (R334). -/
def State.isPending (s : State) : Bool :=
  s.intc.any fun k => k.pending &&& k.mask != 0#32

/-- The port of the controller's window that answers this address and width (R333, DESIGN CHOICE: assumption log 9). -/
def State.intcPort (s : State) (pa : Nat) (w : Width) : Option IntcPort :=
  s.cfg.intcPorts.find? fun p => decide (p.addr = pa) && decide (p.width = w)

/-- A bus read of the controller's window (R333). -/
def intcRead (pa : Nat) (w : Width) (s : State) : Res Word :=
  match s.intcPort pa w with
  | none => .fault (.unhandledRegister .intc (.address pa))
  | some p =>
    match p.reg with
    | .pending => intcGetPending p.bank s
    | .mask => intcGetMask p.bank s

/-- A bus write of the controller's window (R333). -/
def intcWrite (pa : Nat) (w : Width) (v : Word) (s : State) : Res State :=
  match s.intcPort pa w with
  | none => .fault (.unhandledRegister .intc (.address pa))
  | some p =>
    match p.reg with
    | .pending => intcSetPending p.bank v s
    | .mask => intcSetMask p.bank v s

/-- The source number the platform gives a named line (R42, SOURCE_MAP). -/
def State.sourceNumber (s : State) (n : SourceName) : Option Nat :=
  (s.cfg.sourceMap.find? fun p => decide (p.1 = n)).map Prod.snd

/-! ## The scheduler -/

/-- Event `e` is before event `f` in the queue (R45). -/
def Event.before (e f : Event) : Bool :=
  decide (e.due < f.due) || (decide (e.due = f.due) && decide (e.seq < f.seq))

/-- Put an event into its place in the queue (R45). -/
def insertEvent (e : Event) : List Event → List Event
  | [] => [e]
  | f :: rest => if e.before f then e :: f :: rest else f :: insertEvent e rest

/-- `registerEvent(callback)` by peripheral `dev`: the new handler id, and the grown registry (R340). -/
def registerEvent (dev : Nat) (s : State) : Nat × State :=
  (s.sched.handlers.length, { s with sched := { s.sched with handlers := s.sched.handlers ++ [dev] } })

/-- `addEvent(handlerId, parameter, delayCycles)` (R342). -/
def addEvent (h : Nat) (p : Param) (d : Int) (s : State) : Res State :=
  if d ≤ 0 then .fault (.nonPositiveDelay h d)
  else if s.sched.handlers.length ≤ h then .fault (.invalidHandlerId h)
  else
    .next { s with sched := { s.sched with
      queue := insertEvent ⟨h, p, s.sched.now + d.toNat, s.sched.nextSeq⟩ s.sched.queue
      nextSeq := s.sched.nextSeq + 1 } }

/-- `getRunCycles()` (R343). -/
def getRunCycles (s : State) : Nat := s.cfg.runQuantum

/-! ## Peripherals -/

/-- The RAM region of the table, if there is one. -/
def State.ramRegion (s : State) : Option Region :=
  s.cfg.regions.find? fun r => r.owner == .ram

/-- A byte of the RAM backing array written by a device (R79, R353); outside the array the device breaks the contract. -/
def deviceWriteRam (dev off : Nat) (v : Byte) (s : State) : Res State :=
  match s.ramRegion with
  | some r =>
    if off < r.size then .next { s with mem := Memory.set s.mem (r.base + off) v }
    else .refused (.deviceBreaksContract dev)
  | none => .refused (.deviceBreaksContract dev)

/-- One effect of a device's transition (R352 to R354). -/
def applyEffect (dev : Nat) (e : Effect) (s : State) : Res State :=
  match e with
  | .raise source => intcRaise source s
  | .clear source => intcClear source s
  | .addEvent h p d => addEvent h p d s
  | .writeRam off v => deviceWriteRam dev off v s

/-- The effects of a transition, in order (R351). -/
def applyEffects (dev : Nat) : List Effect → State → Res State
  | [], s => .next s
  | e :: rest, s => Res.bind (applyEffect dev e s) (applyEffects dev rest)

/-- What peripheral `dev` answers to a call: the next reply of the script, or else a drawn one (R355, U10,
DESIGN CHOICE, safe: assumption log 6). -/
def takeReply (dev : Nat) (c : DeviceCall) (s : State) : DeviceReply × State :=
  match s.replies with
  | r :: rest => (r, { s with replies := rest })
  | [] => (Config.deviceReply s.draws dev c, { s with draws := s.draws + 1 })

/-- A bus read of a peripheral's window (R351). -/
def peripheralRead (dev pa : Nat) (w : Width) (s : State) : Res (Word × State) :=
  match takeReply dev (.read pa w) s with
  | (.unhandled, _) => .fault (.unhandledRegister (.peripheral dev) (.address pa))
  | (.done v effects, s) => Res.bind (applyEffects dev effects s) fun t => .next (v, t)

/-- A bus write of a peripheral's window (R351). -/
def peripheralWrite (dev pa : Nat) (w : Width) (v : Word) (s : State) : Res State :=
  match takeReply dev (.write pa w v) s with
  | (.unhandled, _) => .fault (.unhandledRegister (.peripheral dev) (.address pa))
  | (.done _ effects, s) => applyEffects dev effects s

/-- The callback of handler `h` with parameter `p` (R344, R354). An unknown id stops with R342's reason (DEDUCED, safe: assumption
log 14). -/
def runCallback (h : Nat) (p : Param) (s : State) : Res State :=
  match s.sched.handlers[h]? with
  | none => .fault (.invalidHandlerId h)
  | some dev =>
    match takeReply dev (.callback h p) s with
    | (.unhandled, _) => .refused (.deviceBreaksContract dev)
    | (.done _ effects, s) => applyEffects dev effects s

end Sys2Proof.Machine
end

