-- ==== Sys2Proof/Machine/Flags.lean ====
section
/-! DEFINITION. The machine has no condition codes (10_state.md R49). What stands here is what other machines keep in flags: the
signed-overflow test of ADD, ADDI and SUB (41_alu.md R150, R152, R160), the conditions of the branches (44_branch_jump.md R206 to
R221), the fields of `status` (10_state.md R34), and the composed `cause` word (R36, R37). -/

namespace Sys2Proof.Machine

/-- The exact integer is no 32-bit signed value (R150). -/
def overflows (n : Int) : Bool := decide (n < -2147483648) || decide (2147483647 < n)

/-! ## Branch conditions, on `signed(x[rs])` -/

def isLez (v : Word) : Bool := decide (v.toInt ≤ 0)
def isGtz (v : Word) : Bool := decide (0 < v.toInt)
def isLtz (v : Word) : Bool := decide (v.toInt < 0)
def isGez (v : Word) : Bool := decide (0 ≤ v.toInt)

/-! ## Fields of `status` (R34) -/

def Cop0.ie (c : Cop0) : Bool := c.status.getLsbD 0
def Cop0.exl (c : Cop0) : Bool := c.status.getLsbD 1
def Cop0.erl (c : Cop0) : Bool := c.status.getLsbD 2
def Cop0.im (c : Cop0) : BitVec 8 := c.status.extractLsb' 8 8
def Cop0.bev (c : Cop0) : Bool := c.status.getLsbD 22

/-- `status.EXL <- 1`, the other 31 bits unchanged (R307). -/
def Cop0.setExl (c : Cop0) : Cop0 := { c with status := c.status ||| 2#32 }

/-- `status.EXL <- 0`, the other 31 bits unchanged (R325). -/
def Cop0.clearExl (c : Cop0) : Cop0 := { c with status := c.status &&& ~~~2#32 }

/-- `(BD << 31) | (IP << 8) | (ExcCode << 2)` (R37). -/
def Cop0.causeWord (c : Cop0) (ip : BitVec 8) : Word :=
  ((if c.bd then 1#32 else 0#32) <<< 31) ||| (ip.setWidth 32 <<< 8) ||| (c.excCode.setWidth 32 <<< 2)

end Sys2Proof.Machine
end

