-- ==== Sys2Proof/Machine/Operands.lean ====
section
/-! DEFINITION. Every operand form (30_encoding.md R103, 44_branch_jump.md R201, 45_load_store.md R230), and reading and writing
the general registers (10_state.md R21, R22). -/

namespace Sys2Proof.Machine

/-! ## General registers -/

/-- `x[r]`: register 0 reads as zero (R21). -/
def State.x (s : State) (r : Reg) : Word :=
  if r = 0 then 0#32 else s.regs.get r

/-- `x[r] <- v`: slot `r` takes `v`, then slot 0 takes 0 (R22). -/
def State.setX (s : State) (r : Reg) (v : Word) : State :=
  { s with regs := (s.regs.set r.val v r.isLt).set 0 0#32 }

/-! ## Extensions and immediates -/

/-- `sext_16`, `sext_8` (R6). -/
def sext16 (v : BitVec 16) : Word := v.signExtend 32
def sext8 (v : BitVec 8) : Word := v.signExtend 32

/-- `zext_16`, `zext_8` (R6). -/
def zext16 (v : BitVec 16) : Word := v.setWidth 32
def zext8 (v : BitVec 8) : Word := v.setWidth 32

/-- Upper immediate: `imm << 16` (R103). -/
def upperImm (imm : Imm) : Word := zext16 imm <<< 16

/-- 1 or 0, as compares write (R158). -/
def boolWord (b : Bool) : Word := if b then 1#32 else 0#32

/-! ## Addresses and targets -/

/-- The effective address: base plus sign-extended offset, modulo 2^32 (R230). -/
def State.ea (s : State) (rs : Reg) (off : Imm) : Word := s.x rs + sext16 off

/-- The word that holds an address: `a & ~3` (R237, R242). -/
def wordAddr (a : Word) : Word := a &&& 0xFFFFFFFC#32

/-- BranchTarget: `pc + (sext_16(imm) << 2)`, with `pc` as it is inside the execute step (R103, R201). -/
def State.branchTarget (s : State) (off : Imm) : Word := s.pc + (sext16 off <<< 2)

/-- JumpTarget: `(pc & 0xF0000000) | (index << 2)` (R103, R201). -/
def State.jumpTarget (s : State) (index : BitVec 26) : Word :=
  (s.pc &&& 0xF0000000#32) ||| (index.setWidth 32 <<< 2)

/-- Variable shift amount: `x[rs][4:0]` (R103, R179). -/
def State.shiftAmount (s : State) (rs : Reg) : Nat := (s.x rs).toNat % 32

end Sys2Proof.Machine
end

