-- ==== Sys2Proof/Machine/Ops.lean ====
section
/-! DEFINITION. The shared operations: the bus (20_memory.md R62 to R70), redirecting the pc (40_engine.md R126, R130), coprocessor 0
(60_exceptions.md R305, R311), taking an exception (R320) and returning from one (R325, R326), and reset (70_reset_and_hazards.md
R400). -/

namespace Sys2Proof.Machine

/-! ## The bus -/

/-- `pa = addr & PHYS_MASK` (R62). -/
def State.physical (s : State) (addr : Word) : Nat := (addr &&& s.cfg.physMask).toNat

/-- The region that owns a physical address (R63). -/
def State.regionOf (s : State) (pa : Nat) : Option Region :=
  s.cfg.regions.find? fun r => r.has pa

/-- The misalignment check of R66 and R67 fails: the policy is `fatal` and the address no multiple of the width (R70). -/
def State.misalignedFatal (s : State) (pa : Nat) (w : Width) : Bool :=
  decide (s.cfg.misaligned = .fatal) && decide (pa % w.bytes ≠ 0)

/-- The low `8n` bits of a value, for the width `n`. -/
def truncate (w : Width) (v : Word) : Word :=
  match w with
  | .one => (v.setWidth 8).setWidth 32
  | .two => (v.setWidth 16).setWidth 32
  | .four => v

/-- A read of RAM or ROM inside region `r` (R66): its value; no state changes. -/
def readBacking (r : Region) (pa : Nat) (w : Width) (s : State) : Res Word :=
  if s.misalignedFatal pa w then .fault (.misalignedDataAccess pa w)
  else if r.base + r.size ≤ pa + w.bytes - 1 then .fault (.unhandledAccess pa w false)
  else .next (s.loadBytes pa w.bytes)

/-- A write of RAM inside region `r` (R67). -/
def writeBacking (r : Region) (pa : Nat) (w : Width) (v : Word) (s : State) : Res State :=
  if s.misalignedFatal pa w then .fault (.misalignedDataAccess pa w)
  else if r.base + r.size ≤ pa + w.bytes - 1 then .fault (.unhandledAccess pa w true)
  else .next { s with mem := Memory.storeBytes s.mem pa v w.bytes }

/-- `MemRead(addr, n)` (R66): the value, and the state a device's transition may have changed. -/
def memRead (s : State) (addr : Word) (w : Width) : Res (Word × State) :=
  let pa := s.physical addr
  match s.regionOf pa with
  | none => .fault (.unhandledAccess pa w false)
  | some r =>
    match r.owner with
    | .ram | .rom => Res.bind (readBacking r pa w s) fun v => .next (v, s)
    | .device .intc => Res.bind (intcRead pa w s) fun v => .next (truncate w v, s)
    | .device (.peripheral d) => Res.bind (peripheralRead d pa w s) fun p => .next (truncate w p.1, p.2)

/-- `MemWrite(addr, n, v)` (R67). -/
def memWrite (s : State) (addr : Word) (w : Width) (v : Word) : Res State :=
  let pa := s.physical addr
  match s.regionOf pa with
  | none => .fault (.unhandledAccess pa w true)
  | some r =>
    match r.owner with
    | .rom => .fault (.unhandledAccess pa w true)
    | .ram => writeBacking r pa w v s
    | .device .intc => intcWrite pa w (truncate w v) s
    | .device (.peripheral d) => peripheralWrite d pa w (truncate w v) s

/-! ## Redirecting the pc -/

/-- A jump target is acceptable: not zero and a multiple of 4; else the fatal condition of R126 and R130. -/
def checkTarget (a : Word) : Res Unit :=
  if a = 0#32 then .fault (.jumpToZero a)
  else if a.extractLsb' 0 2 ≠ 0#2 then .fault (.misalignedJumpTarget a)
  else .next ()

/-- `setPC(a)` (R126). -/
def setPC (a : Word) (s : State) : Res State :=
  Res.bind (checkTarget a) fun _ => .next { s with pc := a, npc := a + 4 }

/-- `doBranch(target, cond, link, likely)` (R130, R131, R132). -/
def doBranch (target : Word) (cond : Bool) (link : Reg) (likely : Bool) (s : State) : Res State :=
  if s.dsCur then .fault .branchInDelaySlot
  else
    let s := { s.setX link s.npc with dsNext := true }
    if cond then Res.bind (checkTarget target) fun _ => .next { s with npc := target }
    else if likely then .next { s with pc := s.npc, npc := s.npc + 4, dsNext := false }
    else .next s

/-! ## Coprocessor 0 -/

/-- `cause.IP`: the controller's aggregate on line INTC_IP_LINE, and the two software bits (R37). -/
def State.causeIP (s : State) : BitVec 8 :=
  (if s.isPending then 1#8 <<< s.cfg.ipLine else 0#8) ||| s.cop0.ipsw.setWidth 8

/-- `isInterruptPending()` (R311). -/
def State.isInterruptPending (s : State) : Bool :=
  s.cop0.ie && !s.cop0.exl && !s.cop0.erl && (s.cop0.im &&& s.causeIP != 0#8)

/-- `cop0Read(i)` (R305, R306). -/
def cop0Read (i : Nat) (s : State) : Res Word :=
  if i = 12 then .next s.cop0.status
  else if i = 13 then .next (s.cop0.causeWord s.causeIP)
  else if i = 14 then .next s.cop0.epc
  else if i = 25 then .next s.cop0.ebase
  else .fault (.unmappedCop0Index i)

/-- `cop0Write(i, v)` (R305, R306). -/
def cop0Write (i : Nat) (v : Word) (s : State) : Res State :=
  if i = 12 then .next { s with cop0 := { s.cop0 with status := v } }
  else if i = 13 then .next { s with cop0 := { s.cop0 with ipsw := v.extractLsb' 8 2 } }
  else if i = 14 then .next { s with cop0 := { s.cop0 with epc := v } }
  else if i = 25 then .next { s with cop0 := { s.cop0 with ebase := v } }
  else .fault (.unmappedCop0Index i)

/-! ## Exceptions -/

/-- The four exception causes (R315). -/
inductive Exc where
  | interrupt
  | syscall
  | breakpoint
  | overflow
  deriving DecidableEq, Repr

/-- `cause.ExcCode` of a cause (R315). -/
def Exc.code : Exc → BitVec 5
  | .interrupt => 0#5
  | .syscall => 8#5
  | .breakpoint => 9#5
  | .overflow => 12#5

/-- Step 3 of R320: the vector, from `status.BEV` and `ebase` as they were before the entry. -/
def State.vector (s : State) (e : Exc) : Word :=
  (if s.cop0.bev then s.cfg.vecBootBase else s.cop0.ebase) +
    (if e = .interrupt then s.cfg.vecOffInt else s.cfg.vecOffOther)

/-- What exception entry leaves in coprocessor 0 (steps 2, 5 and 6 of R320); `slot` is the delay-slot flag after step 4. -/
def Cop0.enter (c : Cop0) (e : Exc) (slot : Bool) (pc : Word) : Cop0 :=
  let saved := if c.exl then c else { c with bd := slot, epc := if slot then pc - 4 else pc }
  { saved.setExl with excCode := e.code }

/-- `raise Exception(code)`: the six steps of R320. Step 4 makes the old `ds_next` the flag that step 5 tests. -/
def raiseException (e : Exc) (s : State) : Res State :=
  setPC (s.vector e)
    { s with halted := false, dsCur := false, dsNext := false, cop0 := s.cop0.enter e s.dsNext s.pc }

/-- `exceptionReturn()` of the CPU, with coprocessor 0's (R325, R326). -/
def exceptionReturn (s : State) : Res State :=
  if s.cop0.erl then .fault .eretWithERL
  else setPC s.cop0.epc { s with llbit := false, cop0 := s.cop0.clearExl }

/-! ## Reset -/

/-- `reset()` (R400), a host action on a running or fresh machine: memory, handlers, the registers R50 leaves unspecified and
the model's own fields stay; the run loop starts anew (DESIGN CHOICE, unsafe: assumption log 17). -/
def hostReset (s : State) : Res State :=
  setPC s.cfg.resetPc
    { s with
      intc := List.replicate s.cfg.nBanks ⟨0#32, 0#32⟩
      sched := { s.sched with now := 0, queue := [], nextSeq := 0 }
      cop0 := { s.cop0 with status := s.cfg.resetStatus, ebase := s.cfg.resetEbase, excCode := 0#5, ipsw := 0#2, bd := false }
      dsCur := false, dsNext := false, halted := false, llbit := false
      regs := s.regs.set 0 0#32
      phase := .cpu 0 }

end Sys2Proof.Machine
end

