-- ==== Sys2Proof/Machine/Alu.lean ====
section
/-! DEFINITION. Integer arithmetic, logical and compare instructions (41_alu.md R149 to R167). -/

namespace Sys2Proof.Machine

/-- The trapping forms (R150, R152, R160): the exact result `n`, or the Overflow exception with the destination unwritten. -/
def writeOrTrap (rd : Reg) (n : Int) (s : State) : Res State :=
  if overflows n then raiseException .overflow s else .next (s.setX rd (BitVec.ofInt 32 n))

/-- ADD (R150). -/
def execAdd (rd rs rt : Reg) (s : State) : Res State :=
  writeOrTrap rd ((s.x rs).toInt + (s.x rt).toInt) s

/-- ADDU (R151). -/
def execAddu (rd rs rt : Reg) (s : State) : Res State :=
  .next (s.setX rd (s.x rs + s.x rt))

/-- SUB (R152). -/
def execSub (rd rs rt : Reg) (s : State) : Res State :=
  writeOrTrap rd ((s.x rs).toInt - (s.x rt).toInt) s

/-- SUBU (R153). -/
def execSubu (rd rs rt : Reg) (s : State) : Res State :=
  .next (s.setX rd (s.x rs - s.x rt))

/-- AND (R154). -/
def execAnd (rd rs rt : Reg) (s : State) : Res State :=
  .next (s.setX rd (s.x rs &&& s.x rt))

/-- OR (R155). -/
def execOr (rd rs rt : Reg) (s : State) : Res State :=
  .next (s.setX rd (s.x rs ||| s.x rt))

/-- XOR (R156). -/
def execXor (rd rs rt : Reg) (s : State) : Res State :=
  .next (s.setX rd (s.x rs ^^^ s.x rt))

/-- NOR (R157). -/
def execNor (rd rs rt : Reg) (s : State) : Res State :=
  .next (s.setX rd (~~~(s.x rs ||| s.x rt)))

/-- SLT (R158). -/
def execSlt (rd rs rt : Reg) (s : State) : Res State :=
  .next (s.setX rd (boolWord (decide ((s.x rs).toInt < (s.x rt).toInt))))

/-- SLTU (R159). -/
def execSltu (rd rs rt : Reg) (s : State) : Res State :=
  .next (s.setX rd (boolWord (decide ((s.x rs).toNat < (s.x rt).toNat))))

/-- ADDI (R160). -/
def execAddi (rt rs : Reg) (imm : Imm) (s : State) : Res State :=
  writeOrTrap rt ((s.x rs).toInt + (sext16 imm).toInt) s

/-- ADDIU (R161). -/
def execAddiu (rt rs : Reg) (imm : Imm) (s : State) : Res State :=
  .next (s.setX rt (s.x rs + sext16 imm))

/-- SLTI (R162). -/
def execSlti (rt rs : Reg) (imm : Imm) (s : State) : Res State :=
  .next (s.setX rt (boolWord (decide ((s.x rs).toInt < (sext16 imm).toInt))))

/-- SLTIU (R163). -/
def execSltiu (rt rs : Reg) (imm : Imm) (s : State) : Res State :=
  .next (s.setX rt (boolWord (decide ((s.x rs).toNat < (sext16 imm).toNat))))

/-- ANDI (R164). -/
def execAndi (rt rs : Reg) (imm : Imm) (s : State) : Res State :=
  .next (s.setX rt (s.x rs &&& zext16 imm))

/-- ORI (R165). -/
def execOri (rt rs : Reg) (imm : Imm) (s : State) : Res State :=
  .next (s.setX rt (s.x rs ||| zext16 imm))

/-- XORI (R166). -/
def execXori (rt rs : Reg) (imm : Imm) (s : State) : Res State :=
  .next (s.setX rt (s.x rs ^^^ zext16 imm))

/-- LUI (R167). -/
def execLui (rt : Reg) (imm : Imm) (s : State) : Res State :=
  .next (s.setX rt (upperImm imm))

end Sys2Proof.Machine
end

