-- ==== Sys2Proof/Machine/Branch.lean ====
section
/-! DEFINITION. Jumps and branches, each one call of `doBranch` (44_branch_jump.md R200 to R221). -/

namespace Sys2Proof.Machine

/-- J (R202). -/
def execJ (index : BitVec 26) (s : State) : Res State :=
  doBranch (s.jumpTarget index) true 0 false s

/-- JAL (R203). -/
def execJal (index : BitVec 26) (s : State) : Res State :=
  doBranch (s.jumpTarget index) true 31 false s

/-- JR (R204). -/
def execJr (rs : Reg) (s : State) : Res State :=
  doBranch (s.x rs) true 0 false s

/-- JALR (R205): the target is read before the link is written. -/
def execJalr (rd rs : Reg) (s : State) : Res State :=
  doBranch (s.x rs) true rd false s

/-- BEQ (R206). -/
def execBeq (rs rt : Reg) (off : Imm) (s : State) : Res State :=
  doBranch (s.branchTarget off) (s.x rs == s.x rt) 0 false s

/-- BNE (R207). -/
def execBne (rs rt : Reg) (off : Imm) (s : State) : Res State :=
  doBranch (s.branchTarget off) (s.x rs != s.x rt) 0 false s

/-- BLEZ (R208). -/
def execBlez (rs : Reg) (off : Imm) (s : State) : Res State :=
  doBranch (s.branchTarget off) (isLez (s.x rs)) 0 false s

/-- BGTZ (R209). -/
def execBgtz (rs : Reg) (off : Imm) (s : State) : Res State :=
  doBranch (s.branchTarget off) (isGtz (s.x rs)) 0 false s

/-- BLTZ (R210). -/
def execBltz (rs : Reg) (off : Imm) (s : State) : Res State :=
  doBranch (s.branchTarget off) (isLtz (s.x rs)) 0 false s

/-- BGEZ (R211). -/
def execBgez (rs : Reg) (off : Imm) (s : State) : Res State :=
  doBranch (s.branchTarget off) (isGez (s.x rs)) 0 false s

/-- BLTZAL (R212). -/
def execBltzal (rs : Reg) (off : Imm) (s : State) : Res State :=
  doBranch (s.branchTarget off) (isLtz (s.x rs)) 31 false s

/-- BGEZAL (R213). -/
def execBgezal (rs : Reg) (off : Imm) (s : State) : Res State :=
  doBranch (s.branchTarget off) (isGez (s.x rs)) 31 false s

/-- BEQL (R214). -/
def execBeql (rs rt : Reg) (off : Imm) (s : State) : Res State :=
  doBranch (s.branchTarget off) (s.x rs == s.x rt) 0 true s

/-- BNEL (R215). -/
def execBnel (rs rt : Reg) (off : Imm) (s : State) : Res State :=
  doBranch (s.branchTarget off) (s.x rs != s.x rt) 0 true s

/-- BLEZL (R216). -/
def execBlezl (rs : Reg) (off : Imm) (s : State) : Res State :=
  doBranch (s.branchTarget off) (isLez (s.x rs)) 0 true s

/-- BGTZL (R217). -/
def execBgtzl (rs : Reg) (off : Imm) (s : State) : Res State :=
  doBranch (s.branchTarget off) (isGtz (s.x rs)) 0 true s

/-- BLTZL (R218). -/
def execBltzl (rs : Reg) (off : Imm) (s : State) : Res State :=
  doBranch (s.branchTarget off) (isLtz (s.x rs)) 0 true s

/-- BGEZL (R219). -/
def execBgezl (rs : Reg) (off : Imm) (s : State) : Res State :=
  doBranch (s.branchTarget off) (isGez (s.x rs)) 0 true s

/-- BLTZALL (R220). -/
def execBltzall (rs : Reg) (off : Imm) (s : State) : Res State :=
  doBranch (s.branchTarget off) (isLtz (s.x rs)) 31 true s

/-- BGEZALL (R221). -/
def execBgezall (rs : Reg) (off : Imm) (s : State) : Res State :=
  doBranch (s.branchTarget off) (isGez (s.x rs)) 31 true s

end Sys2Proof.Machine
end

