-- ==== Sys2Proof/Machine/LoadStore.lean ====
section
/-! DEFINITION. Loads and stores (45_load_store.md R230 to R245). -/

namespace Sys2Proof.Machine

/-- A load: one read of width `w` at the effective address, extended by `ext`, to `x[rt]` (R231). -/
def loadTo (rt : Reg) (off : Imm) (rs : Reg) (w : Width) (ext : Word → Word) (s : State) : Res State :=
  Res.bind (memRead s (s.ea rs off) w) fun p => .next (p.2.setX rt (ext p.1))

/-- A store: one write of width `w` of `x[rt]` at the effective address (R231). -/
def storeFrom (rt : Reg) (off : Imm) (rs : Reg) (w : Width) (s : State) : Res State :=
  memWrite s (s.ea rs off) w (s.x rt)

/-- `ea[1:0]` (R237). -/
def byteIndex (ea : Word) : Nat := ea.toNat % 4

/-- The value LWL writes, from the word read and the old register (R237). -/
def mergeLeft (b : Nat) (w old : Word) : Word :=
  let sh := 8 * (3 - b)
  (w <<< sh) ||| (old &&& ((1#32 <<< sh) - 1#32))

/-- The value LWR writes (R238). -/
def mergeRight (b : Nat) (w old : Word) : Word :=
  let sh := 8 * b
  (w >>> sh) ||| (old &&& ~~~(0xFFFFFFFF#32 >>> sh))

/-- The word SWL writes back, from the register and the word read (R242). -/
def storeLeft (b : Nat) (v w : Word) : Word :=
  let sh := 8 * (3 - b)
  (v >>> sh) ||| (w &&& ~~~(0xFFFFFFFF#32 >>> sh))

/-- The word SWR writes back (R243). -/
def storeRight (b : Nat) (v w : Word) : Word :=
  let sh := 8 * b
  (v <<< sh) ||| (w &&& ((1#32 <<< sh) - 1#32))

/-- LWL and LWR: one aligned read, merged into `x[rt]` (R237, R238). -/
def loadMerge (merge : Nat → Word → Word → Word) (rt : Reg) (off : Imm) (rs : Reg) (s : State) : Res State :=
  let ea := s.ea rs off
  Res.bind (memRead s (wordAddr ea) .four) fun p => .next (p.2.setX rt (merge (byteIndex ea) p.1 (p.2.x rt)))

/-- SWL and SWR: one aligned read, then one aligned write of the merged word (R242, R243). -/
def storeMerge (merge : Nat → Word → Word → Word) (rt : Reg) (off : Imm) (rs : Reg) (s : State) : Res State :=
  let ea := s.ea rs off
  Res.bind (memRead s (wordAddr ea) .four) fun p =>
    memWrite p.2 (wordAddr ea) .four (merge (byteIndex ea) (p.2.x rt) p.1)

/-- LB (R232). -/
def execLb (rt : Reg) (off : Imm) (rs : Reg) (s : State) : Res State :=
  loadTo rt off rs .one (fun v => sext8 (v.setWidth 8)) s

/-- LBU (R233). -/
def execLbu (rt : Reg) (off : Imm) (rs : Reg) (s : State) : Res State :=
  loadTo rt off rs .one (fun v => zext8 (v.setWidth 8)) s

/-- LH (R234). -/
def execLh (rt : Reg) (off : Imm) (rs : Reg) (s : State) : Res State :=
  loadTo rt off rs .two (fun v => sext16 (v.setWidth 16)) s

/-- LHU (R235). -/
def execLhu (rt : Reg) (off : Imm) (rs : Reg) (s : State) : Res State :=
  loadTo rt off rs .two (fun v => zext16 (v.setWidth 16)) s

/-- LW (R236). -/
def execLw (rt : Reg) (off : Imm) (rs : Reg) (s : State) : Res State :=
  loadTo rt off rs .four (fun v => v) s

/-- LWL (R237). -/
def execLwl (rt : Reg) (off : Imm) (rs : Reg) (s : State) : Res State :=
  loadMerge mergeLeft rt off rs s

/-- LWR (R238). -/
def execLwr (rt : Reg) (off : Imm) (rs : Reg) (s : State) : Res State :=
  loadMerge mergeRight rt off rs s

/-- SB (R239). -/
def execSb (rt : Reg) (off : Imm) (rs : Reg) (s : State) : Res State :=
  storeFrom rt off rs .one s

/-- SH (R240). -/
def execSh (rt : Reg) (off : Imm) (rs : Reg) (s : State) : Res State :=
  storeFrom rt off rs .two s

/-- SW (R241). -/
def execSw (rt : Reg) (off : Imm) (rs : Reg) (s : State) : Res State :=
  storeFrom rt off rs .four s

/-- SWL (R242). -/
def execSwl (rt : Reg) (off : Imm) (rs : Reg) (s : State) : Res State :=
  storeMerge storeLeft rt off rs s

/-- SWR (R243). -/
def execSwr (rt : Reg) (off : Imm) (rs : Reg) (s : State) : Res State :=
  storeMerge storeRight rt off rs s

/-- LL (R244). -/
def execLl (rt : Reg) (off : Imm) (rs : Reg) (s : State) : Res State :=
  Res.bind (loadTo rt off rs .four (fun v => v) s) fun t => .next { t with llbit := true }

/-- SC (R245): the store uses the old `x[rt]`; without the reservation no access is made. -/
def execSc (rt : Reg) (off : Imm) (rs : Reg) (s : State) : Res State :=
  if s.llbit then Res.bind (storeFrom rt off rs .four s) fun t => .next (t.setX rt 1#32)
  else .next (s.setX rt 0#32)

end Sys2Proof.Machine
end

