-- ==== Sys2Proof/Machine/MulDiv.lean ====
section
/-! DEFINITION. Multiply, divide and the moves of HI and LO (43_muldiv.md R189 to R197). -/

namespace Sys2Proof.Machine

/-- `lo` and `hi` take the two halves of a 64-bit product (R190, R191). -/
def writeProduct (p : BitVec 64) (s : State) : State :=
  { s with lo := p.extractLsb' 0 32, hi := p.extractLsb' 32 32 }

/-- A division the spec leaves open (R192, R193): `lo` and `hi` are drawn, and nothing else happens. -/
def drawQuotient (op : DivOp) (n d : Word) (s : State) : State :=
  { s with
    lo := (Config.divCorner s.draws op n d).1
    hi := (Config.divCorner s.draws op n d).2
    draws := s.draws + 1 }

/-- MULT (R190). -/
def execMult (rs rt : Reg) (s : State) : Res State :=
  .next (writeProduct (BitVec.ofInt 64 ((s.x rs).toInt * (s.x rt).toInt)) s)

/-- MULTU (R191). -/
def execMultu (rs rt : Reg) (s : State) : Res State :=
  .next (writeProduct (BitVec.ofNat 64 ((s.x rs).toNat * (s.x rt).toNat)) s)

/-- DIV (R192): the quotient truncated toward zero to `lo`, the remainder to `hi`. -/
def execDiv (rs rt : Reg) (s : State) : Res State :=
  let n := (s.x rs).toInt
  let d := (s.x rt).toInt
  if d = 0 ∨ (n = -2147483648 ∧ d = -1) then .next (drawQuotient .signed (s.x rs) (s.x rt) s)
  else
    let q := n.tdiv d
    .next { s with lo := BitVec.ofInt 32 q, hi := BitVec.ofInt 32 (n - q * d) }

/-- DIVU (R193). -/
def execDivu (rs rt : Reg) (s : State) : Res State :=
  let n := (s.x rs).toNat
  let d := (s.x rt).toNat
  if d = 0 then .next (drawQuotient .unsigned (s.x rs) (s.x rt) s)
  else .next { s with lo := BitVec.ofNat 32 (n / d), hi := BitVec.ofNat 32 (n - n / d * d) }

/-- MFHI (R194). -/
def execMfhi (rd : Reg) (s : State) : Res State :=
  .next (s.setX rd s.hi)

/-- MTHI (R195). -/
def execMthi (rs : Reg) (s : State) : Res State :=
  .next { s with hi := s.x rs }

/-- MFLO (R196). -/
def execMflo (rd : Reg) (s : State) : Res State :=
  .next (s.setX rd s.lo)

/-- MTLO (R197). -/
def execMtlo (rs : Reg) (s : State) : Res State :=
  .next { s with lo := s.x rs }

end Sys2Proof.Machine
end

