-- ==== Sys2Proof/Machine/Shift.lean ====
section
/-! DEFINITION. Shift instructions (42_shift.md R179 to R185). -/

namespace Sys2Proof.Machine

/-- SLL (R180). -/
def execSll (rd rt : Reg) (shamt : Nat) (s : State) : Res State :=
  .next (s.setX rd (s.x rt <<< shamt))

/-- SRL (R181). -/
def execSrl (rd rt : Reg) (shamt : Nat) (s : State) : Res State :=
  .next (s.setX rd (s.x rt >>> shamt))

/-- SRA (R182). -/
def execSra (rd rt : Reg) (shamt : Nat) (s : State) : Res State :=
  .next (s.setX rd ((s.x rt).sshiftRight shamt))

/-- SLLV (R183). -/
def execSllv (rd rt rs : Reg) (s : State) : Res State :=
  .next (s.setX rd (s.x rt <<< s.shiftAmount rs))

/-- SRLV (R184). -/
def execSrlv (rd rt rs : Reg) (s : State) : Res State :=
  .next (s.setX rd (s.x rt >>> s.shiftAmount rs))

/-- SRAV (R185). -/
def execSrav (rd rt rs : Reg) (s : State) : Res State :=
  .next (s.setX rd ((s.x rt).sshiftRight (s.shiftAmount rs)))

end Sys2Proof.Machine
end

