-- ==== Sys2Proof/Machine/System.lean ====
section
/-! DEFINITION. System, coprocessor-0 and exception-return instructions (46_system_cop0.md R259 to R265). -/

namespace Sys2Proof.Machine

/-- SYSCALL (R260): raises Syscall; the code is ignored. -/
def execSyscall (_code : BitVec 20) (s : State) : Res State :=
  raiseException .syscall s

/-- BREAK (R261): raises Breakpoint; the code is ignored. -/
def execBreak (_code : BitVec 20) (s : State) : Res State :=
  raiseException .breakpoint s

/-- SYNC (R262): no operation; the stype is ignored. -/
def execSync (_stype : BitVec 5) (s : State) : Res State :=
  .next s

/-- MFC0 (R263). -/
def execMfc0 (rt : Reg) (index : Nat) (s : State) : Res State :=
  Res.bind (cop0Read index s) fun v => .next (s.setX rt v)

/-- MTC0 (R264). -/
def execMtc0 (rt : Reg) (index : Nat) (s : State) : Res State :=
  cop0Write index (s.x rt) s

/-- ERET (R265). -/
def execEret (s : State) : Res State :=
  exceptionReturn s

end Sys2Proof.Machine
end

