-- ==== Sys2Proof/Machine/Dispatch.lean ====
section
/-! DEFINITION. Step 4 of the instruction cycle for an admitted instruction (40_engine.md R124): one arm per instruction. -/

namespace Sys2Proof.Machine

def exec (i : Instr) (s : State) : Host.Outcome State Fault Refusal :=
  match i with
  | .add rd rs rt => Sys2Proof.Machine.execAdd rd rs rt s
  | .addu rd rs rt => Sys2Proof.Machine.execAddu rd rs rt s
  | .sub rd rs rt => Sys2Proof.Machine.execSub rd rs rt s
  | .subu rd rs rt => Sys2Proof.Machine.execSubu rd rs rt s
  | .and rd rs rt => Sys2Proof.Machine.execAnd rd rs rt s
  | .or rd rs rt => Sys2Proof.Machine.execOr rd rs rt s
  | .xor rd rs rt => Sys2Proof.Machine.execXor rd rs rt s
  | .nor rd rs rt => Sys2Proof.Machine.execNor rd rs rt s
  | .slt rd rs rt => Sys2Proof.Machine.execSlt rd rs rt s
  | .sltu rd rs rt => Sys2Proof.Machine.execSltu rd rs rt s
  | .addi rt rs imm => Sys2Proof.Machine.execAddi rt rs imm s
  | .addiu rt rs imm => Sys2Proof.Machine.execAddiu rt rs imm s
  | .slti rt rs imm => Sys2Proof.Machine.execSlti rt rs imm s
  | .sltiu rt rs imm => Sys2Proof.Machine.execSltiu rt rs imm s
  | .andi rt rs imm => Sys2Proof.Machine.execAndi rt rs imm s
  | .ori rt rs imm => Sys2Proof.Machine.execOri rt rs imm s
  | .xori rt rs imm => Sys2Proof.Machine.execXori rt rs imm s
  | .lui rt imm => Sys2Proof.Machine.execLui rt imm s
  | .sll rd rt shamt => Sys2Proof.Machine.execSll rd rt shamt s
  | .srl rd rt shamt => Sys2Proof.Machine.execSrl rd rt shamt s
  | .sra rd rt shamt => Sys2Proof.Machine.execSra rd rt shamt s
  | .sllv rd rt rs => Sys2Proof.Machine.execSllv rd rt rs s
  | .srlv rd rt rs => Sys2Proof.Machine.execSrlv rd rt rs s
  | .srav rd rt rs => Sys2Proof.Machine.execSrav rd rt rs s
  | .mult rs rt => Sys2Proof.Machine.execMult rs rt s
  | .multu rs rt => Sys2Proof.Machine.execMultu rs rt s
  | .div rs rt => Sys2Proof.Machine.execDiv rs rt s
  | .divu rs rt => Sys2Proof.Machine.execDivu rs rt s
  | .mfhi rd => Sys2Proof.Machine.execMfhi rd s
  | .mthi rs => Sys2Proof.Machine.execMthi rs s
  | .mflo rd => Sys2Proof.Machine.execMflo rd s
  | .mtlo rs => Sys2Proof.Machine.execMtlo rs s
  | .j index => Sys2Proof.Machine.execJ index s
  | .jal index => Sys2Proof.Machine.execJal index s
  | .jr rs => Sys2Proof.Machine.execJr rs s
  | .jalr rd rs => Sys2Proof.Machine.execJalr rd rs s
  | .beq rs rt off => Sys2Proof.Machine.execBeq rs rt off s
  | .bne rs rt off => Sys2Proof.Machine.execBne rs rt off s
  | .blez rs off => Sys2Proof.Machine.execBlez rs off s
  | .bgtz rs off => Sys2Proof.Machine.execBgtz rs off s
  | .bltz rs off => Sys2Proof.Machine.execBltz rs off s
  | .bgez rs off => Sys2Proof.Machine.execBgez rs off s
  | .bltzal rs off => Sys2Proof.Machine.execBltzal rs off s
  | .bgezal rs off => Sys2Proof.Machine.execBgezal rs off s
  | .beql rs rt off => Sys2Proof.Machine.execBeql rs rt off s
  | .bnel rs rt off => Sys2Proof.Machine.execBnel rs rt off s
  | .blezl rs off => Sys2Proof.Machine.execBlezl rs off s
  | .bgtzl rs off => Sys2Proof.Machine.execBgtzl rs off s
  | .bltzl rs off => Sys2Proof.Machine.execBltzl rs off s
  | .bgezl rs off => Sys2Proof.Machine.execBgezl rs off s
  | .bltzall rs off => Sys2Proof.Machine.execBltzall rs off s
  | .bgezall rs off => Sys2Proof.Machine.execBgezall rs off s
  | .lb rt off rs => Sys2Proof.Machine.execLb rt off rs s
  | .lbu rt off rs => Sys2Proof.Machine.execLbu rt off rs s
  | .lh rt off rs => Sys2Proof.Machine.execLh rt off rs s
  | .lhu rt off rs => Sys2Proof.Machine.execLhu rt off rs s
  | .lw rt off rs => Sys2Proof.Machine.execLw rt off rs s
  | .lwl rt off rs => Sys2Proof.Machine.execLwl rt off rs s
  | .lwr rt off rs => Sys2Proof.Machine.execLwr rt off rs s
  | .sb rt off rs => Sys2Proof.Machine.execSb rt off rs s
  | .sh rt off rs => Sys2Proof.Machine.execSh rt off rs s
  | .sw rt off rs => Sys2Proof.Machine.execSw rt off rs s
  | .swl rt off rs => Sys2Proof.Machine.execSwl rt off rs s
  | .swr rt off rs => Sys2Proof.Machine.execSwr rt off rs s
  | .ll rt off rs => Sys2Proof.Machine.execLl rt off rs s
  | .sc rt off rs => Sys2Proof.Machine.execSc rt off rs s
  | .syscall code => Sys2Proof.Machine.execSyscall code s
  | .brk code => Sys2Proof.Machine.execBreak code s
  | .sync stype => Sys2Proof.Machine.execSync stype s
  | .mfc0 rt index => Sys2Proof.Machine.execMfc0 rt index s
  | .mtc0 rt index => Sys2Proof.Machine.execMtc0 rt index s
  | .eret => Sys2Proof.Machine.execEret s

end Sys2Proof.Machine
end

