-- ==== Sys2Proof/Machine/Cycle.lean ====
section
/-! DEFINITION. The instruction cycle (40_engine.md R120 to R125), the scheduler's part of the run loop (R138, 60_exceptions.md
R344), and placing an instruction where the next fetch reads it. -/

namespace Sys2Proof.Machine

/-! ## The CPU's turn -/

/-- CYCLES(w) (R125): the first row that matches, or 1. -/
def cyclesOf (c : Config) (w : Word) : Nat :=
  match c.cycleRules.find? fun r => w &&& r.mask == r.value with
  | some r => r.cost
  | none => 1

/-- Step 5 (R125) and the count of `cpuRun` (R139): `n` more virtual cycles are used in this quantum. -/
def State.charge (s : State) (n : Nat) : State :=
  match s.phase with
  | .cpu used => { s with phase := .cpu (used + n) }
  | .draining _ => s

/-- Step 0 (R120, R313): the interrupt check of the boundary. -/
def boundary (s : State) : Res State :=
  if s.isInterruptPending then raiseException .interrupt s else .next s

/-- Steps 2 and 3 (R122, R123). -/
def State.advance (s : State) : State :=
  { s with pc := s.npc, npc := s.npc + 4, dsCur := s.dsNext, dsNext := false }

/-- Step 1 (R121): the word at `pc`, through the bus (DEDUCED, safe: assumption log 18). -/
def fetch (s : State) : Res (Word × State) := memRead s s.pc .four

/-- Steps 4 and 5 (R124, R125) for the word `w` fetched from `a`. -/
def executeWord (w a : Word) (s : State) : Res State :=
  match decode w with
  | .error _ => .fault (.unmodeledInstruction w a)
  | .ok i => Res.bind (exec i s) fun t => .next (t.charge (cyclesOf t.cfg w))

/-- Steps 1 to 5. -/
def fetchExecute (s : State) : Res State :=
  Res.bind (fetch s) fun p => executeWord p.1 s.pc p.2.advance

/-- `InstructionCycle()` (R120): step 0, the Halted test of step 0' (R137), then steps 1 to 5. -/
def instructionCycle (s : State) : Res State :=
  Res.bind (boundary s) fun t =>
    if t.halted then .next (t.charge 1) else fetchExecute t

/-! ## The scheduler's turn -/

/-- The beginning of `run(q)` (R344): the emptiness test, and the horizon. -/
def startRun (s : State) : Res State :=
  if s.sched.queue = [] then .fault .emptyQueueAtRun
  else .next { s with phase := .draining (s.sched.now + getRunCycles s) }

/-- The end of `run` (R344): the clock is the horizon, and a new quantum begins (R138, R139). -/
def finishRun (horizon : Nat) (s : State) : State :=
  { s with sched := { s.sched with now := horizon }, phase := .cpu 0 }

/-- One round of the drain loop of `run` (R344): the first due event is removed, the clock takes its due time and its callback
runs; when none is due the run ends. -/
def drainOne (horizon : Nat) (s : State) : Res State :=
  match s.sched.queue with
  | [] => .next (finishRun horizon s)
  | e :: rest =>
    if e.due ≤ horizon then runCallback e.handler e.param { s with sched := { s.sched with queue := rest, now := e.due } }
    else .next (finishRun horizon s)

/-- The run loop (R138, R139): instruction cycles until the quantum is used, then one scheduler run, for ever. -/
def turn (s : State) : Res State :=
  match s.phase with
  | .cpu used => if used < getRunCycles s then instructionCycle s else startRun s
  | .draining horizon => drainOne horizon s

/-! ## Placing a word for the next fetch -/

/-- Where the next fetch reads: the pc, or the vector an interrupt of this boundary goes to (R120). -/
def State.fetchAddress (s : State) : Word :=
  if s.isInterruptPending then s.vector .interrupt else s.pc

/-- The state with `w` stored at the physical address of the next fetch, the CPU running and at the start of its quantum:
the host's load of a program word (R356, R405). -/
def State.placeWord (s : State) (w : Word) : State :=
  { s with
    mem := Memory.storeBytes s.mem (s.physical s.fetchAddress) w 4
    halted := false
    phase := .cpu 0 }

end Sys2Proof.Machine
end

