-- ==== Sys2Proof/Machine/Step.lean ====
section
/-! DEFINITION. One step of the machine: one turn of the run loop (40_engine.md R138), which is one instruction cycle (R120) or one
action of the event scheduler (60_exceptions.md R344). -/

namespace Sys2Proof.Machine

/-- One step (DESIGN CHOICE, safe: assumption log 7). -/
def step (s : State) : Host.Outcome State Fault Refusal := turn s

/-- `s` with the instruction word `w` where `step` fetches next; bits of `w` above `nbits` are 0 (DESIGN CHOICE,
safe: assumption log 8). -/
def State.withFetchWord (s : State) (nbits w : Nat) : State :=
  s.placeWord (BitVec.ofNat 32 (w % 2 ^ nbits))

end Sys2Proof.Machine
end

