-- ==== Sys2Proof/Safety.lean ====
section
/-! DEFINITION. What a claim says of a state or of a pair of states: the machine invariant, the frames ("unchanged except"), and when an
access is one the bus serves from RAM or ROM. -/

namespace Sys2Proof.Machine

/-! ## The invariant of every reachable state -/

/-- The scheduler's queue (R45): in order, each event numbered below the next number, of a registered handler, and due no earlier
than the clock. -/
structure Sched.Ok (c : Sched) : Prop where
  ordered : c.queue.Pairwise (fun e f => e.before f = true)
  seqs    : ∀ e ∈ c.queue, e.seq < c.nextSeq
  known   : ∀ e ∈ c.queue, e.handler < c.handlers.length
  notPast : ∀ e ∈ c.queue, c.now ≤ e.due

/-- The clock against the run loop (R139, R344): during a quantum every event is strictly in the future, and during a run the clock
has not passed the horizon. -/
def Phase.Ok (p : Phase) (c : Sched) : Prop :=
  match p with
  | .cpu _ => ∀ e ∈ c.queue, c.now < e.due
  | .draining horizon => c.now ≤ horizon

/-- The invariant: slot 0 holds 0 (R22), `pc` and `npc` are multiples of 4 (R28), the core runs (R31), there are N_BANKS banks (R41),
memory is in canonical form, and the scheduler is in order (R43, R45). -/
structure State.Inv (s : State) : Prop where
  zero    : s.regs.get 0 = 0#32
  pc      : s.pc.toNat % 4 = 0
  npc     : s.npc.toNat % 4 = 0
  running : s.halted = false
  banks   : s.intc.length = s.cfg.nBanks
  memory  : Memory.wf s.mem = true
  sched   : s.sched.Ok
  phase   : s.phase.Ok s.sched

/-! ## Frames -/

/-- Every general register outside `ds` reads as before. -/
def SameRegs (ds : List Reg) (s t : State) : Prop := ∀ r, r ∉ ds → t.x r = s.x r

/-- HI and LO are as before. -/
structure SameHiLo (s t : State) : Prop where
  lo : t.lo = s.lo
  hi : t.hi = s.hi

/-- The pc pair and the delay-slot flags are as before. -/
structure SameFlow (s t : State) : Prop where
  pc     : t.pc = s.pc
  npc    : t.npc = s.npc
  dsCur  : t.dsCur = s.dsCur
  dsNext : t.dsNext = s.dsNext

/-- Coprocessor 0, `halted` and the reservation are as before. -/
structure SameSystem (s t : State) : Prop where
  cop0   : t.cop0 = s.cop0
  halted : t.halted = s.halted
  llbit  : t.llbit = s.llbit

/-- Everything outside the CPU but memory is as before: parameters, interrupt controller, scheduler, run loop, and the environment. -/
structure SamePlatform (s t : State) : Prop where
  cfg     : t.cfg = s.cfg
  intc    : t.intc = s.intc
  sched   : t.sched = s.sched
  phase   : t.phase = s.phase
  replies : t.replies = s.replies
  draws   : t.draws = s.draws

/-- Every byte of memory reads as before. -/
def SameBytes (s t : State) : Prop := ∀ a, t.byteAt a = s.byteAt a

/-- Every byte of memory outside the `n` bytes from `pa` reads as before. -/
def SameBytesOutside (pa n : Nat) (s t : State) : Prop := ∀ a, a < pa ∨ pa + n ≤ a → t.byteAt a = s.byteAt a

/-- Only general registers in `ds` may differ. -/
def OnlyRegs (ds : List Reg) (s t : State) : Prop :=
  SameRegs ds s t ∧ SameHiLo s t ∧ SameFlow s t ∧ SameSystem s t ∧ SamePlatform s t ∧ SameBytes s t

/-- Only the `n` bytes of memory from `pa` on may differ. -/
def OnlyBytes (pa n : Nat) (s t : State) : Prop :=
  SameRegs [] s t ∧ SameHiLo s t ∧ SameFlow s t ∧ SameSystem s t ∧ SamePlatform s t ∧ SameBytesOutside pa n s t

/-- What no access changes, a device's included (R231, R355): the CPU outside the general registers and the reservation, the
parameters, the run loop, the clock and the handler registry. -/
structure SameCpu (s t : State) : Prop where
  hiLo   : SameHiLo s t
  flow   : SameFlow s t
  cop0   : t.cop0 = s.cop0
  halted : t.halted = s.halted
  cfg    : t.cfg = s.cfg
  phase  : t.phase = s.phase
  now    : t.sched.now = s.sched.now
  handlers : t.sched.handlers = s.sched.handlers

/-! ## What an instruction does, in the forms that many share -/

/-- The instruction completes, its destination then reads `v` (0 where the destination is register 0, R21, R22), and nothing else
differs. -/
def SetsReg (i : Instr) (s : State) (rd : Reg) (v : Word) : Prop :=
  ∃ t, exec i s = .next t ∧ t.x rd = (if rd = 0 then 0#32 else v) ∧ OnlyRegs [rd] s t

/-- With an exact result `n` that a signed word holds, the instruction sets its destination to it; else it raises Overflow
(R150, R152, R160). -/
def SetsOrOverflows (i : Instr) (s : State) (rd : Reg) (n : Int) : Prop :=
  (-2147483648 ≤ n ∧ n ≤ 2147483647 → SetsReg i s rd (BitVec.ofInt 32 n)) ∧
    (n < -2147483648 ∨ 2147483647 < n → exec i s = raiseException .overflow s)

/-- What control flow leaves: the pc pair and `ds_next` as given, the link written, all else as before (R130, R132). -/
structure Branched (s t : State) (pc npc : Word) (slot : Bool) (link : Reg) : Prop where
  pc       : t.pc = pc
  npc      : t.npc = npc
  dsNext   : t.dsNext = slot
  dsCur    : t.dsCur = s.dsCur
  linked   : t.x link = (if link = 0 then 0#32 else s.npc)
  regs     : SameRegs [link] s t
  hiLo     : SameHiLo s t
  system   : SameSystem s t
  platform : SamePlatform s t
  bytes    : SameBytes s t

/-- A target `setPC` and a taken `doBranch` accept (R126, R130). -/
def ValidTarget (a : Word) : Prop := a ≠ 0#32 ∧ a.toNat % 4 = 0

/-- `r` is what `doBranch(target, cond, link, likely)` answers in `s` (R130, R131). -/
structure Branches (r : Res State) (s : State) (target : Word) (cond : Bool) (link : Reg) (likely : Bool) : Prop where
  inSlot   : s.dsCur = true → r = .fault .branchInDelaySlot
  taken    : s.dsCur = false → cond = true → ValidTarget target → ∃ t, r = .next t ∧ Branched s t s.pc target true link
  toZero   : s.dsCur = false → cond = true → target = 0#32 → r = .fault (.jumpToZero target)
  toOdd    : s.dsCur = false → cond = true → target.toNat % 4 ≠ 0 → r = .fault (.misalignedJumpTarget target)
  notTaken : s.dsCur = false → cond = false → likely = false → ∃ t, r = .next t ∧ Branched s t s.pc s.npc true link
  squashed : s.dsCur = false → cond = false → likely = true →
    ∃ t, r = .next t ∧ Branched s t s.npc (s.npc + 4) false link

/-- `t` is the state exception entry leaves in `s` (R320). -/
structure Entered (e : Exc) (s t : State) : Prop where
  pc       : t.pc = (if s.cop0.status.getLsbD 22 then s.cfg.vecBootBase else s.cop0.ebase) +
    (if e = .interrupt then s.cfg.vecOffInt else s.cfg.vecOffOther)
  npc      : t.npc = t.pc + 4
  halted   : t.halted = false
  code     : t.cop0.excCode = e.code
  fresh    : s.cop0.status.getLsbD 1 = false →
    t.cop0.bd = s.dsNext ∧ t.cop0.epc = (if s.dsNext then s.pc - 4 else s.pc)
  nested   : s.cop0.status.getLsbD 1 = true → t.cop0.bd = s.cop0.bd ∧ t.cop0.epc = s.cop0.epc
  dsCur    : t.dsCur = false
  dsNext   : t.dsNext = false
  exl      : t.cop0.status = s.cop0.status ||| 2#32
  ipsw     : t.cop0.ipsw = s.cop0.ipsw
  ebase    : t.cop0.ebase = s.cop0.ebase
  llbit    : t.llbit = s.llbit
  regs     : SameRegs [] s t
  hiLo     : SameHiLo s t
  platform : SamePlatform s t
  bytes    : SameBytes s t

/-! ## Accesses the bus serves from memory -/

/-- A read of width `w` at `addr` is one R66 answers from RAM or ROM: an owner, inside its end, and aligned where the policy is
`fatal`. -/
def Readable (s : State) (addr : Word) (w : Width) : Prop :=
  ∃ r, s.regionOf (s.physical addr) = some r ∧ (r.owner = .ram ∨ r.owner = .rom) ∧
    s.physical addr + w.bytes ≤ r.base + r.size ∧ s.misalignedFatal (s.physical addr) w = false

/-- A write of width `w` at `addr` is one R67 performs in RAM. -/
def Writable (s : State) (addr : Word) (w : Width) : Prop :=
  ∃ r, s.regionOf (s.physical addr) = some r ∧ r.owner = .ram ∧
    s.physical addr + w.bytes ≤ r.base + r.size ∧ s.misalignedFatal (s.physical addr) w = false

/-- No device owns `addr`: an access there is one RAM or ROM answers, or a fatal one. -/
def NoDevice (s : State) (addr : Word) : Prop :=
  ∀ r h, s.regionOf (s.physical addr) = some r → r.owner ≠ .device h

/-- The little-endian value of the `2` or `4` bytes from `pa` on (R66, R71). -/
def State.half (s : State) (pa : Nat) : BitVec 16 := s.byteAt (pa + 1) ++ s.byteAt pa
def State.word (s : State) (pa : Nat) : Word := s.byteAt (pa + 3) ++ s.byteAt (pa + 2) ++ s.byteAt (pa + 1) ++ s.byteAt pa

/-! ## What a peripheral answers, and what the accesses make of an answer -/

/-- Peripheral `d`, called with `c` in `s`, replies `reply`, which leaves `t` before the reply's effects: the next reply of the script,
or, the script being empty, the drawn one for this very call (R351, U10, assumption log 6). -/
def Replied (s : State) (d : Nat) (c : DeviceCall) (reply : DeviceReply) (t : State) : Prop :=
  (∃ rest, s.replies = reply :: rest ∧ t = { s with replies := rest }) ∨
    (s.replies = [] ∧ Config.deviceReply s.draws d c = reply ∧ t = { s with draws := s.draws + 1 })

/-- How a call stops that the device does not recognise: its own fatal condition on the bus (R351), and a broken contract in a
callback, which R354 gives no such answer (assumption log 6). -/
def unrecognised (d : Nat) : DeviceCall → Res State
  | .read pa _ | .write pa _ _ => .fault (.unhandledRegister (.peripheral d) (.address pa))
  | .callback _ _ => .refused (.deviceBreaksContract d)

/-- Peripheral `d`, called with `c` in `s`, answers the value `v` with the outcome `r`: its reply's effects performed in order, or the
stop of a call it does not recognise (R351, R354). -/
inductive Answers (s : State) (d : Nat) (c : DeviceCall) : Word → Res State → Prop where
  | done (v : Word) (es : List Effect) (t : State) (h : Replied s d c (.done v es) t) : Answers s d c v (applyEffects d es t)
  | unhandled (v : Word) (t : State) (h : Replied s d c .unhandled t) : Answers s d c v (unrecognised d c)

/-- What the loads of width `w` do whose one read gives the low bytes of `v` with the outcome `r` (R232 to R236, R244): the value
extended goes to `x[rt]`, LL sets the reservation too, and a read that stops, stops them. -/
structure LoadsDo (s : State) (rt : Reg) (off : Imm) (rs : Reg) (w : Width) (v : Word) (r : Res State) : Prop where
  plain  : ∀ u, r = .next u → ∀ i value,
    (i, w, value) ∈ [(Instr.lb rt off rs, Width.one, (v.extractLsb' 0 8).signExtend 32),
      (.lbu rt off rs, .one, 0#24 ++ v.extractLsb' 0 8), (.lh rt off rs, .two, (v.extractLsb' 0 16).signExtend 32),
      (.lhu rt off rs, .two, 0#16 ++ v.extractLsb' 0 16), (.lw rt off rs, .four, v)] →
    ∃ t, exec i s = .next t ∧ t.x rt = (if rt = 0 then 0#32 else value) ∧ OnlyRegs [rt] u t
  linked : ∀ u, r = .next u → w = .four → ∃ t, exec (.ll rt off rs) s = .next t ∧ t.llbit = true ∧
    t.x rt = (if rt = 0 then 0#32 else v) ∧ OnlyRegs [rt] { u with llbit := true } t
  stops  : (∀ u, r ≠ .next u) → ∀ i,
    (i, w) ∈ [(Instr.lb rt off rs, Width.one), (.lbu rt off rs, .one), (.lh rt off rs, .two), (.lhu rt off rs, .two),
      (.lw rt off rs, .four), (.ll rt off rs, .four)] → exec i s = r

/-- What the stores of width `w` do whose one write has the outcome `r` (R239 to R241, R245): that outcome, and SC with the reservation
then gives 1. -/
structure StoresDo (s : State) (rt : Reg) (off : Imm) (rs : Reg) (w : Width) (r : Res State) : Prop where
  plain       : ∀ i, (i, w) ∈ [(Instr.sb rt off rs, Width.one), (.sh rt off rs, .two), (.sw rt off rs, .four)] → exec i s = r
  conditional : ∀ u, r = .next u → w = .four → s.llbit = true →
    ∃ t, exec (.sc rt off rs) s = .next t ∧ t.x rt = (if rt = 0 then 0#32 else 1#32) ∧ OnlyRegs [rt] u t
  stops       : (∀ u, r ≠ .next u) → w = .four → s.llbit = true → exec (.sc rt off rs) s = r

/-- What the merging loads and stores do whose aligned read gives the word `v` with the outcome `r` (R237, R238, R242, R243): LWL and
LWR merge it into `x[rt]`; SWL and SWR make one aligned write of the merged word, whose outcome is `write`'s; a read that stops, stops
all four. -/
structure MergesDo (s : State) (rt : Reg) (off : Imm) (rs : Reg) (v : Word) (r : Res State) (write : State → Word → Res State → Prop) :
    Prop where
  loads  : ∀ u, r = .next u → ∀ i value,
    (i, value) ∈ [(Instr.lwl rt off rs, mergeLeft ((s.ea rs off).toNat % 4) v (s.x rt)),
      (.lwr rt off rs, mergeRight ((s.ea rs off).toNat % 4) v (s.x rt))] →
    ∃ t, exec i s = .next t ∧ t.x rt = (if rt = 0 then 0#32 else value) ∧ OnlyRegs [rt] u t
  stores : ∀ u, r = .next u → ∀ i value,
    (i, value) ∈ [(Instr.swl rt off rs, storeLeft ((s.ea rs off).toNat % 4) (s.x rt) v),
      (.swr rt off rs, storeRight ((s.ea rs off).toNat % 4) (s.x rt) v)] →
    ∀ q, write u value q → exec i s = q
  stops  : (∀ u, r ≠ .next u) → ∀ i ∈ [Instr.lwl rt off rs, .lwr rt off rs, .swl rt off rs, .swr rt off rs], exec i s = r

/-- It is the CPU's turn, with `used` cycles of the quantum used (R139). -/
def CpuTurn (s : State) (used : Nat) : Prop := s.phase = .cpu used ∧ used < s.cfg.runQuantum

end Sys2Proof.Machine

namespace Sys2Proof

/-- The word of a bank that a port of the controller's window reaches (R332, R333). -/
def IntcReg.of (reg : IntcReg) (b : Machine.Bank) : Word :=
  match reg with
  | .pending => b.pending
  | .mask => b.mask

/-- The bank with that word overwritten (R332, R333). -/
def IntcReg.put (reg : IntcReg) (b : Machine.Bank) (v : Word) : Machine.Bank :=
  match reg with
  | .pending => { b with pending := v }
  | .mask => { b with mask := v }

/-- The twenty control-flow instructions, those of 44_branch_jump.md (R30, R130). -/
def Instr.isControlFlow : Instr → Bool
  | .j .. | .jal .. | .jr .. | .jalr .. | .beq .. | .bne .. | .blez .. | .bgtz .. => true
  | .bltz .. | .bgez .. | .bltzal .. | .bgezal .. | .beql .. | .bnel .. | .blezl .. | .bgtzl .. => true
  | .bltzl .. | .bgezl .. | .bltzall .. | .bgezall .. => true
  | .add .. | .addu .. | .sub .. | .subu .. | .and .. | .or .. | .xor .. | .nor .. => false
  | .slt .. | .sltu .. | .addi .. | .addiu .. | .slti .. | .sltiu .. | .andi .. | .ori .. => false
  | .xori .. | .lui .. | .sll .. | .srl .. | .sra .. | .sllv .. | .srlv .. | .srav .. => false
  | .mult .. | .multu .. | .div .. | .divu .. | .mfhi .. | .mthi .. | .mflo .. | .mtlo .. => false
  | .lb .. | .lbu .. | .lh .. | .lhu .. | .lw .. | .lwl .. | .lwr .. | .sb .. => false
  | .sh .. | .sw .. | .swl .. | .swr .. | .ll .. | .sc .. | .syscall .. | .brk .. => false
  | .sync .. | .mfc0 .. | .mtc0 .. | .eret => false

end Sys2Proof
end

