-- ==== Sys2Proof/Certificates/Slice0/Obligations.lean ====
section
/-! DEFINITION. The statements for the provers. Each docstring names the rules of spec/ the statement formalises; the words
`Readable`, `Writable`, `SetsReg`, `Branches`, `Entered` and the frames are those of Sys2Proof/Safety.lean. -/

open Sys2Proof Sys2Proof.Machine

/-! ## Encoding (30_encoding.md) -/

/-- Every well-formed instruction comes back from its encoding, with every operand at every value (R101 to R110). -/
def Obligations.DecodeOfEncode : Prop :=
  ∀ i : Instr, i.wellFormed = true → decode (encode i) = .ok i

/-- Every word that decodes is the encoding of the instruction it decodes to, which is well formed: no bit of an admitted word is
dropped, its must-be-zero fields are zero (R104). -/
def Obligations.EncodeOfDecode : Prop :=
  ∀ (w : Word) (i : Instr), decode w = .ok i → i.wellFormed = true ∧ encode i = w

/-- A word decodes to an instruction exactly when a row of the opcode table covers it, and the row bears the instruction's mnemonic;
no other row covers the word (R104). -/
def Obligations.DecodeFollowsTable : Prop :=
  ∀ w : Word,
    (∀ i, decode w = .ok i → ∃ row ∈ opcodeTable, row.mnemonic = i.mnemonic ∧ row.covers w ∧
      ∀ other ∈ opcodeTable, other.covers w → other = row) ∧
    (∀ row ∈ opcodeTable, row.covers w → ∃ i, decode w = .ok i ∧ i.mnemonic = row.mnemonic)

/-- Instruction words of each family, written out from their encodings, decode to the instructions they stand for; five words that
break a must-be-zero field or lie in no row do not decode (R104, R107 to R110). A sanity statement. -/
def Obligations.SampleWordsDecode : Prop :=
  decode 0b00000000001000100001100000100000#32 = .ok (.add 3 1 2) ∧
  decode 0b00100000001000101111111111111111#32 = .ok (.addi 2 1 0xFFFF#16) ∧
  decode 0b00111100000000100001001000110100#32 = .ok (.lui 2 0x1234#16) ∧
  decode 0b00000000000000100001100100000000#32 = .ok (.sll 3 2 4) ∧
  decode 0b00000000001000100001100000000111#32 = .ok (.srav 3 2 1) ∧
  decode 0b00000000001000100000000000011010#32 = .ok (.div 1 2) ∧
  decode 0b00001000000100000000000001000000#32 = .ok (.j 0x100040#26) ∧
  decode 0b00000000010000001111100000001001#32 = .ok (.jalr 31 2) ∧
  decode 0b00000100001100100000000000000011#32 = .ok (.bltzall 1 3#16) ∧
  decode 0b10001100001000100000000000000100#32 = .ok (.lw 2 4#16 1) ∧
  decode 0b10111000001000100000000000000100#32 = .ok (.swr 2 4#16 1) ∧
  decode 0b01000000100000100110000000000000#32 = .ok (.mtc0 2 12) ∧
  decode 0b01000010000000000000000000011000#32 = .ok .eret ∧
  decode 0x3C230001#32 = .error .mustBeZero ∧
  decode 0x00221902#32 = .error .mustBeZero ∧
  decode 0x40026001#32 = .error .mustBeZero ∧
  decode 0x46000000#32 = .error (.opcode 17#6) ∧
  decode 0x70221002#32 = .error (.opcode 28#6)

/-- A word that is no instruction stops the machine when the execute step reaches it, with the word and the address it was fetched
from, whoever answered the fetch (R106). -/
def Obligations.UnmodeledWordIsFatal : Prop :=
  ∀ (s u : State) (used : Nat) (w : Word) (e : DecodeError),
    CpuTurn s used → s.isInterruptPending = false → s.halted = false → fetch s = .next (w, u) → decode w = .error e →
    step s = .fault (.unmodeledInstruction w s.pc)

/-! ## The instruction cycle (40_engine.md) -/

/-- A step in the CPU's turn runs the instruction decoded from the word the fetch at the pc answers, whoever answers it, a device
included: `pc` and `npc` advance and the delay-slot flags shift first, then `exec` acts, and its answer is the step's, with the word's
cycles counted; a fetch that stops, stops the step. A fetch that memory serves answers the four bytes at the pc and changes nothing
(R84, R86, R120 to R125). -/
def Obligations.StepRunsDecodedInstruction : Prop :=
  ∀ s : State,
    (Readable s s.pc .four → fetch s = .next (s.word (s.physical s.pc), s)) ∧
    (∀ used, CpuTurn s used → s.isInterruptPending = false → s.halted = false →
      (∀ (w : Word) (u : State) (i : Instr), fetch s = .next (w, u) → decode w = .ok i →
        let u' : State := { u with pc := s.npc, npc := s.npc + 4, dsCur := s.dsNext, dsNext := false }
        (∀ t, exec i u' = .next t → step s = .next { t with phase := .cpu (used + cyclesOf s.cfg w) }) ∧
        (∀ e, exec i u' = .fault e → step s = .fault e) ∧
        (∀ e, exec i u' = .refused e → step s = .refused e)) ∧
      (∀ e, fetch s = .fault e → step s = .fault e) ∧
      (∀ e, fetch s = .refused e → step s = .refused e))

/-- A deliverable interrupt is taken before the fetch: the step is the step of the entered state. With `ds_next` false `epc` is the
address about to be fetched and BD is 0; with `ds_next` true `epc` is 4 less and BD is 1 (R120, R313; R321, an inference the spec
marks as its own). A vector that is zero or misaligned stops the machine (R126). -/
def Obligations.InterruptTakenBeforeFetch : Prop :=
  ∀ (s : State) (used : Nat), CpuTurn s used → s.isInterruptPending = true →
    (ValidTarget (s.vector .interrupt) →
      ∃ t, Entered .interrupt s t ∧ t.cop0.bd = s.dsNext ∧ t.cop0.epc = (if s.dsNext then s.pc - 4 else s.pc) ∧
        t.isInterruptPending = false ∧ step s = step t) ∧
    (s.vector .interrupt = 0#32 → step s = .fault (.jumpToZero 0#32)) ∧
    ((s.vector .interrupt).toNat % 4 ≠ 0 → step s = .fault (.misalignedJumpTarget (s.vector .interrupt)))

/-- A halted cycle without a deliverable interrupt fetches and executes nothing: it counts one cycle and changes no other state
(R137). No run of the main core reaches a halted state (R31). -/
def Obligations.HaltedCycleOnlyCounts : Prop :=
  ∀ (s : State) (used : Nat), CpuTurn s used → s.isInterruptPending = false → s.halted = true →
    step s = .next { s with phase := .cpu (used + 1) }

/-- `setPC` goes to every non-zero multiple of 4, setting `npc` 4 beyond and touching nothing else, and stops at every other address
(R126). -/
def Obligations.SetPcChecksItsTarget : Prop :=
  ∀ (s : State) (a : Word),
    (ValidTarget a → setPC a s = .next { s with pc := a, npc := a + 4 }) ∧
    (a = 0#32 → setPC a s = .fault (.jumpToZero a)) ∧
    (a.toNat % 4 ≠ 0 → setPC a s = .fault (.misalignedJumpTarget a))

/-- `doBranch`: fatal in a delay slot whatever its arguments; otherwise the link takes the old `npc`, taken or not; taken, `npc` takes
the checked target; not taken and likely, the slot is skipped (R130, R131, R132). -/
def Obligations.DoBranchRule : Prop :=
  ∀ (s : State) (target : Word) (cond : Bool) (link : Reg) (likely : Bool),
    Branches (doBranch target cond link likely s) s target cond link likely

/-- Each of the twenty control-flow instructions stops the machine in a delay slot, whatever its operands; no other instruction ever
stops for that reason (R30). -/
def Obligations.ControlFlowInSlotIsFatal : Prop :=
  ∀ (i : Instr) (s : State),
    (i.isControlFlow = true → s.dsCur = true → exec i s = .fault .branchInDelaySlot) ∧
    (i.isControlFlow = false → exec i s ≠ .fault .branchInDelaySlot)

/-- An instruction that is not control flow leaves the pc pair and both delay-slot flags alone, unless it takes an exception or is
ERET (the table of R141, an inference the spec marks as its own). -/
def Obligations.OnlyControlFlowTouchesThePc : Prop :=
  ∀ (i : Instr) (s t : State), i.isControlFlow = false → exec i s = .next t →
    SameFlow s t ∨ i = .eret ∨ ∃ e, e ≠ Exc.interrupt ∧ Entered e s t

/-! ## The invariant -/

/-- The state after reset meets the invariant: register 0 is 0, the pc pair is aligned, the core runs, the scheduler is in order. -/
def Obligations.ResetMeetsInv : Prop := State.reset.Inv

/-- Every step from every state that meets the invariant leads to one that meets it (R22, R28, R31, R41, R43, R45). -/
def Obligations.StepKeepsInv : Prop :=
  ∀ s t : State, s.Inv → step s = .next t → t.Inv

/-- No step changes the parameters, and with a well-formed region table no step changes a byte outside the RAM region: not a ROM
byte, not through a device (R47, R65, R355). -/
def Obligations.StepKeepsRom : Prop :=
  ∀ s t : State, s.cfg.wf = true → step s = .next t →
    t.cfg = s.cfg ∧
    ∀ pa, (∀ r, s.regionOf pa = some r → r.owner ≠ .ram) → t.byteAt pa = s.byteAt pa

/-- The virtual clock never decreases, and stands still while the CPU runs its quantum (R43, R139, R345). -/
def Obligations.ClockNeverDecreases : Prop :=
  ∀ s t : State, s.Inv → step s = .next t →
    s.sched.now ≤ t.sched.now ∧ (∀ used, CpuTurn s used → t.sched.now = s.sched.now)

/-! ## Who may write which state -/

/-- A write of register `r` is read back, except that register 0 reads 0 whatever is written; no other register changes, and slot 0
of the array holds 0 after every write (R21, R22). -/
def Obligations.RegisterWriteRule : Prop :=
  ∀ (s : State) (r : Reg) (v : Word),
    s.x 0 = 0#32 ∧ (s.setX r v).x r = (if r = 0 then 0#32 else v) ∧ (s.setX r v).regs.get 0 = 0#32 ∧
    OnlyRegs [r] s (s.setX r v)

/-- LL sets the reservation, ERET clears it, and no other instruction changes it (R32). -/
def Obligations.OnlyLlAndEretTouchReservation : Prop :=
  ∀ (i : Instr) (s t : State), exec i s = .next t →
    (∃ rt off rs, i = .ll rt off rs ∧ t.llbit = true) ∨ (i = .eret ∧ t.llbit = false) ∨ t.llbit = s.llbit

/-- The multiply, divide and MTHI, MTLO instructions are the only ones that change HI or LO (R24). -/
def Obligations.OnlyMulDivTouchesHiLo : Prop :=
  ∀ (i : Instr) (s t : State), exec i s = .next t →
    (∃ rs rt, i = .mult rs rt ∨ i = .multu rs rt ∨ i = .div rs rt ∨ i = .divu rs rt) ∨
    (∃ rs, i = .mthi rs ∧ t.lo = s.lo) ∨ (∃ rs, i = .mtlo rs ∧ t.hi = s.hi) ∨ SameHiLo s t

/-- Coprocessor 0 changes only by MTC0, by taking an exception (where only EXL of `status` changes, and never `ebase` or IP[1:0]) and
by ERET, which clears EXL and changes nothing else of it (R33, R35, R39). -/
def Obligations.WhoWritesCop0 : Prop :=
  ∀ (i : Instr) (s t : State), exec i s = .next t →
    t.cop0 = s.cop0 ∨
    (∃ rt index, i = .mtc0 rt index ∧ index ∈ [12, 13, 14, 25] ∧ t.cop0.excCode = s.cop0.excCode ∧ t.cop0.bd = s.cop0.bd ∧
      (index = 12 → t.cop0 = { s.cop0 with status := s.x rt }) ∧
      (index = 13 → t.cop0 = { s.cop0 with ipsw := (s.x rt).extractLsb' 8 2 }) ∧
      (index = 14 → t.cop0 = { s.cop0 with epc := s.x rt }) ∧
      (index = 25 → t.cop0 = { s.cop0 with ebase := s.x rt })) ∨
    (∃ e, Entered e s t) ∨
    (i = .eret ∧ (∀ k, k ≠ 1 → t.cop0.status.getLsbD k = s.cop0.status.getLsbD k) ∧
      t.cop0.status.getLsbD 1 = false ∧ t.cop0.epc = s.cop0.epc ∧ t.cop0.ebase = s.cop0.ebase ∧
      t.cop0.excCode = s.cop0.excCode ∧ t.cop0.bd = s.cop0.bd ∧ t.cop0.ipsw = s.cop0.ipsw)

/-! ## Arithmetic, logic and compares (41_alu.md) -/

/-- ADD, SUB and ADDI: the exact signed result where 32 bits hold it, else the Overflow exception; with their words (R150, R152,
R160). -/
def Obligations.TrappingArithmetic : Prop :=
  ∀ (s : State) (rd rs rt : Reg) (imm : Imm),
    decode (0b000000#6 ++ regBits rs ++ regBits rt ++ regBits rd ++ 0b00000#5 ++ 0b100000#6) = .ok (.add rd rs rt) ∧
    decode (0b000000#6 ++ regBits rs ++ regBits rt ++ regBits rd ++ 0b00000#5 ++ 0b100010#6) = .ok (.sub rd rs rt) ∧
    decode (0b001000#6 ++ regBits rs ++ regBits rt ++ imm) = .ok (.addi rt rs imm) ∧
    SetsOrOverflows (.add rd rs rt) s rd ((s.x rs).toInt + (s.x rt).toInt) ∧
    SetsOrOverflows (.sub rd rs rt) s rd ((s.x rs).toInt - (s.x rt).toInt) ∧
    SetsOrOverflows (.addi rt rs imm) s rt ((s.x rs).toInt + imm.toInt)

/-- ADDU, SUBU and ADDIU: the result modulo 2^32, never an exception; with their words (R151, R153, R161). -/
def Obligations.WrappingArithmetic : Prop :=
  ∀ (s : State) (rd rs rt : Reg) (imm : Imm),
    decode (0b000000#6 ++ regBits rs ++ regBits rt ++ regBits rd ++ 0b00000#5 ++ 0b100001#6) = .ok (.addu rd rs rt) ∧
    decode (0b000000#6 ++ regBits rs ++ regBits rt ++ regBits rd ++ 0b00000#5 ++ 0b100011#6) = .ok (.subu rd rs rt) ∧
    decode (0b001001#6 ++ regBits rs ++ regBits rt ++ imm) = .ok (.addiu rt rs imm) ∧
    SetsReg (.addu rd rs rt) s rd (BitVec.ofInt 32 ((s.x rs).toInt + (s.x rt).toInt)) ∧
    SetsReg (.subu rd rs rt) s rd (BitVec.ofInt 32 ((s.x rs).toInt - (s.x rt).toInt)) ∧
    SetsReg (.addiu rt rs imm) s rt (BitVec.ofInt 32 ((s.x rs).toInt + imm.toInt))

/-- AND, OR, XOR, NOR, ANDI, ORI, XORI and LUI: bitwise on 32 bits, the immediate zero-extended; with their words (R154 to R157, R164
to R167). -/
def Obligations.LogicalInstructions : Prop :=
  ∀ (s : State) (rd rs rt : Reg) (imm : Imm),
    decode (0b000000#6 ++ regBits rs ++ regBits rt ++ regBits rd ++ 0b00000#5 ++ 0b100100#6) = .ok (.and rd rs rt) ∧
    decode (0b000000#6 ++ regBits rs ++ regBits rt ++ regBits rd ++ 0b00000#5 ++ 0b100101#6) = .ok (.or rd rs rt) ∧
    decode (0b000000#6 ++ regBits rs ++ regBits rt ++ regBits rd ++ 0b00000#5 ++ 0b100110#6) = .ok (.xor rd rs rt) ∧
    decode (0b000000#6 ++ regBits rs ++ regBits rt ++ regBits rd ++ 0b00000#5 ++ 0b100111#6) = .ok (.nor rd rs rt) ∧
    decode (0b001100#6 ++ regBits rs ++ regBits rt ++ imm) = .ok (.andi rt rs imm) ∧
    decode (0b001101#6 ++ regBits rs ++ regBits rt ++ imm) = .ok (.ori rt rs imm) ∧
    decode (0b001110#6 ++ regBits rs ++ regBits rt ++ imm) = .ok (.xori rt rs imm) ∧
    decode (0b001111#6 ++ 0b00000#5 ++ regBits rt ++ imm) = .ok (.lui rt imm) ∧
    SetsReg (.and rd rs rt) s rd (s.x rs &&& s.x rt) ∧
    SetsReg (.or rd rs rt) s rd (s.x rs ||| s.x rt) ∧
    SetsReg (.xor rd rs rt) s rd (s.x rs ^^^ s.x rt) ∧
    SetsReg (.nor rd rs rt) s rd (~~~(s.x rs ||| s.x rt)) ∧
    SetsReg (.andi rt rs imm) s rt (s.x rs &&& (0#16 ++ imm)) ∧
    SetsReg (.ori rt rs imm) s rt (s.x rs ||| (0#16 ++ imm)) ∧
    SetsReg (.xori rt rs imm) s rt (s.x rs ^^^ (0#16 ++ imm)) ∧
    SetsReg (.lui rt imm) s rt (imm ++ 0#16)

/-- SLT, SLTU, SLTI and SLTIU write 1 or 0, signed or unsigned; the immediate is sign-extended in both forms; with their words
(R158, R159, R162, R163). -/
def Obligations.CompareInstructions : Prop :=
  ∀ (s : State) (rd rs rt : Reg) (imm : Imm),
    decode (0b000000#6 ++ regBits rs ++ regBits rt ++ regBits rd ++ 0b00000#5 ++ 0b101010#6) = .ok (.slt rd rs rt) ∧
    decode (0b000000#6 ++ regBits rs ++ regBits rt ++ regBits rd ++ 0b00000#5 ++ 0b101011#6) = .ok (.sltu rd rs rt) ∧
    decode (0b001010#6 ++ regBits rs ++ regBits rt ++ imm) = .ok (.slti rt rs imm) ∧
    decode (0b001011#6 ++ regBits rs ++ regBits rt ++ imm) = .ok (.sltiu rt rs imm) ∧
    SetsReg (.slt rd rs rt) s rd (if (s.x rs).toInt < (s.x rt).toInt then 1#32 else 0#32) ∧
    SetsReg (.sltu rd rs rt) s rd (if (s.x rs).toNat < (s.x rt).toNat then 1#32 else 0#32) ∧
    SetsReg (.slti rt rs imm) s rt (if (s.x rs).toInt < imm.toInt then 1#32 else 0#32) ∧
    SetsReg (.sltiu rt rs imm) s rt (if (s.x rs).toNat < (imm.signExtend 32).toNat then 1#32 else 0#32)

/-- ADD and ADDI trap exactly when the operands have the same sign and the wrapped result the other; SUB exactly when they have
different signs and the wrapped result's sign is not the minuend's; otherwise each does what its wrapping twin does (R168, an
inference the spec marks as its own). -/
def Obligations.TrapsExactlyOnSignChange : Prop :=
  ∀ (s : State) (rd rs rt : Reg) (imm : Imm),
    (exec (.add rd rs rt) s =
      if (s.x rs).msb = (s.x rt).msb ∧ (s.x rs + s.x rt).msb ≠ (s.x rs).msb then raiseException .overflow s
      else exec (.addu rd rs rt) s) ∧
    (exec (.sub rd rs rt) s =
      if (s.x rs).msb ≠ (s.x rt).msb ∧ (s.x rs - s.x rt).msb ≠ (s.x rs).msb then raiseException .overflow s
      else exec (.subu rd rs rt) s) ∧
    (exec (.addi rt rs imm) s =
      if (s.x rs).msb = imm.msb ∧ (s.x rs + imm.signExtend 32).msb ≠ (s.x rs).msb then raiseException .overflow s
      else exec (.addiu rt rs imm) s)

/-! ## Shifts (42_shift.md) -/

/-- SLL, SRL and SRA by a constant 0..31; with their words, and the words of SRL's funct that are none (R180, R181, R182). -/
def Obligations.ConstantShifts : Prop :=
  ∀ (s : State) (rd rt : Reg) (shamt : BitVec 5),
    decode (0b000000#6 ++ 0b00000#5 ++ regBits rt ++ regBits rd ++ shamt ++ 0b000000#6) = .ok (.sll rd rt shamt.toNat) ∧
    decode (0b000000#6 ++ 0b00000#5 ++ regBits rt ++ regBits rd ++ shamt ++ 0b000010#6) = .ok (.srl rd rt shamt.toNat) ∧
    (∀ f : BitVec 5, f ≠ 0#5 →
      decode (0b000000#6 ++ f ++ regBits rt ++ regBits rd ++ shamt ++ 0b000010#6) = .error .mustBeZero) ∧
    decode (0b000000#6 ++ 0b00000#5 ++ regBits rt ++ regBits rd ++ shamt ++ 0b000011#6) = .ok (.sra rd rt shamt.toNat) ∧
    SetsReg (.sll rd rt shamt.toNat) s rd (BitVec.ofNat 32 ((s.x rt).toNat * 2 ^ shamt.toNat)) ∧
    SetsReg (.srl rd rt shamt.toNat) s rd (BitVec.ofNat 32 ((s.x rt).toNat / 2 ^ shamt.toNat)) ∧
    SetsReg (.sra rd rt shamt.toNat) s rd (BitVec.ofInt 32 ((s.x rt).toInt / 2 ^ shamt.toNat))

/-- SLLV, SRLV and SRAV by the low five bits of `x[rs]`; with their words (R183, R184, R185). -/
def Obligations.VariableShifts : Prop :=
  ∀ (s : State) (rd rt rs : Reg),
    decode (0b000000#6 ++ regBits rs ++ regBits rt ++ regBits rd ++ 0b00000#5 ++ 0b000100#6) = .ok (.sllv rd rt rs) ∧
    decode (0b000000#6 ++ regBits rs ++ regBits rt ++ regBits rd ++ 0b00000#5 ++ 0b000110#6) = .ok (.srlv rd rt rs) ∧
    decode (0b000000#6 ++ regBits rs ++ regBits rt ++ regBits rd ++ 0b00000#5 ++ 0b000111#6) = .ok (.srav rd rt rs) ∧
    (let n := ((s.x rs).extractLsb' 0 5).toNat
     SetsReg (.sllv rd rt rs) s rd (BitVec.ofNat 32 ((s.x rt).toNat * 2 ^ n)) ∧
     SetsReg (.srlv rd rt rs) s rd (BitVec.ofNat 32 ((s.x rt).toNat / 2 ^ n)) ∧
     SetsReg (.srav rd rt rs) s rd (BitVec.ofInt 32 ((s.x rt).toInt / 2 ^ n)))

/-! ## Multiply, divide, HI and LO (43_muldiv.md) -/

/-- MULT and MULTU: HI and LO hold the exact 64-bit product, signed or unsigned, and nothing else changes; with their words (R190,
R191). -/
def Obligations.MultiplyRule : Prop :=
  ∀ (s : State) (rs rt : Reg),
    decode (0b000000#6 ++ regBits rs ++ regBits rt ++ 0b00000#5 ++ 0b00000#5 ++ 0b011000#6) = .ok (.mult rs rt) ∧
    decode (0b000000#6 ++ regBits rs ++ regBits rt ++ 0b00000#5 ++ 0b00000#5 ++ 0b011001#6) = .ok (.multu rs rt) ∧
    (∃ hi lo, exec (.mult rs rt) s = .next { s with hi := hi, lo := lo } ∧
      (hi ++ lo : BitVec 64).toInt = (s.x rs).toInt * (s.x rt).toInt) ∧
    (∃ hi lo, exec (.multu rs rt) s = .next { s with hi := hi, lo := lo } ∧
      (hi ++ lo : BitVec 64).toNat = (s.x rs).toNat * (s.x rt).toNat)

/-- DIV: quotient truncated toward zero in LO, remainder with the dividend's sign and smaller than the divisor in HI; in the two open
corners it completes with LO and HI free, and nothing else but the model's draw counter changes; with its word (R192). -/
def Obligations.SignedDivideRule : Prop :=
  ∀ (s : State) (rs rt : Reg),
    decode (0b000000#6 ++ regBits rs ++ regBits rt ++ 0b00000#5 ++ 0b00000#5 ++ 0b011010#6) = .ok (.div rs rt) ∧
    (let n := (s.x rs).toInt
     let d := (s.x rt).toInt
     (d = 0 ∨ n = -2147483648 ∧ d = -1 →
       ∃ lo hi draws, exec (.div rs rt) s = .next { s with lo := lo, hi := hi, draws := draws }) ∧
     (¬(d = 0 ∨ n = -2147483648 ∧ d = -1) →
       ∃ lo hi, exec (.div rs rt) s = .next { s with lo := lo, hi := hi } ∧
         n = lo.toInt * d + hi.toInt ∧ |hi.toInt| < |d| ∧ (hi.toInt = 0 ∨ (hi.toInt < 0 ↔ n < 0))))

/-- DIVU: floor of the quotient in LO, remainder in HI; by zero it completes with LO and HI free; with its word (R193). -/
def Obligations.UnsignedDivideRule : Prop :=
  ∀ (s : State) (rs rt : Reg),
    decode (0b000000#6 ++ regBits rs ++ regBits rt ++ 0b00000#5 ++ 0b00000#5 ++ 0b011011#6) = .ok (.divu rs rt) ∧
    (let n := (s.x rs).toNat
     let d := (s.x rt).toNat
     (d = 0 → ∃ lo hi draws, exec (.divu rs rt) s = .next { s with lo := lo, hi := hi, draws := draws }) ∧
     (d ≠ 0 →
       ∃ lo hi, exec (.divu rs rt) s = .next { s with lo := lo, hi := hi } ∧
         n = lo.toNat * d + hi.toNat ∧ hi.toNat < d))

/-- MFHI and MFLO read, MTHI and MTLO write one register of the pair and leave the other; with their words (R194 to R197). -/
def Obligations.HiLoMoves : Prop :=
  ∀ (s : State) (rd rs : Reg),
    decode (0b000000#6 ++ 0b00000#5 ++ 0b00000#5 ++ regBits rd ++ 0b00000#5 ++ 0b010000#6) = .ok (.mfhi rd) ∧
    decode (0b000000#6 ++ regBits rs ++ 0b00000#5 ++ 0b00000#5 ++ 0b00000#5 ++ 0b010001#6) = .ok (.mthi rs) ∧
    decode (0b000000#6 ++ 0b00000#5 ++ 0b00000#5 ++ regBits rd ++ 0b00000#5 ++ 0b010010#6) = .ok (.mflo rd) ∧
    decode (0b000000#6 ++ regBits rs ++ 0b00000#5 ++ 0b00000#5 ++ 0b00000#5 ++ 0b010011#6) = .ok (.mtlo rs) ∧
    SetsReg (.mfhi rd) s rd s.hi ∧
    SetsReg (.mflo rd) s rd s.lo ∧
    exec (.mthi rs) s = .next { s with hi := s.x rs } ∧
    exec (.mtlo rs) s = .next { s with lo := s.x rs }

/-! ## Jumps and branches (44_branch_jump.md) -/

/-- J, JAL, JR and JALR act as one `doBranch` that is always taken: J and JR discard the link, JAL links register 31, JALR `rd`, its
target read before the link is written; with their words (R202 to R205). -/
def Obligations.JumpInstructions : Prop :=
  ∀ (s : State) (index : BitVec 26) (rd rs : Reg),
    decode (0b000010#6 ++ index) = .ok (.j index) ∧
    decode (0b000011#6 ++ index) = .ok (.jal index) ∧
    decode (0b000000#6 ++ regBits rs ++ 0b00000#5 ++ 0b00000#5 ++ 0b00000#5 ++ 0b001000#6) = .ok (.jr rs) ∧
    decode (0b000000#6 ++ regBits rs ++ 0b00000#5 ++ regBits rd ++ 0b00000#5 ++ 0b001001#6) = .ok (.jalr rd rs) ∧
    Branches (exec (.j index) s) s (s.pc.extractLsb' 28 4 ++ index ++ 0b00#2) true 0 false ∧
    Branches (exec (.jal index) s) s (s.pc.extractLsb' 28 4 ++ index ++ 0b00#2) true 31 false ∧
    Branches (exec (.jr rs) s) s (s.x rs) true 0 false ∧
    Branches (exec (.jalr rd rs) s) s (s.x rs) true rd false

/-- BEQ, BNE, BLEZ, BGTZ, BLTZ and BGEZ act as one `doBranch` to `pc + 4 * offset` on their condition, without link; with their words
(R206 to R211). -/
def Obligations.ConditionalBranches : Prop :=
  ∀ (s : State) (rs rt : Reg) (off : Imm),
    decode (0b000100#6 ++ regBits rs ++ regBits rt ++ off) = .ok (.beq rs rt off) ∧
    decode (0b000101#6 ++ regBits rs ++ regBits rt ++ off) = .ok (.bne rs rt off) ∧
    decode (0b000110#6 ++ regBits rs ++ 0b00000#5 ++ off) = .ok (.blez rs off) ∧
    decode (0b000111#6 ++ regBits rs ++ 0b00000#5 ++ off) = .ok (.bgtz rs off) ∧
    decode (0b000001#6 ++ regBits rs ++ 0b00000#5 ++ off) = .ok (.bltz rs off) ∧
    decode (0b000001#6 ++ regBits rs ++ 0b00001#5 ++ off) = .ok (.bgez rs off) ∧
    (let target := s.pc + BitVec.ofInt 32 (4 * off.toInt)
     Branches (exec (.beq rs rt off) s) s target (decide (s.x rs = s.x rt)) 0 false ∧
     Branches (exec (.bne rs rt off) s) s target (decide (s.x rs ≠ s.x rt)) 0 false ∧
     Branches (exec (.blez rs off) s) s target (decide ((s.x rs).toInt ≤ 0)) 0 false ∧
     Branches (exec (.bgtz rs off) s) s target (decide ((s.x rs).toInt > 0)) 0 false ∧
     Branches (exec (.bltz rs off) s) s target (decide ((s.x rs).toInt < 0)) 0 false ∧
     Branches (exec (.bgez rs off) s) s target (decide ((s.x rs).toInt ≥ 0)) 0 false)

/-- BLTZAL and BGEZAL link register 31 taken or not, testing the old value of `x[rs]`; with their words (R212, R213). -/
def Obligations.LinkingBranches : Prop :=
  ∀ (s : State) (rs : Reg) (off : Imm),
    decode (0b000001#6 ++ regBits rs ++ 0b10000#5 ++ off) = .ok (.bltzal rs off) ∧
    decode (0b000001#6 ++ regBits rs ++ 0b10001#5 ++ off) = .ok (.bgezal rs off) ∧
    (let target := s.pc + BitVec.ofInt 32 (4 * off.toInt)
     Branches (exec (.bltzal rs off) s) s target (decide ((s.x rs).toInt < 0)) 31 false ∧
     Branches (exec (.bgezal rs off) s) s target (decide ((s.x rs).toInt ≥ 0)) 31 false)

/-- BEQL, BNEL, BLEZL, BGTZL, BLTZL and BGEZL: as their plain forms, but not taken they skip their delay slot; with their words
(R214 to R219). -/
def Obligations.LikelyBranches : Prop :=
  ∀ (s : State) (rs rt : Reg) (off : Imm),
    decode (0b010100#6 ++ regBits rs ++ regBits rt ++ off) = .ok (.beql rs rt off) ∧
    decode (0b010101#6 ++ regBits rs ++ regBits rt ++ off) = .ok (.bnel rs rt off) ∧
    decode (0b010110#6 ++ regBits rs ++ 0b00000#5 ++ off) = .ok (.blezl rs off) ∧
    decode (0b010111#6 ++ regBits rs ++ 0b00000#5 ++ off) = .ok (.bgtzl rs off) ∧
    decode (0b000001#6 ++ regBits rs ++ 0b00010#5 ++ off) = .ok (.bltzl rs off) ∧
    decode (0b000001#6 ++ regBits rs ++ 0b00011#5 ++ off) = .ok (.bgezl rs off) ∧
    (let target := s.pc + BitVec.ofInt 32 (4 * off.toInt)
     Branches (exec (.beql rs rt off) s) s target (decide (s.x rs = s.x rt)) 0 true ∧
     Branches (exec (.bnel rs rt off) s) s target (decide (s.x rs ≠ s.x rt)) 0 true ∧
     Branches (exec (.blezl rs off) s) s target (decide ((s.x rs).toInt ≤ 0)) 0 true ∧
     Branches (exec (.bgtzl rs off) s) s target (decide ((s.x rs).toInt > 0)) 0 true ∧
     Branches (exec (.bltzl rs off) s) s target (decide ((s.x rs).toInt < 0)) 0 true ∧
     Branches (exec (.bgezl rs off) s) s target (decide ((s.x rs).toInt ≥ 0)) 0 true)

/-- BLTZALL and BGEZALL link register 31 even when they are not taken and skip their slot; with their words (R220, R221). -/
def Obligations.LikelyLinkingBranches : Prop :=
  ∀ (s : State) (rs : Reg) (off : Imm),
    decode (0b000001#6 ++ regBits rs ++ 0b10010#5 ++ off) = .ok (.bltzall rs off) ∧
    decode (0b000001#6 ++ regBits rs ++ 0b10011#5 ++ off) = .ok (.bgezall rs off) ∧
    (let target := s.pc + BitVec.ofInt 32 (4 * off.toInt)
     Branches (exec (.bltzall rs off) s) s target (decide ((s.x rs).toInt < 0)) 31 true ∧
     Branches (exec (.bgezall rs off) s) s target (decide ((s.x rs).toInt ≥ 0)) 31 true)

/-! ## Loads and stores (45_load_store.md) -/

/-- The effective address is the base register plus the signed offset, modulo 2^32; no access is made and no state changes (R230). -/
def Obligations.EffectiveAddressWraps : Prop :=
  ∀ (s : State) (rs : Reg) (off : Imm),
    ((s.ea rs off).toNat : Int) = ((s.x rs).toNat + off.toInt) % 4294967296

/-- LB, LBU, LH, LHU and LW read the bytes of memory at the effective address, the lowest least significant, and extend them; only
`x[rt]` changes; with their words (R232 to R236). The access is one the bus serves from memory. -/
def Obligations.LoadInstructions : Prop :=
  ∀ (s : State) (rt : Reg) (off : Imm) (rs : Reg),
    decode (0b100000#6 ++ regBits rs ++ regBits rt ++ off) = .ok (.lb rt off rs) ∧
    decode (0b100100#6 ++ regBits rs ++ regBits rt ++ off) = .ok (.lbu rt off rs) ∧
    decode (0b100001#6 ++ regBits rs ++ regBits rt ++ off) = .ok (.lh rt off rs) ∧
    decode (0b100101#6 ++ regBits rs ++ regBits rt ++ off) = .ok (.lhu rt off rs) ∧
    decode (0b100011#6 ++ regBits rs ++ regBits rt ++ off) = .ok (.lw rt off rs) ∧
    (let pa := s.physical (s.ea rs off)
     (Readable s (s.ea rs off) .one →
       SetsReg (.lb rt off rs) s rt ((s.byteAt pa).signExtend 32) ∧
       SetsReg (.lbu rt off rs) s rt (0#24 ++ s.byteAt pa)) ∧
     (Readable s (s.ea rs off) .two →
       SetsReg (.lh rt off rs) s rt ((s.half pa).signExtend 32) ∧
       SetsReg (.lhu rt off rs) s rt (0#16 ++ s.half pa)) ∧
     (Readable s (s.ea rs off) .four → SetsReg (.lw rt off rs) s rt (s.word pa)))

/-- LWL and LWR, byte by byte: with `M0..M3` the bytes of the aligned word and `V` the old register, the result for each position
of the effective address in the word; with their words (R237, R238). -/
def Obligations.LoadWordLeftAndRight : Prop :=
  ∀ (s : State) (rt : Reg) (off : Imm) (rs : Reg),
    decode (0b100010#6 ++ regBits rs ++ regBits rt ++ off) = .ok (.lwl rt off rs) ∧
    decode (0b100110#6 ++ regBits rs ++ regBits rt ++ off) = .ok (.lwr rt off rs) ∧
    (let ea := s.ea rs off
     let pa := s.physical (wordAddr ea)
     let M := fun k : Nat => s.byteAt (pa + k)
     let V := s.x rt
     Readable s (wordAddr ea) .four →
       (ea.toNat % 4 = 0 →
         SetsReg (.lwl rt off rs) s rt (M 0 ++ V.extractLsb' 0 24) ∧
         SetsReg (.lwr rt off rs) s rt (M 3 ++ M 2 ++ M 1 ++ M 0)) ∧
       (ea.toNat % 4 = 1 →
         SetsReg (.lwl rt off rs) s rt (M 1 ++ M 0 ++ V.extractLsb' 0 16) ∧
         SetsReg (.lwr rt off rs) s rt (V.extractLsb' 24 8 ++ M 3 ++ M 2 ++ M 1)) ∧
       (ea.toNat % 4 = 2 →
         SetsReg (.lwl rt off rs) s rt (M 2 ++ M 1 ++ M 0 ++ V.extractLsb' 0 8) ∧
         SetsReg (.lwr rt off rs) s rt (V.extractLsb' 16 16 ++ M 3 ++ M 2)) ∧
       (ea.toNat % 4 = 3 →
         SetsReg (.lwl rt off rs) s rt (M 3 ++ M 2 ++ M 1 ++ M 0) ∧
         SetsReg (.lwr rt off rs) s rt (V.extractLsb' 8 24 ++ M 3)))

/-- The pair LWR at `k`, LWL at `k + 3` completes and loads the word at any address, aligned or not, whatever the register held: the
four bytes from the effective address on, when both aligned words are readable and the mask keeps an aligned word together (R238).
The base is no destination of the pair, and the offset does not wrap. -/
def Obligations.UnalignedLoadPair : Prop :=
  ∀ (s : State) (rt rs : Reg) (off : Imm),
    rt ≠ 0 → rs ≠ rt → (off + 3).toInt = off.toInt + 3 → s.cfg.physMask &&& 3#32 = 3#32 →
    Readable s (wordAddr (s.ea rs off)) .four → Readable s (wordAddr (s.ea rs (off + 3))) .four →
    ∃ t u, exec (.lwr rt off rs) s = .next t ∧ exec (.lwl rt (off + 3) rs) t = .next u ∧
      u.x rt = s.byteAt (s.physical (s.ea rs off + 3)) ++ s.byteAt (s.physical (s.ea rs off + 2)) ++
        s.byteAt (s.physical (s.ea rs off + 1)) ++ s.byteAt (s.physical (s.ea rs off)) ∧
      OnlyRegs [rt] s u

/-- SB, SH and SW store the low bytes of `x[rt]` at the effective address, the lowest byte first, and change no other byte and no
register; with their words (R239, R240, R241). The access is one the bus performs in RAM. -/
def Obligations.StoreInstructions : Prop :=
  ∀ (s : State) (rt : Reg) (off : Imm) (rs : Reg),
    decode (0b101000#6 ++ regBits rs ++ regBits rt ++ off) = .ok (.sb rt off rs) ∧
    decode (0b101001#6 ++ regBits rs ++ regBits rt ++ off) = .ok (.sh rt off rs) ∧
    decode (0b101011#6 ++ regBits rs ++ regBits rt ++ off) = .ok (.sw rt off rs) ∧
    (let pa := s.physical (s.ea rs off)
     (Writable s (s.ea rs off) .one → ∃ t, exec (.sb rt off rs) s = .next t ∧ OnlyBytes pa 1 s t ∧
       t.byteAt pa = (s.x rt).extractLsb' 0 8) ∧
     (Writable s (s.ea rs off) .two → ∃ t, exec (.sh rt off rs) s = .next t ∧ OnlyBytes pa 2 s t ∧
       t.half pa = (s.x rt).extractLsb' 0 16) ∧
     (Writable s (s.ea rs off) .four → ∃ t, exec (.sw rt off rs) s = .next t ∧ OnlyBytes pa 4 s t ∧
       t.word pa = s.x rt))

/-- SWL and SWR, byte by byte: with `M0..M3` the old bytes of the aligned word and `V` the register, the new word for each position of
the effective address in the word; no other byte and no register changes; with their words (R242, R243). -/
def Obligations.StoreWordLeftAndRight : Prop :=
  ∀ (s : State) (rt : Reg) (off : Imm) (rs : Reg),
    decode (0b101010#6 ++ regBits rs ++ regBits rt ++ off) = .ok (.swl rt off rs) ∧
    decode (0b101110#6 ++ regBits rs ++ regBits rt ++ off) = .ok (.swr rt off rs) ∧
    (let ea := s.ea rs off
     let pa := s.physical (wordAddr ea)
     let M := fun k : Nat => s.byteAt (pa + k)
     let V := s.x rt
     Writable s (wordAddr ea) .four →
       ∃ t u, exec (.swl rt off rs) s = .next t ∧ exec (.swr rt off rs) s = .next u ∧
         OnlyBytes pa 4 s t ∧ OnlyBytes pa 4 s u ∧
         (ea.toNat % 4 = 0 → t.word pa = M 3 ++ M 2 ++ M 1 ++ V.extractLsb' 24 8 ∧ u.word pa = V) ∧
         (ea.toNat % 4 = 1 →
           t.word pa = M 3 ++ M 2 ++ V.extractLsb' 16 16 ∧ u.word pa = V.extractLsb' 0 24 ++ M 0) ∧
         (ea.toNat % 4 = 2 →
           t.word pa = M 3 ++ V.extractLsb' 8 24 ∧ u.word pa = V.extractLsb' 0 16 ++ M 1 ++ M 0) ∧
         (ea.toNat % 4 = 3 → t.word pa = V ∧ u.word pa = V.extractLsb' 0 8 ++ M 2 ++ M 1 ++ M 0))

/-- LL loads as LW does and sets the reservation; nothing else changes; with its word (R244). -/
def Obligations.LoadLinkedRule : Prop :=
  ∀ (s : State) (rt : Reg) (off : Imm) (rs : Reg),
    decode (0b110000#6 ++ regBits rs ++ regBits rt ++ off) = .ok (.ll rt off rs) ∧
    (Readable s (s.ea rs off) .four →
      ∃ t, exec (.ll rt off rs) s = .next t ∧ t.llbit = true ∧
        t.x rt = (if rt = 0 then 0#32 else s.word (s.physical (s.ea rs off))) ∧ OnlyRegs [rt] { s with llbit := true } t)

/-- SC stores the old `x[rt]` and then writes 1 when the reservation holds, and makes no access and writes 0 when it does not; the
reservation stays as it is; with its word (R245). -/
def Obligations.StoreConditionalRule : Prop :=
  ∀ (s : State) (rt : Reg) (off : Imm) (rs : Reg),
    decode (0b111000#6 ++ regBits rs ++ regBits rt ++ off) = .ok (.sc rt off rs) ∧
    (s.llbit = false → SetsReg (.sc rt off rs) s rt 0#32) ∧
    (s.llbit = true → Writable s (s.ea rs off) .four →
      ∃ t, exec (.sc rt off rs) s = .next t ∧ t.x rt = (if rt = 0 then 0#32 else 1#32) ∧
        t.word (s.physical (s.ea rs off)) = s.x rt ∧
        SameRegs [rt] s t ∧ SameHiLo s t ∧ SameFlow s t ∧ SameSystem s t ∧ SamePlatform s t ∧
        SameBytesOutside (s.physical (s.ea rs off)) 4 s t)

/-- The frame of every load and store in every form, an access to a device included. A load, LL or SC changes no general register but
`rt`, a store none. None changes HI, LO, the pc pair, the flags, coprocessor 0, the parameters, the clock or the handler registry; none
but LL the reservation; none a byte that RAM does not own (the table being well formed). Where no device answers, nothing outside the
CPU changes but the bytes stored to: those at the effective address, or the aligned word of SWL and SWR (R65, R67, R231, R355). -/
def Obligations.LoadStoreFrame : Prop :=
  ∀ (s t : State) (rt : Reg) (off : Imm) (rs : Reg) (i : Instr), exec i s = .next t →
    let loads := [Instr.lb rt off rs, .lbu rt off rs, .lh rt off rs, .lhu rt off rs, .lw rt off rs, .ll rt off rs]
    let mergingLoads := [Instr.lwl rt off rs, .lwr rt off rs]
    let stores := [(Instr.sb rt off rs, 1), (.sh rt off rs, 2), (.sw rt off rs, 4), (.sc rt off rs, 4)]
    let mergingStores := [Instr.swl rt off rs, .swr rt off rs]
    (i ∈ loads ++ mergingLoads ++ [.sc rt off rs] → SameRegs [rt] s t) ∧
    (i ∈ mergingStores ++ [.sb rt off rs, .sh rt off rs, .sw rt off rs] → SameRegs [] s t) ∧
    (i ∈ loads ++ mergingLoads ++ mergingStores ++ stores.map Prod.fst →
      SameCpu s t ∧ (i ≠ .ll rt off rs → t.llbit = s.llbit) ∧
      (s.cfg.wf = true → ∀ pa, (∀ r, s.regionOf pa = some r → r.owner ≠ .ram) → t.byteAt pa = s.byteAt pa)) ∧
    (i ∈ loads → NoDevice s (s.ea rs off) → SamePlatform s t ∧ SameBytes s t) ∧
    (i ∈ mergingLoads → NoDevice s (wordAddr (s.ea rs off)) → SamePlatform s t ∧ SameBytes s t) ∧
    (∀ n, (i, n) ∈ stores → NoDevice s (s.ea rs off) →
      SamePlatform s t ∧ SameBytesOutside (s.physical (s.ea rs off)) n s t) ∧
    (i ∈ mergingStores → NoDevice s (wordAddr (s.ea rs off)) →
      SamePlatform s t ∧ SameBytesOutside (s.physical (wordAddr (s.ea rs off))) 4 s t)

/-! ## The bus (20_memory.md) -/

/-- An address in no region stops the machine, for a fetch, a load and a store alike (R64). -/
def Obligations.UnownedAddressIsFatal : Prop :=
  ∀ (s : State) (a : Word) (w : Width) (v : Word), s.regionOf (s.physical a) = none →
    memRead s a w = .fault (.unhandledAccess (s.physical a) w false) ∧
    memWrite s a w v = .fault (.unhandledAccess (s.physical a) w true) ∧
    (∀ used, CpuTurn s used → s.isInterruptPending = false → s.halted = false → s.pc = a →
      step s = .fault (.unhandledAccess (s.physical a) .four false)) ∧
    (∀ (rt : Reg) (off : Imm) (rs : Reg), s.ea rs off = a →
      (∀ p ∈ [(Instr.lb rt off rs, Width.one), (.lbu rt off rs, .one), (.lh rt off rs, .two), (.lhu rt off rs, .two),
          (.lw rt off rs, .four), (.ll rt off rs, .four)],
        exec p.1 s = .fault (.unhandledAccess (s.physical a) p.2 false)) ∧
      (∀ p ∈ [(Instr.sb rt off rs, Width.one), (.sh rt off rs, .two), (.sw rt off rs, .four)],
        exec p.1 s = .fault (.unhandledAccess (s.physical a) p.2 true)) ∧
      (s.llbit = true → exec (.sc rt off rs) s = .fault (.unhandledAccess (s.physical a) .four true))) ∧
    (∀ (rt : Reg) (off : Imm) (rs : Reg), wordAddr (s.ea rs off) = a →
      ∀ i ∈ [Instr.lwl rt off rs, .lwr rt off rs, .swl rt off rs, .swr rt off rs],
        exec i s = .fault (.unhandledAccess (s.physical a) .four false))

/-- A write to ROM, and an access of RAM or ROM that starts inside its region and ends beyond it, stop the machine; under the `fatal`
policy so does a misaligned access of RAM or ROM (R65, R70). -/
def Obligations.RegionLimitsAreFatal : Prop :=
  ∀ (s : State) (a : Word) (w : Width) (v : Word) (r : Region), s.regionOf (s.physical a) = some r →
    (r.owner = .rom → memWrite s a w v = .fault (.unhandledAccess (s.physical a) w true)) ∧
    (r.owner = .ram ∨ r.owner = .rom → s.cfg.misaligned = .fatal → s.physical a % w.bytes ≠ 0 →
      memRead s a w = .fault (.misalignedDataAccess (s.physical a) w) ∧
      (r.owner = .ram → memWrite s a w v = .fault (.misalignedDataAccess (s.physical a) w))) ∧
    (r.owner = .ram ∨ r.owner = .rom → (s.cfg.misaligned = .byteAssemble ∨ s.physical a % w.bytes = 0) →
      r.base + r.size < s.physical a + w.bytes →
      memRead s a w = .fault (.unhandledAccess (s.physical a) w false) ∧
      (r.owner = .ram → memWrite s a w v = .fault (.unhandledAccess (s.physical a) w true)))

/-- Two addresses that differ only in bits PHYS_MASK clears are the same to every access (R62). -/
def Obligations.MaskedBitsAreIgnored : Prop :=
  ∀ (s : State) (a b : Word) (w : Width) (v : Word), a &&& s.cfg.physMask = b &&& s.cfg.physMask →
    memRead s a w = memRead s b w ∧ memWrite s a w v = memWrite s b w v

/-- RAM is one array of bytes: after a word is written, each byte, each half and the word are read back from it, and the next fetch
there gets the new word (R72 and R84, inferences the spec marks as its own). The region table is well formed (R63), the mask keeps the four bytes together, and the word is
aligned or the policy assembles bytes (R70). -/
def Obligations.MixedWidthsShareBytes : Prop :=
  ∀ (s t : State) (a v : Word), s.cfg.wf = true → Writable s a .four →
    (s.cfg.misaligned = .byteAssemble ∨ s.physical a % 4 = 0) →
    (∀ k < 4, s.physical (a + BitVec.ofNat 32 k) = s.physical a + k) → memWrite s a .four v = .next t →
    memRead t a .one = .next (0#24 ++ v.extractLsb' 0 8, t) ∧
    memRead t (a + 1) .one = .next (0#24 ++ v.extractLsb' 8 8, t) ∧
    memRead t (a + 2) .one = .next (0#24 ++ v.extractLsb' 16 8, t) ∧
    memRead t (a + 3) .one = .next (0#24 ++ v.extractLsb' 24 8, t) ∧
    memRead t a .two = .next (0#16 ++ v.extractLsb' 0 16, t) ∧
    memRead t (a + 2) .two = .next (0#16 ++ v.extractLsb' 16 16, t) ∧
    (t.pc = a → fetch t = .next (v, t))

/-- An access to a peripheral's window is forwarded to the device with the masked address, the width and, for a write, the value's low
bytes; what the device answers is what the instruction does: every load and store form, the fetch, and LWL, LWR, SWL, SWR with their one
aligned read and the stores' one aligned write. Alignment is not checked. The reply's effects happen in order before the instruction
ends; a device that does not recognise the register stops the machine (R66, R67, R69, R86, R242, R351 to R354, U21). What a device answers
is the next reply of the model's script or else the drawn one for this very call, and a write outside the RAM array is refused
(assumption log 6). -/
def Obligations.DeviceWindowsForward : Prop :=
  ∀ (s : State) (rt : Reg) (off : Imm) (rs : Reg) (d : Nat) (v : Word) (q : Res State),
    (∀ (r : Region) (w : Width), r.owner = .device (.peripheral d) →
      (s.regionOf (s.physical (s.ea rs off)) = some r →
        (Answers s d (.read (s.physical (s.ea rs off)) w) v q → LoadsDo s rt off rs w v q) ∧
        (Answers s d (.write (s.physical (s.ea rs off)) w (truncate w (s.x rt))) v q → StoresDo s rt off rs w q)) ∧
      (s.regionOf (s.physical (wordAddr (s.ea rs off))) = some r →
        Answers s d (.read (s.physical (wordAddr (s.ea rs off))) .four) v q →
        MergesDo s rt off rs v q fun u value p =>
          ∃ x, Answers u d (.write (s.physical (wordAddr (s.ea rs off))) .four value) x p) ∧
      (s.regionOf (s.physical s.pc) = some r → ∀ u, Answers s d (.read (s.physical s.pc) .four) v (.next u) →
        fetch s = .next (v, u))) ∧
    applyEffects d [] s = .next s ∧
    (∀ e es u, applyEffects d [e] s = .next u → applyEffects d (e :: es) s = applyEffects d es u) ∧
    (∀ n, applyEffects d [.raise n] s = intcRaise n s ∧ applyEffects d [.clear n] s = intcClear n s) ∧
    (∀ h p delay, applyEffects d [.addEvent h p delay] s = addEvent h p delay s) ∧
    (∀ (r : Region) (k : Nat) (b : Byte), s.ramRegion = some r →
      (k < r.size → ∃ t, applyEffects d [.writeRam k b] s = .next t ∧ t.byteAt (r.base + k) = b ∧
        OnlyBytes (r.base + k) 1 s t) ∧
      (r.size ≤ k → applyEffects d [.writeRam k b] s = .refused (.deviceBreaksContract d)))

/-! ## Exceptions and coprocessor 0 (46_system_cop0.md, 60_exceptions.md) -/

/-- Exception entry: the six steps, whole, for each cause; a vector that is zero or misaligned is fatal (R320). -/
def Obligations.ExceptionEntryRule : Prop :=
  ∀ (s : State) (e : Exc),
    (ValidTarget (s.vector e) → ∃ t, raiseException e s = .next t ∧ Entered e s t) ∧
    (s.vector e = 0#32 → raiseException e s = .fault (.jumpToZero 0#32)) ∧
    ((s.vector e).toNat % 4 ≠ 0 → raiseException e s = .fault (.misalignedJumpTarget (s.vector e)))

/-- SYSCALL and BREAK take the Syscall (8) and Breakpoint (9) exceptions whatever their code field, with `epc` the next instruction's
address and BD 0 when EXL was 0 and no branch is pending; with their words (R260, R261, R322). -/
def Obligations.SyscallAndBreak : Prop :=
  ∀ (s : State) (code : BitVec 20),
    decode (0b000000#6 ++ code ++ 0b001100#6) = .ok (.syscall code) ∧
    decode (0b000000#6 ++ code ++ 0b001101#6) = .ok (.brk code) ∧
    (ValidTarget (s.vector .syscall) →
      ∃ t, exec (.syscall code) s = .next t ∧ Entered .syscall s t ∧ t.cop0.excCode = 8#5 ∧
        (s.cop0.status.getLsbD 1 = false → s.dsNext = false → t.cop0.epc = s.pc ∧ t.cop0.bd = false)) ∧
    (ValidTarget (s.vector .breakpoint) →
      ∃ t, exec (.brk code) s = .next t ∧ Entered .breakpoint s t ∧ t.cop0.excCode = 9#5 ∧
        (s.cop0.status.getLsbD 1 = false → s.dsNext = false → t.cop0.epc = s.pc ∧ t.cop0.bd = false)) ∧
    (¬ValidTarget (s.vector .syscall) → ∃ f, exec (.syscall code) s = .fault f) ∧
    (¬ValidTarget (s.vector .breakpoint) → ∃ f, exec (.brk code) s = .fault f)

/-- SYNC changes no state, whatever its stype; with its word (R262). -/
def Obligations.SyncDoesNothing : Prop :=
  ∀ (s : State) (stype : BitVec 5),
    decode (0b000000#6 ++ 0b00000#5 ++ 0b00000#5 ++ 0b00000#5 ++ stype ++ 0b001111#6) = .ok (.sync stype) ∧
    exec (.sync stype) s = .next s

/-- MFC0 and MTC0 reach `status`, `cause`, `epc` and `ebase` by index 12, 13, 14 and 25, with the live IP bits in `cause` and only
IP[1:0] written there; every other index is fatal; with their words (R263, R264, R305, R306). -/
def Obligations.ControlRegisterMoves : Prop :=
  ∀ (s : State) (rt rd : Reg),
    decode (0b010000#6 ++ 0b00000#5 ++ regBits rt ++ regBits rd ++ 0b00000000000#11) = .ok (.mfc0 rt rd.val) ∧
    decode (0b010000#6 ++ 0b00100#5 ++ regBits rt ++ regBits rd ++ 0b00000000000#11) = .ok (.mtc0 rt rd.val) ∧
    SetsReg (.mfc0 rt 12) s rt s.cop0.status ∧
    SetsReg (.mfc0 rt 13) s rt
      ((if s.cop0.bd then 1#1 else 0#1) ++ 0#15 ++ s.causeIP ++ 0#1 ++ s.cop0.excCode ++ 0#2) ∧
    SetsReg (.mfc0 rt 14) s rt s.cop0.epc ∧
    SetsReg (.mfc0 rt 25) s rt s.cop0.ebase ∧
    exec (.mtc0 rt 12) s = .next { s with cop0 := { s.cop0 with status := s.x rt } } ∧
    exec (.mtc0 rt 13) s = .next { s with cop0 := { s.cop0 with ipsw := (s.x rt).extractLsb' 8 2 } } ∧
    exec (.mtc0 rt 14) s = .next { s with cop0 := { s.cop0 with epc := s.x rt } } ∧
    exec (.mtc0 rt 25) s = .next { s with cop0 := { s.cop0 with ebase := s.x rt } } ∧
    (∀ index, index ∉ [12, 13, 14, 25] →
      exec (.mfc0 rt index) s = .fault (.unmappedCop0Index index) ∧
      exec (.mtc0 rt index) s = .fault (.unmappedCop0Index index))

/-- ERET clears the reservation and EXL and goes to `epc`, changing nothing else and not looking at EXL; with ERL set, or with an
`epc` that is zero or misaligned, it is fatal; with its word (R265, R325, R326). -/
def Obligations.EretRule : Prop :=
  ∀ s : State,
    decode 0b01000010000000000000000000011000#32 = .ok .eret ∧
    (s.cop0.status.getLsbD 2 = true → exec .eret s = .fault .eretWithERL) ∧
    (s.cop0.status.getLsbD 2 = false → s.cop0.epc = 0#32 → exec .eret s = .fault (.jumpToZero 0#32)) ∧
    (s.cop0.status.getLsbD 2 = false → s.cop0.epc.toNat % 4 ≠ 0 →
      exec .eret s = .fault (.misalignedJumpTarget s.cop0.epc)) ∧
    (s.cop0.status.getLsbD 2 = false → ValidTarget s.cop0.epc →
      exec .eret s = .next { s with
        llbit := false
        cop0 := { s.cop0 with status := s.cop0.status &&& ~~~2#32 }
        pc := s.cop0.epc
        npc := s.cop0.epc + 4 })

/-- An interrupt is deliverable exactly when IE is 1, EXL and ERL are 0, and some bit of IM meets the same bit of IP: a software bit
that is set, or the line INTC_IP_LINE while some bank has a pending source its mask lets through (R311, R334, R37). -/
def Obligations.DeliverableCondition : Prop :=
  ∀ s : State, s.isInterruptPending = true ↔
    s.cop0.status.getLsbD 0 = true ∧ s.cop0.status.getLsbD 1 = false ∧ s.cop0.status.getLsbD 2 = false ∧
    ∃ k < 8, s.cop0.status.getLsbD (8 + k) = true ∧
      (s.cop0.ipsw.getLsbD k = true ∨
        k = s.cfg.ipLine ∧ ∃ b ∈ s.intc, ∃ n < 32, b.pending.getLsbD n = true ∧ b.mask.getLsbD n = true)

/-- `raise` sets and `clear` clears the one pending bit of a source, and changes nothing else; `setMask` and `setPending` write a whole
word of one bank, the other operations read one; a bank or source out of range is fatal (R330 to R333, D20; that the fault names the bank
or source in the address's place is the model's, assumption log 13). In the controller's own window every load, store and merging form
reads or overwrites the word its port reaches, and an address and width without a port is fatal (R333, R351, R362; the table of ports, and
that a narrow write is zero-extended, are the model's choice, assumption log 9). -/
def Obligations.ControllerOperations : Prop :=
  ∀ (s : State) (source bank : Nat) (v : Word),
    (source / 32 < s.intc.length → ∃ b p q, s.intc[source / 32]? = some b ∧
      intcRaise source s = .next { s with intc := s.intc.set (source / 32) { b with pending := p } } ∧
      intcClear source s = .next { s with intc := s.intc.set (source / 32) { b with pending := q } } ∧
      ∀ n < 32, p.getLsbD n = (if n = source % 32 then true else b.pending.getLsbD n) ∧
        q.getLsbD n = (if n = source % 32 then false else b.pending.getLsbD n)) ∧
    (s.intc.length ≤ source / 32 → intcRaise source s = .fault (.unhandledRegister .intc (.source source)) ∧
      intcClear source s = .fault (.unhandledRegister .intc (.source source))) ∧
    (bank < s.intc.length → ∃ b, s.intc[bank]? = some b ∧
      intcSetMask bank v s = .next { s with intc := s.intc.set bank { b with mask := v } } ∧
      intcSetPending bank v s = .next { s with intc := s.intc.set bank { b with pending := v } } ∧
      intcGetMask bank s = .next b.mask ∧ intcGetPending bank s = .next b.pending) ∧
    (s.intc.length ≤ bank → intcSetMask bank v s = .fault (.unhandledRegister .intc (.bank bank)) ∧
      intcSetPending bank v s = .fault (.unhandledRegister .intc (.bank bank)) ∧
      intcGetMask bank s = .fault (.unhandledRegister .intc (.bank bank)) ∧
      intcGetPending bank s = .fault (.unhandledRegister .intc (.bank bank))) ∧
    (∀ (rt : Reg) (off : Imm) (rs : Reg) (w : Width) (r : Region),
      s.regionOf (s.physical (s.ea rs off)) = some r → r.owner = .device .intc →
      (∀ p b, s.intcPort (s.physical (s.ea rs off)) w = some p → s.intc[p.bank]? = some b →
        LoadsDo s rt off rs w (p.reg.of b) (.next s) ∧
        StoresDo s rt off rs w (.next { s with intc := s.intc.set p.bank (p.reg.put b (truncate w (s.x rt))) })) ∧
      (∀ p, s.intcPort (s.physical (s.ea rs off)) w = some p → s.intc[p.bank]? = none →
        LoadsDo s rt off rs w v (.fault (.unhandledRegister .intc (.bank p.bank))) ∧
        StoresDo s rt off rs w (.fault (.unhandledRegister .intc (.bank p.bank)))) ∧
      (s.intcPort (s.physical (s.ea rs off)) w = none →
        LoadsDo s rt off rs w v (.fault (.unhandledRegister .intc (.address (s.physical (s.ea rs off))))) ∧
        StoresDo s rt off rs w (.fault (.unhandledRegister .intc (.address (s.physical (s.ea rs off))))))) ∧
    (∀ (rt : Reg) (off : Imm) (rs : Reg) (r : Region) (write : State → Word → Res State → Prop),
      s.regionOf (s.physical (wordAddr (s.ea rs off))) = some r → r.owner = .device .intc →
      (∀ p b, s.intcPort (s.physical (wordAddr (s.ea rs off))) .four = some p → s.intc[p.bank]? = some b →
        MergesDo s rt off rs (p.reg.of b) (.next s) fun u value q =>
          q = .next { u with intc := u.intc.set p.bank (p.reg.put b value) }) ∧
      (∀ p, s.intcPort (s.physical (wordAddr (s.ea rs off))) .four = some p → s.intc[p.bank]? = none →
        MergesDo s rt off rs v (.fault (.unhandledRegister .intc (.bank p.bank))) write) ∧
      (s.intcPort (s.physical (wordAddr (s.ea rs off))) .four = none →
        MergesDo s rt off rs v
          (.fault (.unhandledRegister .intc (.address (s.physical (wordAddr (s.ea rs off)))))) write))

/-! ## The scheduler (60_exceptions.md) -/

/-- `addEvent` puts the new event, due `delay` cycles from now, into the queue in its place: behind every event due no later, before
every event due later, losing none; it fails on a delay of zero or less and on an unknown handler (R342,
R45, R345). That the queue is a list in the order of R45, in which the event has its place, is the model's (assumption log 16). -/
def Obligations.AddEventKeepsOrder : Prop :=
  ∀ (s : State) (h : Nat) (p : Param) (d : Int), s.sched.Ok →
    (d ≤ 0 → addEvent h p d s = .fault (.nonPositiveDelay h d)) ∧
    (0 < d → s.sched.handlers.length ≤ h → addEvent h p d s = .fault (.invalidHandlerId h)) ∧
    (0 < d → h < s.sched.handlers.length →
      ∃ early late, s.sched.queue = early ++ late ∧
        (∀ e ∈ early, (e.due : Int) ≤ s.sched.now + d) ∧ (∀ e ∈ late, (s.sched.now : Int) + d < e.due) ∧
        addEvent h p d s = .next { s with sched := { s.sched with
          queue := early ++ [⟨h, p, s.sched.now + d.toNat, s.sched.nextSeq⟩] ++ late
          nextSeq := s.sched.nextSeq + 1 } })

/-- The scheduler's turn, action by action: at the end of a quantum an empty queue is fatal, and else a run begins with its horizon
RUN_QUANTUM from now; an event due by the horizon is removed, sets the clock to its due time and calls its handler's peripheral with the
handler id and the parameter, whose reply's effects are performed in order; with none due the clock takes the horizon and a new quantum
begins (R138, R344, R354). That each action is one step is the model's (assumption log 7), and so are the form of a peripheral's answer
(log 6), the registry of peripheral numbers (log 11) and the stop on an unknown handler (log 14). -/
def Obligations.SchedulerRunActions : Prop :=
  ∀ s : State,
    (∀ used, s.phase = .cpu used → s.cfg.runQuantum ≤ used →
      (s.sched.queue = [] → step s = .fault .emptyQueueAtRun) ∧
      (s.sched.queue ≠ [] → step s = .next { s with phase := .draining (s.sched.now + s.cfg.runQuantum) })) ∧
    (∀ horizon, s.phase = .draining horizon →
      (∀ e rest, s.sched.queue = e :: rest → e.due ≤ horizon →
        let popped : State := { s with sched := { s.sched with queue := rest, now := e.due } }
        (∀ d v q, s.sched.handlers[e.handler]? = some d → Answers popped d (.callback e.handler e.param) v q → step s = q) ∧
        (s.sched.handlers[e.handler]? = none → step s = .fault (.invalidHandlerId e.handler))) ∧
      ((∀ e ∈ s.sched.queue.head?, horizon < e.due) →
        step s = .next { s with sched := { s.sched with now := horizon }, phase := .cpu 0 }))

/-! ## Reset (10_state.md, 70_reset_and_hazards.md) -/

/-- What reset leaves where the spec gives a value, for every choice of the parameters: at the first state (R400), whose ROM holds
ROM_IMAGE (R50, R68; what the configuration gives no byte of is open, assumption log 4), and after a reset of a running machine, which is
the model's own reading (assumption log 17: R400 performs reset once, before the run); with a RESET_PC of zero or no multiple of 4 the
reset itself is fatal. What a reset leaves in the registers the spec calls unspecified is not stated. -/
def Obligations.ResetValues : Prop :=
  ∀ (c : Config) (s t : State), s.cfg = c →
    (¬ValidTarget c.resetPc → ∃ f, hostReset s = .fault f) ∧
    (ValidTarget c.resetPc → (t = State.resetFor c ∨ hostReset s = .next t) →
      t.x 0 = 0#32 ∧ t.regs.get 0 = 0#32 ∧ t.pc = c.resetPc ∧ t.npc = c.resetPc + 4 ∧ t.dsCur = false ∧
      t.dsNext = false ∧ t.halted = false ∧ t.llbit = false ∧ t.cop0.status = c.resetStatus ∧ t.cop0.excCode = 0#5 ∧
      t.cop0.ipsw = 0#2 ∧ t.cop0.bd = false ∧ t.cop0.ebase = c.resetEbase ∧
      t.intc = List.replicate c.nBanks ⟨0#32, 0#32⟩ ∧ t.sched.now = 0 ∧ t.sched.queue = [] ∧ t.sched.nextSeq = 0 ∧
      (∃ u, hostReset s = .next u)) ∧
    (c.wf = true → ∀ r ∈ c.regions, r.owner = .rom → ∀ k < r.size,
      (State.resetFor c).byteAt (r.base + k) = (c.romImage[k]?).getD (Config.openRom k))
end

