-- ==== Sys2Proof/Laws/State.lean ====
section
/-! SUPPORT. One lemma per field and update of State, true by rfl (by cases on the phase for `charge`), and the laws of the general
registers (10_state.md R21, R22). -/

namespace Sys2Proof.Machine

/-! ## setX -/

section

variable (s : State) (r : Reg) (v : Word)

@[simp] theorem setX_cfg : (s.setX r v).cfg = s.cfg := rfl
@[simp] theorem setX_regs : (s.setX r v).regs = (s.regs.set r.val v r.isLt).set 0 0#32 := rfl
@[simp] theorem setX_lo : (s.setX r v).lo = s.lo := rfl
@[simp] theorem setX_hi : (s.setX r v).hi = s.hi := rfl
@[simp] theorem setX_pc : (s.setX r v).pc = s.pc := rfl
@[simp] theorem setX_npc : (s.setX r v).npc = s.npc := rfl
@[simp] theorem setX_dsCur : (s.setX r v).dsCur = s.dsCur := rfl
@[simp] theorem setX_dsNext : (s.setX r v).dsNext = s.dsNext := rfl
@[simp] theorem setX_halted : (s.setX r v).halted = s.halted := rfl
@[simp] theorem setX_llbit : (s.setX r v).llbit = s.llbit := rfl
@[simp] theorem setX_cop0 : (s.setX r v).cop0 = s.cop0 := rfl
@[simp] theorem setX_intc : (s.setX r v).intc = s.intc := rfl
@[simp] theorem setX_sched : (s.setX r v).sched = s.sched := rfl
@[simp] theorem setX_mem : (s.setX r v).mem = s.mem := rfl
@[simp] theorem setX_phase : (s.setX r v).phase = s.phase := rfl
@[simp] theorem setX_replies : (s.setX r v).replies = s.replies := rfl
@[simp] theorem setX_draws : (s.setX r v).draws = s.draws := rfl

end

/-! ## advance -/

section

variable (s : State)

@[simp] theorem advance_cfg : (s.advance).cfg = s.cfg := rfl
@[simp] theorem advance_regs : (s.advance).regs = s.regs := rfl
@[simp] theorem advance_lo : (s.advance).lo = s.lo := rfl
@[simp] theorem advance_hi : (s.advance).hi = s.hi := rfl
@[simp] theorem advance_pc : (s.advance).pc = s.npc := rfl
@[simp] theorem advance_npc : (s.advance).npc = s.npc + 4 := rfl
@[simp] theorem advance_dsCur : (s.advance).dsCur = s.dsNext := rfl
@[simp] theorem advance_dsNext : (s.advance).dsNext = false := rfl
@[simp] theorem advance_halted : (s.advance).halted = s.halted := rfl
@[simp] theorem advance_llbit : (s.advance).llbit = s.llbit := rfl
@[simp] theorem advance_cop0 : (s.advance).cop0 = s.cop0 := rfl
@[simp] theorem advance_intc : (s.advance).intc = s.intc := rfl
@[simp] theorem advance_sched : (s.advance).sched = s.sched := rfl
@[simp] theorem advance_mem : (s.advance).mem = s.mem := rfl
@[simp] theorem advance_phase : (s.advance).phase = s.phase := rfl
@[simp] theorem advance_replies : (s.advance).replies = s.replies := rfl
@[simp] theorem advance_draws : (s.advance).draws = s.draws := rfl

end

/-! ## writeProduct -/

section

variable (s : State) (p : BitVec 64)

@[simp] theorem writeProduct_cfg : (writeProduct p s).cfg = s.cfg := rfl
@[simp] theorem writeProduct_regs : (writeProduct p s).regs = s.regs := rfl
@[simp] theorem writeProduct_lo : (writeProduct p s).lo = p.extractLsb' 0 32 := rfl
@[simp] theorem writeProduct_hi : (writeProduct p s).hi = p.extractLsb' 32 32 := rfl
@[simp] theorem writeProduct_pc : (writeProduct p s).pc = s.pc := rfl
@[simp] theorem writeProduct_npc : (writeProduct p s).npc = s.npc := rfl
@[simp] theorem writeProduct_dsCur : (writeProduct p s).dsCur = s.dsCur := rfl
@[simp] theorem writeProduct_dsNext : (writeProduct p s).dsNext = s.dsNext := rfl
@[simp] theorem writeProduct_halted : (writeProduct p s).halted = s.halted := rfl
@[simp] theorem writeProduct_llbit : (writeProduct p s).llbit = s.llbit := rfl
@[simp] theorem writeProduct_cop0 : (writeProduct p s).cop0 = s.cop0 := rfl
@[simp] theorem writeProduct_intc : (writeProduct p s).intc = s.intc := rfl
@[simp] theorem writeProduct_sched : (writeProduct p s).sched = s.sched := rfl
@[simp] theorem writeProduct_mem : (writeProduct p s).mem = s.mem := rfl
@[simp] theorem writeProduct_phase : (writeProduct p s).phase = s.phase := rfl
@[simp] theorem writeProduct_replies : (writeProduct p s).replies = s.replies := rfl
@[simp] theorem writeProduct_draws : (writeProduct p s).draws = s.draws := rfl

end

/-! ## drawQuotient -/

section

variable (s : State) (op : DivOp) (n d : Word)

@[simp] theorem drawQuotient_cfg : (drawQuotient op n d s).cfg = s.cfg := rfl
@[simp] theorem drawQuotient_regs : (drawQuotient op n d s).regs = s.regs := rfl
@[simp] theorem drawQuotient_lo : (drawQuotient op n d s).lo = (Config.divCorner s.draws op n d).1 := rfl
@[simp] theorem drawQuotient_hi : (drawQuotient op n d s).hi = (Config.divCorner s.draws op n d).2 := rfl
@[simp] theorem drawQuotient_pc : (drawQuotient op n d s).pc = s.pc := rfl
@[simp] theorem drawQuotient_npc : (drawQuotient op n d s).npc = s.npc := rfl
@[simp] theorem drawQuotient_dsCur : (drawQuotient op n d s).dsCur = s.dsCur := rfl
@[simp] theorem drawQuotient_dsNext : (drawQuotient op n d s).dsNext = s.dsNext := rfl
@[simp] theorem drawQuotient_halted : (drawQuotient op n d s).halted = s.halted := rfl
@[simp] theorem drawQuotient_llbit : (drawQuotient op n d s).llbit = s.llbit := rfl
@[simp] theorem drawQuotient_cop0 : (drawQuotient op n d s).cop0 = s.cop0 := rfl
@[simp] theorem drawQuotient_intc : (drawQuotient op n d s).intc = s.intc := rfl
@[simp] theorem drawQuotient_sched : (drawQuotient op n d s).sched = s.sched := rfl
@[simp] theorem drawQuotient_mem : (drawQuotient op n d s).mem = s.mem := rfl
@[simp] theorem drawQuotient_phase : (drawQuotient op n d s).phase = s.phase := rfl
@[simp] theorem drawQuotient_replies : (drawQuotient op n d s).replies = s.replies := rfl
@[simp] theorem drawQuotient_draws : (drawQuotient op n d s).draws = s.draws + 1 := rfl

end

/-! ## finishRun -/

section

variable (s : State) (h : Nat)

@[simp] theorem finishRun_cfg : (finishRun h s).cfg = s.cfg := rfl
@[simp] theorem finishRun_regs : (finishRun h s).regs = s.regs := rfl
@[simp] theorem finishRun_lo : (finishRun h s).lo = s.lo := rfl
@[simp] theorem finishRun_hi : (finishRun h s).hi = s.hi := rfl
@[simp] theorem finishRun_pc : (finishRun h s).pc = s.pc := rfl
@[simp] theorem finishRun_npc : (finishRun h s).npc = s.npc := rfl
@[simp] theorem finishRun_dsCur : (finishRun h s).dsCur = s.dsCur := rfl
@[simp] theorem finishRun_dsNext : (finishRun h s).dsNext = s.dsNext := rfl
@[simp] theorem finishRun_halted : (finishRun h s).halted = s.halted := rfl
@[simp] theorem finishRun_llbit : (finishRun h s).llbit = s.llbit := rfl
@[simp] theorem finishRun_cop0 : (finishRun h s).cop0 = s.cop0 := rfl
@[simp] theorem finishRun_intc : (finishRun h s).intc = s.intc := rfl
@[simp] theorem finishRun_sched : (finishRun h s).sched = { s.sched with now := h } := rfl
@[simp] theorem finishRun_mem : (finishRun h s).mem = s.mem := rfl
@[simp] theorem finishRun_phase : (finishRun h s).phase = .cpu 0 := rfl
@[simp] theorem finishRun_replies : (finishRun h s).replies = s.replies := rfl
@[simp] theorem finishRun_draws : (finishRun h s).draws = s.draws := rfl

end

/-! ## placeWord -/

section

variable (s : State) (w : Word)

@[simp] theorem placeWord_cfg : (s.placeWord w).cfg = s.cfg := rfl
@[simp] theorem placeWord_regs : (s.placeWord w).regs = s.regs := rfl
@[simp] theorem placeWord_lo : (s.placeWord w).lo = s.lo := rfl
@[simp] theorem placeWord_hi : (s.placeWord w).hi = s.hi := rfl
@[simp] theorem placeWord_pc : (s.placeWord w).pc = s.pc := rfl
@[simp] theorem placeWord_npc : (s.placeWord w).npc = s.npc := rfl
@[simp] theorem placeWord_dsCur : (s.placeWord w).dsCur = s.dsCur := rfl
@[simp] theorem placeWord_dsNext : (s.placeWord w).dsNext = s.dsNext := rfl
@[simp] theorem placeWord_halted : (s.placeWord w).halted = false := rfl
@[simp] theorem placeWord_llbit : (s.placeWord w).llbit = s.llbit := rfl
@[simp] theorem placeWord_cop0 : (s.placeWord w).cop0 = s.cop0 := rfl
@[simp] theorem placeWord_intc : (s.placeWord w).intc = s.intc := rfl
@[simp] theorem placeWord_sched : (s.placeWord w).sched = s.sched := rfl
@[simp] theorem placeWord_mem : (s.placeWord w).mem = Memory.storeBytes s.mem (s.physical s.fetchAddress) w 4 := rfl
@[simp] theorem placeWord_phase : (s.placeWord w).phase = .cpu 0 := rfl
@[simp] theorem placeWord_replies : (s.placeWord w).replies = s.replies := rfl
@[simp] theorem placeWord_draws : (s.placeWord w).draws = s.draws := rfl

end

/-! ## charge -/

@[simp] theorem charge_cfg (s : State) (n : Nat) : (s.charge n).cfg = s.cfg := by
  unfold State.charge; split <;> rfl
@[simp] theorem charge_regs (s : State) (n : Nat) : (s.charge n).regs = s.regs := by
  unfold State.charge; split <;> rfl
@[simp] theorem charge_lo (s : State) (n : Nat) : (s.charge n).lo = s.lo := by
  unfold State.charge; split <;> rfl
@[simp] theorem charge_hi (s : State) (n : Nat) : (s.charge n).hi = s.hi := by
  unfold State.charge; split <;> rfl
@[simp] theorem charge_pc (s : State) (n : Nat) : (s.charge n).pc = s.pc := by
  unfold State.charge; split <;> rfl
@[simp] theorem charge_npc (s : State) (n : Nat) : (s.charge n).npc = s.npc := by
  unfold State.charge; split <;> rfl
@[simp] theorem charge_dsCur (s : State) (n : Nat) : (s.charge n).dsCur = s.dsCur := by
  unfold State.charge; split <;> rfl
@[simp] theorem charge_dsNext (s : State) (n : Nat) : (s.charge n).dsNext = s.dsNext := by
  unfold State.charge; split <;> rfl
@[simp] theorem charge_halted (s : State) (n : Nat) : (s.charge n).halted = s.halted := by
  unfold State.charge; split <;> rfl
@[simp] theorem charge_llbit (s : State) (n : Nat) : (s.charge n).llbit = s.llbit := by
  unfold State.charge; split <;> rfl
@[simp] theorem charge_cop0 (s : State) (n : Nat) : (s.charge n).cop0 = s.cop0 := by
  unfold State.charge; split <;> rfl
@[simp] theorem charge_intc (s : State) (n : Nat) : (s.charge n).intc = s.intc := by
  unfold State.charge; split <;> rfl
@[simp] theorem charge_sched (s : State) (n : Nat) : (s.charge n).sched = s.sched := by
  unfold State.charge; split <;> rfl
@[simp] theorem charge_mem (s : State) (n : Nat) : (s.charge n).mem = s.mem := by
  unfold State.charge; split <;> rfl
@[simp] theorem charge_replies (s : State) (n : Nat) : (s.charge n).replies = s.replies := by
  unfold State.charge; split <;> rfl
@[simp] theorem charge_draws (s : State) (n : Nat) : (s.charge n).draws = s.draws := by
  unfold State.charge; split <;> rfl

theorem charge_phase (s : State) (n used : Nat) (h : s.phase = .cpu used) : (s.charge n).phase = .cpu (used + n) := by
  simp [State.charge, h]

/-! ## What the accessors read after an update -/

/-- Read after write (R22): register 0 stays 0, the written register has the value, the others are as before. -/
theorem x_setX (s : State) (r q : Reg) (v : Word) :
    (s.setX r v).x q = if q = 0 then 0#32 else if q = r then v else s.x q := by
  unfold State.x
  split
  · rfl
  · rename_i hq
    have h0 : (0 : Nat) ≠ q.val := fun h => hq (Fin.ext h.symm)
    simp only [setX_regs, Vector.get_eq_getElem, Vector.getElem_set, h0, if_false]
    simp only [Fin.ext_iff, eq_comm]

@[simp] theorem x_zero (s : State) : s.x 0 = 0#32 := rfl

theorem x_setX_of_ne (s : State) (r q : Reg) (v : Word) (h : q ≠ r) : (s.setX r v).x q = s.x q := by
  rw [x_setX, if_neg h]
  split
  · next h0 => simp [h0]
  · rfl

/-- Two states with the same register array read the same registers. -/
theorem x_congr {s t : State} (h : t.regs = s.regs) (q : Reg) : t.x q = s.x q := by
  simp [State.x, h]

/-- Two states with the same parameters and the same memory read the same bytes. -/
theorem byteAt_congr {s t : State} (hc : t.cfg = s.cfg) (h : t.mem = s.mem) (a : Nat) : t.byteAt a = s.byteAt a := by
  simp [State.byteAt, hc, h]

@[simp] theorem byteAt_setX (s : State) (r : Reg) (v : Word) (a : Nat) : (s.setX r v).byteAt a = s.byteAt a := rfl
@[simp] theorem byteAt_advance (s : State) (a : Nat) : s.advance.byteAt a = s.byteAt a := rfl
@[simp] theorem byteAt_charge (s : State) (n a : Nat) : (s.charge n).byteAt a = s.byteAt a := byteAt_congr (by simp) (by simp) a
@[simp] theorem x_advance (s : State) (q : Reg) : s.advance.x q = s.x q := rfl
@[simp] theorem x_charge (s : State) (n : Nat) (q : Reg) : (s.charge n).x q = s.x q := x_congr (by simp) q
@[simp] theorem physical_setX (s : State) (r : Reg) (v a : Word) : (s.setX r v).physical a = s.physical a := rfl
@[simp] theorem physical_advance (s : State) (a : Word) : s.advance.physical a = s.physical a := rfl

/-! ## Reset -/

@[simp] theorem resetFor_cfg (c : Config) : (State.resetFor c).cfg = c := rfl
@[simp] theorem resetFor_mem (c : Config) : (State.resetFor c).mem = [] := rfl
@[simp] theorem resetFor_pc (c : Config) : (State.resetFor c).pc = c.resetPc := rfl
@[simp] theorem resetFor_npc (c : Config) : (State.resetFor c).npc = c.resetPc + 4 := rfl
@[simp] theorem resetFor_phase (c : Config) : (State.resetFor c).phase = .cpu 0 := rfl
@[simp] theorem resetFor_sched (c : Config) : (State.resetFor c).sched = ⟨0, [], 0, []⟩ := rfl
@[simp] theorem resetFor_intc (c : Config) : (State.resetFor c).intc = List.replicate c.nBanks ⟨0#32, 0#32⟩ := rfl
@[simp] theorem resetFor_halted (c : Config) : (State.resetFor c).halted = false := rfl

/-! ## Going on and stopping -/

@[simp] theorem bind_next {α β : Type} (a : α) (f : α → Res β) : Res.bind (.next a) f = f a := rfl
@[simp] theorem bind_fault {α β : Type} (e : Fault) (f : α → Res β) : Res.bind (.fault e) f = .fault e := rfl
@[simp] theorem bind_refused {α β : Type} (e : Refusal) (f : α → Res β) : Res.bind (.refused e) f = .refused e := rfl

/-- Bit `n` of a 1 shifted left by `k`. -/
theorem getLsbD_one_shiftLeft {w : Nat} (k n : Nat) (hn : n < w) : (1#w <<< k).getLsbD n = decide (n = k) := by
  rw [BitVec.getLsbD_shiftLeft, BitVec.getLsbD_one]
  by_cases h : n < k
  · simp [h, hn, Nat.ne_of_lt h]
  · have : n - k = 0 ↔ n = k := by omega
    simp [h, hn, this]
    omega

@[simp] theorem vector_set_zero_get (v : Vector Word 32) (x : Word) : (v.set 0 x).get 0 = x := by
  show (v.set 0 x)[0] = x
  simp

/-- Slot 0 holds 0 after every write (R22). -/
theorem setX_slot_zero (s : State) (r : Reg) (v : Word) : (s.setX r v).regs.get 0 = 0#32 := vector_set_zero_get _ _

/-- A chain that answers a value went on at each of its links. -/
theorem bind_eq_next {α β : Type} {r : Res α} {f : α → Res β} {b : β} :
    Res.bind r f = .next b ↔ ∃ a, r = .next a ∧ f a = .next b := by
  cases r <;> simp [Res.bind]

end Sys2Proof.Machine
end

