-- ==== Sys2Proof/Laws/Memory.lean ====
section
/-! SUPPORT. The laws of the byte store: read after write, a write leaves every other address alone, and every operation keeps the
canonical form (20_memory.md R67, R71). -/

namespace Sys2Proof.Machine

/-- Read after write, and every other address as before. -/
theorem get_set (m : Memory) (a b : Nat) (v : Byte) :
    Memory.get (Memory.set m a v) b = if b = a then some v else Memory.get m b := by
  induction m with
  | nil => simp [Memory.set, Memory.get]
  | cons c rest ih =>
    obtain ⟨k, w⟩ := c
    simp only [Memory.set]
    split
    · rfl
    · split
      · next h => subst h; simp only [Memory.get]; split <;> rfl
      · next hne =>
        simp only [Memory.get, ih]
        by_cases hb : b = a
        · subst hb; simp [hne]
        · simp [hb]

/-- Every address a write leaves listed is the written one or was listed before. -/
theorem mem_set {m : Memory} {a : Nat} {v : Byte} {c : Host.Cell} (h : c ∈ Memory.set m a v) :
    c.1 = a ∨ c ∈ m := by
  induction m with
  | nil => simp [Memory.set] at h; simp [h]
  | cons d rest ih =>
    obtain ⟨k, w⟩ := d
    simp only [Memory.set] at h
    split at h
    · rcases List.mem_cons.1 h with rfl | h
      · exact .inl rfl
      · exact .inr h
    · split at h
      · next hk =>
        rcases List.mem_cons.1 h with rfl | h
        · exact .inl hk.symm
        · exact .inr (List.mem_cons_of_mem _ h)
      · rcases List.mem_cons.1 h with rfl | h
        · exact .inr (List.mem_cons_self ..)
        · exact (ih h).imp_right (List.mem_cons_of_mem _)

@[simp] theorem wf_nil : Memory.wf [] = true := rfl

theorem wf_cons (k : Nat) (b : Byte) (rest : Memory) :
    Memory.wf ((k, b) :: rest) = true ↔ (∀ c ∈ rest, k < c.1) ∧ Memory.wf rest = true := by
  simp [Memory.wf]

/-- A write keeps the canonical form. -/
theorem wf_set {m : Memory} (h : Memory.wf m = true) (a : Nat) (v : Byte) : Memory.wf (Memory.set m a v) = true := by
  induction m with
  | nil => simp [Memory.set, wf_cons]
  | cons d rest ih =>
    obtain ⟨k, w⟩ := d
    obtain ⟨hk, hrest⟩ := (wf_cons k w rest).1 h
    simp only [Memory.set]
    split
    · next hlt =>
      refine (wf_cons ..).2 ⟨fun c hc => ?_, h⟩
      rcases List.mem_cons.1 hc with rfl | hc
      · exact hlt
      · exact hlt.trans (hk c hc)
    · split
      · exact (wf_cons ..).2 ⟨hk, hrest⟩
      · next hlt hne =>
        refine (wf_cons ..).2 ⟨fun c hc => ?_, ih hrest⟩
        rcases mem_set hc with hc | hc
        · omega
        · exact hk c hc

theorem wf_storeBytes {m : Memory} (h : Memory.wf m = true) (pa : Nat) (v : Word) (n : Nat) :
    Memory.wf (Memory.storeBytes m pa v n) = true := by
  induction n generalizing m pa v with
  | zero => exact h
  | succ n ih => exact ih (wf_set h pa _) (pa + 1) (v >>> 8)

/-- A write of `n` bytes leaves every address outside them alone (R67). -/
theorem get_storeBytes_of_outside (m : Memory) (pa : Nat) (v : Word) (n a : Nat) (h : a < pa ∨ pa + n ≤ a) :
    Memory.get (Memory.storeBytes m pa v n) a = Memory.get m a := by
  induction n generalizing m pa v with
  | zero => rfl
  | succ n ih =>
    rw [Memory.storeBytes, ih _ (pa + 1) (v >>> 8) (by omega), get_set, if_neg (by omega)]

/-- Byte `k` of a write is bits `8k+7 .. 8k` of the value (R67). -/
theorem get_storeBytes_inside (m : Memory) (pa : Nat) (v : Word) (n k : Nat) (h : k < n) :
    Memory.get (Memory.storeBytes m pa v n) (pa + k) = some (v.extractLsb' (8 * k) 8) := by
  induction n generalizing m pa v k with
  | zero => omega
  | succ n ih =>
    rw [Memory.storeBytes]
    cases k with
    | zero =>
      rw [get_storeBytes_of_outside _ _ _ _ _ (by omega), get_set, if_pos (by omega)]
      exact congrArg some (BitVec.eq_of_getLsbD_eq fun i hi => by simp [hi])
    | succ k =>
      rw [show pa + (k + 1) = pa + 1 + k by omega, ih _ (pa + 1) (v >>> 8) k (by omega)]
      refine congrArg some (BitVec.eq_of_getLsbD_eq fun i hi => ?_)
      simp [hi]
      congr 1
      omega

/-- One byte read is that byte, zero-extended (R66). -/
theorem loadBytes_one (s : State) (pa : Nat) : s.loadBytes pa 1 = (s.byteAt pa).setWidth 32 := by
  simp [State.loadBytes]

/-- Two bytes read, the lower address less significant (R66, R71). -/
theorem loadBytes_two (s : State) (pa : Nat) :
    s.loadBytes pa 2 = (s.byteAt (pa + 1) ++ s.byteAt pa).setWidth 32 := by
  simp only [State.loadBytes]
  refine BitVec.eq_of_getLsbD_eq fun i hi => ?_
  simp only [BitVec.getLsbD_or, BitVec.getLsbD_shiftLeft, BitVec.getLsbD_setWidth, BitVec.getLsbD_append]
  interval_cases i <;> simp

/-- Four bytes read (R66, R71). -/
theorem loadBytes_four (s : State) (pa : Nat) :
    s.loadBytes pa 4 = s.byteAt (pa + 3) ++ s.byteAt (pa + 2) ++ s.byteAt (pa + 1) ++ s.byteAt pa := by
  simp only [State.loadBytes]
  refine BitVec.eq_of_getLsbD_eq fun i hi => ?_
  simp only [BitVec.getLsbD_or, BitVec.getLsbD_shiftLeft, BitVec.getLsbD_setWidth, BitVec.getLsbD_append]
  interval_cases i <;> simp

/-- A read depends on the bytes alone. -/
theorem loadBytes_congr {s t : State} {pa n : Nat} (h : ∀ k < n, t.byteAt (pa + k) = s.byteAt (pa + k)) :
    t.loadBytes pa n = s.loadBytes pa n := by
  induction n generalizing pa with
  | zero => rfl
  | succ n ih =>
    have h0 := h 0 (by omega)
    rw [State.loadBytes, State.loadBytes, ih fun k hk => by
      have := h (k + 1) (by omega)
      rwa [show pa + (k + 1) = pa + 1 + k by omega] at this]
    simp_all

end Sys2Proof.Machine
end

