-- ==== Sys2Proof/Laws/Devices.lean ====
section
/-! SUPPORT. What the interrupt controller, the scheduler and a device's transition can change, said once
(60_exceptions.md R330 to R355). -/

namespace Sys2Proof.Machine

/-- All that a device's transition may change (R352 to R354): the controller's words, queued events, RAM bytes, and the model's
own `replies` and `draws`. Everything else is as before. -/
structure DeviceFrame (s t : State) : Prop where
  cfg      : t.cfg = s.cfg
  regs     : t.regs = s.regs
  lo       : t.lo = s.lo
  hi       : t.hi = s.hi
  pc       : t.pc = s.pc
  npc      : t.npc = s.npc
  dsCur    : t.dsCur = s.dsCur
  dsNext   : t.dsNext = s.dsNext
  halted   : t.halted = s.halted
  llbit    : t.llbit = s.llbit
  cop0     : t.cop0 = s.cop0
  now      : t.sched.now = s.sched.now
  handlers : t.sched.handlers = s.sched.handlers
  phase    : t.phase = s.phase

theorem DeviceFrame.refl (s : State) : DeviceFrame s s := by constructor <;> rfl

theorem DeviceFrame.trans {s t u : State} (h : DeviceFrame s t) (k : DeviceFrame t u) : DeviceFrame s u := by
  constructor
  · exact k.cfg.trans h.cfg
  · exact k.regs.trans h.regs
  · exact k.lo.trans h.lo
  · exact k.hi.trans h.hi
  · exact k.pc.trans h.pc
  · exact k.npc.trans h.npc
  · exact k.dsCur.trans h.dsCur
  · exact k.dsNext.trans h.dsNext
  · exact k.halted.trans h.halted
  · exact k.llbit.trans h.llbit
  · exact k.cop0.trans h.cop0
  · exact k.now.trans h.now
  · exact k.handlers.trans h.handlers
  · exact k.phase.trans h.phase

/-! ## The queue -/

theorem before_trans {e f g : Event} (h : e.before f = true) (k : f.before g = true) : e.before g = true := by
  simp only [Event.before, Bool.or_eq_true, Bool.and_eq_true, decide_eq_true_eq] at *
  omega

/-- An inserted event is in the queue and nothing else is new (R345: nothing is lost). -/
theorem insertEvent_perm (e : Event) (q : List Event) : (insertEvent e q).Perm (e :: q) := by
  induction q with
  | nil => exact .refl _
  | cons f rest ih =>
    rw [insertEvent]
    split
    · exact .refl _
    · exact (ih.cons f).trans (.swap e f rest)

/-- Inserting an event numbered after every queued one keeps the order of R45. -/
theorem insertEvent_ordered {e : Event} {q : List Event} (h : q.Pairwise (fun e f => e.before f = true))
    (hs : ∀ f ∈ q, f.seq < e.seq) : (insertEvent e q).Pairwise (fun e f => e.before f = true) := by
  induction q with
  | nil => simp [insertEvent]
  | cons f rest ih =>
    obtain ⟨hf, hrest⟩ := List.pairwise_cons.1 h
    rw [insertEvent]
    split
    · next hb =>
      refine List.pairwise_cons.2 ⟨fun g hg => ?_, h⟩
      rcases List.mem_cons.1 hg with rfl | hg
      · exact hb
      · exact before_trans hb (hf g hg)
    · next hb =>
      refine List.pairwise_cons.2 ⟨fun g hg => ?_, ih hrest fun g hg => hs g (List.mem_cons_of_mem _ hg)⟩
      rcases List.mem_cons.1 ((insertEvent_perm e rest).mem_iff.1 hg) with rfl | hg
      · have := hs f (List.mem_cons_self ..)
        simp only [Event.before, Bool.or_eq_true, Bool.and_eq_true, decide_eq_true_eq] at hb ⊢
        omega
      · exact hf g hg

/-! ## Operations -/

/-- All that `updateBank` can do (R330 to R333). -/
theorem updateBank_next {s t : State} {b : Nat} {bad : BadRegister} {f : Bank → Bank}
    (h : s.updateBank b bad f = .next t) : ∃ k, s.intc[b]? = some k ∧ t = { s with intc := s.intc.set b (f k) } := by
  unfold State.updateBank at h
  split at h
  · next k hk => exact ⟨k, hk, by simpa using h.symm⟩
  · cases h

/-- All that `addEvent` can do (R342). -/
theorem addEvent_next {s t : State} {n : Nat} {p : Param} {d : Int} (h : addEvent n p d s = .next t) :
    0 < d ∧ n < s.sched.handlers.length ∧
      t = { s with sched := { s.sched with
        queue := insertEvent ⟨n, p, s.sched.now + d.toNat, s.sched.nextSeq⟩ s.sched.queue
        nextSeq := s.sched.nextSeq + 1 } } := by
  unfold addEvent at h
  split at h
  · cases h
  · split at h
    · cases h
    · exact ⟨by omega, by omega, by simpa using h.symm⟩

/-- All that a device's direct write can do (R353). -/
theorem deviceWriteRam_next {s t : State} {dev off : Nat} {v : Byte} (h : deviceWriteRam dev off v s = .next t) :
    ∃ r, s.ramRegion = some r ∧ off < r.size ∧ t = { s with mem := Memory.set s.mem (r.base + off) v } := by
  unfold deviceWriteRam at h
  split at h
  · next r hr =>
    split at h
    · next ho => exact ⟨r, hr, ho, by simpa using h.symm⟩
    · cases h
  · cases h

/-- What a device's transition keeps besides its frame: the number of banks, the canonical form of memory, a scheduler in order
(with every new event strictly after the clock), and every byte outside the RAM array. -/
structure DeviceKeeps (s t : State) : Prop where
  frame : DeviceFrame s t
  banks : t.intc.length = s.intc.length
  mem   : Memory.wf s.mem = true → Memory.wf t.mem = true
  sched : s.sched.Ok → t.sched.Ok
  late  : ∀ e ∈ t.sched.queue, e ∈ s.sched.queue ∨ s.sched.now < e.due
  bytes : ∀ a, (∀ r, s.ramRegion = some r → r.has a = false) → t.byteAt a = s.byteAt a

theorem DeviceKeeps.refl (s : State) : DeviceKeeps s s :=
  ⟨.refl s, rfl, id, id, fun _ h => .inl h, fun _ _ => rfl⟩

theorem DeviceKeeps.trans {s t u : State} (h : DeviceKeeps s t) (k : DeviceKeeps t u) : DeviceKeeps s u where
  frame := h.frame.trans k.frame
  banks := k.banks.trans h.banks
  mem := k.mem ∘ h.mem
  sched := k.sched ∘ h.sched
  late e he := by
    rcases k.late e he with he | he
    · exact h.late e he
    · exact .inr (h.frame.now ▸ he)
  bytes a ha := (k.bytes a fun r hr => ha r (by simpa [State.ramRegion, h.frame.cfg] using hr)).trans (h.bytes a ha)

theorem updateBank_keeps {s t : State} {b : Nat} {bad : BadRegister} {f : Bank → Bank}
    (h : s.updateBank b bad f = .next t) : DeviceKeeps s t := by
  obtain ⟨k, -, rfl⟩ := updateBank_next h
  exact ⟨by constructor <;> rfl, by simp, id, id, fun _ h => .inl h, fun _ _ => rfl⟩

theorem addEvent_keeps {s t : State} {n : Nat} {p : Param} {d : Int} (h : addEvent n p d s = .next t) :
    DeviceKeeps s t := by
  obtain ⟨hd, hn, rfl⟩ := addEvent_next h
  refine ⟨by constructor <;> rfl, rfl, id, fun hs => ?_, fun e he => ?_, fun _ _ => rfl⟩
  · have hm : ∀ e ∈ insertEvent ⟨n, p, s.sched.now + d.toNat, s.sched.nextSeq⟩ s.sched.queue,
        e = ⟨n, p, s.sched.now + d.toNat, s.sched.nextSeq⟩ ∨ e ∈ s.sched.queue := fun e he =>
      List.mem_cons.1 ((insertEvent_perm _ _).mem_iff.1 he)
    refine ⟨insertEvent_ordered hs.ordered hs.seqs, fun e he => ?_, fun e he => ?_, fun e he => ?_⟩
    · rcases hm e he with rfl | he
      · exact Nat.lt_succ_self _
      · exact (hs.seqs e he).trans (Nat.lt_succ_self _)
    · rcases hm e he with rfl | he
      · exact hn
      · exact hs.known e he
    · rcases hm e he with rfl | he
      · exact Nat.le_add_right ..
      · exact hs.notPast e he
  · rcases List.mem_cons.1 ((insertEvent_perm _ _).mem_iff.1 he) with rfl | he
    · exact .inr (by show s.sched.now < s.sched.now + d.toNat; omega)
    · exact .inl he

theorem deviceWriteRam_keeps {s t : State} {dev off : Nat} {v : Byte} (h : deviceWriteRam dev off v s = .next t) :
    DeviceKeeps s t := by
  obtain ⟨r, hr, ho, rfl⟩ := deviceWriteRam_next h
  refine ⟨by constructor <;> rfl, rfl, fun hm => wf_set hm _ _, id, fun _ h => .inl h, fun a ha => ?_⟩
  have hne : a ≠ r.base + off := fun he => by
    have := ha r hr
    simp [Region.has, he] at this
    omega
  simp [State.byteAt, get_set, hne]

theorem applyEffect_keeps {s t : State} {dev : Nat} {e : Effect} (h : applyEffect dev e s = .next t) :
    DeviceKeeps s t := by
  cases e with
  | raise n => exact updateBank_keeps h
  | clear n => exact updateBank_keeps h
  | addEvent n p d => exact addEvent_keeps h
  | writeRam off v => exact deviceWriteRam_keeps h

/-- The whole list of effects of a transition keeps what one effect keeps. -/
theorem applyEffects_keeps {s t : State} {dev : Nat} {es : List Effect} (h : applyEffects dev es s = .next t) :
    DeviceKeeps s t := by
  induction es generalizing s with
  | nil => obtain rfl : s = t := by simpa [applyEffects] using h
           exact .refl s
  | cons e rest ih =>
    obtain ⟨u, hu, hr⟩ := bind_eq_next.1 h
    exact (applyEffect_keeps hu).trans (ih hr)

theorem takeReply_keeps (dev : Nat) (c : DeviceCall) (s : State) : DeviceKeeps s (takeReply dev c s).2 := by
  unfold takeReply
  split <;> exact ⟨by constructor <;> rfl, rfl, id, id, fun _ h => .inl h, fun _ _ => rfl⟩

theorem peripheralRead_keeps {s : State} {dev pa : Nat} {w : Width} {p : Word × State}
    (h : peripheralRead dev pa w s = .next p) : DeviceKeeps s p.2 := by
  have hk := takeReply_keeps dev (.read pa w) s
  unfold peripheralRead at h
  split at h
  · cases h
  · next he =>
    rw [he] at hk
    obtain ⟨t, ht, rfl⟩ := by simpa [bind_eq_next] using h
    exact hk.trans (applyEffects_keeps ht)

theorem peripheralWrite_keeps {s t : State} {dev pa : Nat} {w : Width} {v : Word}
    (h : peripheralWrite dev pa w v s = .next t) : DeviceKeeps s t := by
  have hk := takeReply_keeps dev (.write pa w v) s
  unfold peripheralWrite at h
  split at h
  · cases h
  · next he =>
    rw [he] at hk
    exact hk.trans (applyEffects_keeps h)

theorem runCallback_keeps {s t : State} {n : Nat} {p : Param} (h : runCallback n p s = .next t) : DeviceKeeps s t := by
  unfold runCallback at h
  split at h
  · cases h
  · next dev hd =>
    have hk := takeReply_keeps dev (.callback n p) s
    split at h
    · cases h
    · next he =>
      rw [he] at hk
      exact hk.trans (applyEffects_keeps h)

theorem intcWrite_keeps {s t : State} {pa : Nat} {w : Width} {v : Word} (h : intcWrite pa w v s = .next t) :
    DeviceKeeps s t := by
  unfold intcWrite at h
  split at h
  · cases h
  · split at h <;> exact updateBank_keeps h

end Sys2Proof.Machine
end

