-- ==== Sys2Proof/Laws/Encoding.lean ====
section
/-! SUPPORT. What each field reads in each format (30_encoding.md R101, R102), and how a mask acts on a format. -/

namespace Sys2Proof

@[simp] theorem toFin_regBits (r : Reg) : (regBits r).toFin = r := rfl

/-! ## R-type -/

section
variable (op : BitVec 6) (rs rt rd : Reg) (sa : BitVec 5) (f : BitVec 6)

@[simp] theorem opField_rType : opField (rType op rs rt rd sa f) = op := by
  refine BitVec.eq_of_getLsbD_eq fun i hi => ?_
  simp only [opField, rType, BitVec.getLsbD_extractLsb', BitVec.getLsbD_append]
  interval_cases i <;> rfl

theorem rsBits_rType : (rType op rs rt rd sa f).extractLsb' 21 5 = regBits rs := by
  refine BitVec.eq_of_getLsbD_eq fun i hi => ?_
  simp only [rType, BitVec.getLsbD_extractLsb', BitVec.getLsbD_append]
  interval_cases i <;> rfl

theorem rtBits_rType : (rType op rs rt rd sa f).extractLsb' 16 5 = regBits rt := by
  refine BitVec.eq_of_getLsbD_eq fun i hi => ?_
  simp only [rType, BitVec.getLsbD_extractLsb', BitVec.getLsbD_append]
  interval_cases i <;> rfl

theorem rdBits_rType : (rType op rs rt rd sa f).extractLsb' 11 5 = regBits rd := by
  refine BitVec.eq_of_getLsbD_eq fun i hi => ?_
  simp only [rType, BitVec.getLsbD_extractLsb', BitVec.getLsbD_append]
  interval_cases i <;> rfl

@[simp] theorem rsField_rType : rsField (rType op rs rt rd sa f) = rs := by simp only [rsField, rsBits_rType]; rfl
@[simp] theorem rtField_rType : rtField (rType op rs rt rd sa f) = rt := by simp only [rtField, rtBits_rType]; rfl
@[simp] theorem rdField_rType : rdField (rType op rs rt rd sa f) = rd := by simp only [rdField, rdBits_rType]; rfl

@[simp] theorem shamtField_rType : shamtField (rType op rs rt rd sa f) = sa := by
  refine BitVec.eq_of_getLsbD_eq fun i hi => ?_
  simp only [shamtField, rType, BitVec.getLsbD_extractLsb', BitVec.getLsbD_append]
  interval_cases i <;> rfl

@[simp] theorem functField_rType : functField (rType op rs rt rd sa f) = f := by
  refine BitVec.eq_of_getLsbD_eq fun i hi => ?_
  simp only [functField, rType, BitVec.getLsbD_extractLsb', BitVec.getLsbD_append]
  interval_cases i <;> rfl

/-- A mask in the R-type shape acts field by field (R104). -/
theorem rType_and (op' : BitVec 6) (rs' rt' rd' : Reg) (sa' : BitVec 5) (f' : BitVec 6) :
    rType op rs rt rd sa f &&& rType op' rs' rt' rd' sa' f' =
      (op &&& op') ++ (regBits rs &&& regBits rs') ++ (regBits rt &&& regBits rt') ++ (regBits rd &&& regBits rd') ++
        (sa &&& sa') ++ (f &&& f') := by
  refine BitVec.eq_of_getLsbD_eq fun i hi => ?_
  simp only [rType, BitVec.getLsbD_and, BitVec.getLsbD_append]
  interval_cases i <;> rfl

end

/-! ## I-type -/

section
variable (op : BitVec 6) (rs rt : Reg) (imm : Imm)

@[simp] theorem opField_iType : opField (iType op rs rt imm) = op := by
  refine BitVec.eq_of_getLsbD_eq fun i hi => ?_
  simp only [opField, iType, BitVec.getLsbD_extractLsb', BitVec.getLsbD_append]
  interval_cases i <;> rfl

theorem rsBits_iType : (iType op rs rt imm).extractLsb' 21 5 = regBits rs := by
  refine BitVec.eq_of_getLsbD_eq fun i hi => ?_
  simp only [iType, BitVec.getLsbD_extractLsb', BitVec.getLsbD_append]
  interval_cases i <;> rfl

theorem rtBits_iType : (iType op rs rt imm).extractLsb' 16 5 = regBits rt := by
  refine BitVec.eq_of_getLsbD_eq fun i hi => ?_
  simp only [iType, BitVec.getLsbD_extractLsb', BitVec.getLsbD_append]
  interval_cases i <;> rfl

@[simp] theorem rsField_iType : rsField (iType op rs rt imm) = rs := by simp only [rsField, rsBits_iType]; rfl
@[simp] theorem rtField_iType : rtField (iType op rs rt imm) = rt := by simp only [rtField, rtBits_iType]; rfl

@[simp] theorem immField_iType : immField (iType op rs rt imm) = imm := by
  refine BitVec.eq_of_getLsbD_eq fun i hi => ?_
  simp only [immField, iType, BitVec.getLsbD_extractLsb', BitVec.getLsbD_append]
  interval_cases i <;> rfl

/-- A mask in the I-type shape acts field by field (R104). -/
theorem iType_and (op' : BitVec 6) (rs' rt' : Reg) (imm' : Imm) :
    iType op rs rt imm &&& iType op' rs' rt' imm' =
      (op &&& op') ++ (regBits rs &&& regBits rs') ++ (regBits rt &&& regBits rt') ++ (imm &&& imm') := by
  refine BitVec.eq_of_getLsbD_eq fun i hi => ?_
  simp only [iType, BitVec.getLsbD_and, BitVec.getLsbD_append]
  interval_cases i <;> rfl

end

/-! ## J-type -/

section
variable (op : BitVec 6) (index : BitVec 26)

@[simp] theorem opField_jType : opField (jType op index) = op := by
  refine BitVec.eq_of_getLsbD_eq fun i hi => ?_
  simp only [opField, jType, BitVec.getLsbD_extractLsb', BitVec.getLsbD_append]
  interval_cases i <;> rfl

@[simp] theorem indexField_jType : indexField (jType op index) = index := by
  refine BitVec.eq_of_getLsbD_eq fun i hi => ?_
  simp only [indexField, jType, BitVec.getLsbD_extractLsb', BitVec.getLsbD_append]
  interval_cases i <;> rfl

theorem jType_and (op' : BitVec 6) (index' : BitVec 26) :
    jType op index &&& jType op' index' = (op &&& op') ++ (index &&& index') := by
  refine BitVec.eq_of_getLsbD_eq fun i hi => ?_
  simp only [jType, BitVec.getLsbD_and, BitVec.getLsbD_append]
  interval_cases i <;> rfl

end

/-! ## The forms with a 20-bit code, and the moves of coprocessor 0 (R101, R110) -/

section
variable (code : BitVec 20) (f : BitVec 6)

@[simp] theorem opField_codeType : opField (codeType code f) = 0 := by
  refine BitVec.eq_of_getLsbD_eq fun i hi => ?_
  simp only [opField, codeType, BitVec.getLsbD_extractLsb', BitVec.getLsbD_append]
  interval_cases i <;> rfl

@[simp] theorem codeField_codeType : codeField (codeType code f) = code := by
  refine BitVec.eq_of_getLsbD_eq fun i hi => ?_
  simp only [codeField, codeType, BitVec.getLsbD_extractLsb', BitVec.getLsbD_append]
  interval_cases i <;> rfl

@[simp] theorem functField_codeType : functField (codeType code f) = f := by
  refine BitVec.eq_of_getLsbD_eq fun i hi => ?_
  simp only [functField, codeType, BitVec.getLsbD_extractLsb', BitVec.getLsbD_append]
  interval_cases i <;> rfl

/-- A mask acts field by field (R104). -/
theorem codeType_and (op' : BitVec 6) (code' : BitVec 20) (f' : BitVec 6) :
    codeType code f &&& (op' ++ code' ++ f' : BitVec 32) = (0#6 &&& op') ++ (code &&& code') ++ (f &&& f') := by
  refine BitVec.eq_of_getLsbD_eq fun i hi => ?_
  simp only [codeType, BitVec.getLsbD_and, BitVec.getLsbD_append]
  interval_cases i <;> rfl

end

section
variable (rs : BitVec 5) (rt : Reg) (index : Nat)

@[simp] theorem opField_cop0Type : opField (cop0Type rs rt index) = 16 := by
  refine BitVec.eq_of_getLsbD_eq fun i hi => ?_
  simp only [opField, cop0Type, BitVec.getLsbD_extractLsb', BitVec.getLsbD_append]
  interval_cases i <;> rfl

@[simp] theorem rsField_cop0Type : rsField (cop0Type rs rt index) = rs.toFin := by
  have h : (cop0Type rs rt index).extractLsb' 21 5 = rs := by
    refine BitVec.eq_of_getLsbD_eq fun i hi => ?_
    simp only [cop0Type, BitVec.getLsbD_extractLsb', BitVec.getLsbD_append]
    interval_cases i <;> rfl
  simp only [rsField, h]

@[simp] theorem rtField_cop0Type : rtField (cop0Type rs rt index) = rt := by
  have h : (cop0Type rs rt index).extractLsb' 16 5 = regBits rt := by
    refine BitVec.eq_of_getLsbD_eq fun i hi => ?_
    simp only [cop0Type, BitVec.getLsbD_extractLsb', BitVec.getLsbD_append]
    interval_cases i <;> rfl
  simp only [rtField, h, toFin_regBits]

@[simp] theorem rdField_cop0Type : (rdField (cop0Type rs rt index)).val = index % 32 := by
  have h : (cop0Type rs rt index).extractLsb' 11 5 = BitVec.ofNat 5 index := by
    refine BitVec.eq_of_getLsbD_eq fun i hi => ?_
    simp only [cop0Type, BitVec.getLsbD_extractLsb', BitVec.getLsbD_append]
    interval_cases i <;> rfl
  simp only [rdField, h]
  rfl

@[simp] theorem low_cop0Type : (cop0Type rs rt index).extractLsb' 0 11 = 0 := by
  refine BitVec.eq_of_getLsbD_eq fun i hi => ?_
  simp only [cop0Type, BitVec.getLsbD_extractLsb', BitVec.getLsbD_append]
  interval_cases i <;> rfl

/-- A mask acts field by field (R104). -/
theorem cop0Type_and (op' : BitVec 6) (rs' rt' rd' : BitVec 5) (low' : BitVec 11) :
    cop0Type rs rt index &&& (op' ++ rs' ++ rt' ++ rd' ++ low' : BitVec 32) =
      (16#6 &&& op') ++ (rs &&& rs') ++ (regBits rt &&& rt') ++ (BitVec.ofNat 5 index &&& rd') ++ (0#11 &&& low') := by
  refine BitVec.eq_of_getLsbD_eq fun i hi => ?_
  simp only [cop0Type, BitVec.getLsbD_and, BitVec.getLsbD_append]
  interval_cases i <;> rfl

end

/-! ## A word is its fields -/

/-- Every word is the R-type of its fields (R101, R102). -/
theorem rType_of_fields (w : Word) :
    rType (opField w) (rsField w) (rtField w) (rdField w) (shamtField w) (functField w) = w := by
  refine BitVec.eq_of_getLsbD_eq fun i hi => ?_
  simp only [rType, regBits, opField, rsField, rtField, rdField, shamtField, functField, BitVec.ofFin_toFin,
    BitVec.getLsbD_append, BitVec.getLsbD_extractLsb']
  interval_cases i <;> simp

/-- Every word is the I-type of its fields. -/
theorem iType_of_fields (w : Word) : iType (opField w) (rsField w) (rtField w) (immField w) = w := by
  refine BitVec.eq_of_getLsbD_eq fun i hi => ?_
  simp only [iType, regBits, opField, rsField, rtField, immField, BitVec.ofFin_toFin, BitVec.getLsbD_append,
    BitVec.getLsbD_extractLsb']
  interval_cases i <;> simp

/-- Every word is the J-type of its fields. -/
theorem jType_of_fields (w : Word) : jType (opField w) (indexField w) = w := by
  refine BitVec.eq_of_getLsbD_eq fun i hi => ?_
  simp only [jType, opField, indexField, BitVec.getLsbD_append, BitVec.getLsbD_extractLsb']
  interval_cases i <;> simp

/-- The bytes the hardware stores a word in make that word again (R71). -/
theorem decodeBytes_bytesOfWord (w : Word) (rest : List Byte) :
    decodeBytes (bytesOfWord w ++ rest) =
      match decode w with
      | .ok i => .ok (i, rest)
      | .error e => .error e := by
  have h : wordOfBytes (w.extractLsb' 0 8) (w.extractLsb' 8 8) (w.extractLsb' 16 8) (w.extractLsb' 24 8) = w := by
    refine BitVec.eq_of_getLsbD_eq fun i hi => ?_
    simp only [wordOfBytes, BitVec.getLsbD_append, BitVec.getLsbD_extractLsb']
    interval_cases i <;> simp
  cases hd : decode w <;> simp only [bytesOfWord, List.cons_append, List.nil_append, decodeBytes, h, hd]

end Sys2Proof
end

