-- ==== Sys2Proof/Laws/Ops.lean ====
section
/-! SUPPORT. One lemma for each shared operation that says all it can do: the bus (20_memory.md R66, R67), `setPC` and `doBranch`
(40_engine.md R126, R130), coprocessor 0 (60_exceptions.md R305), exception entry and return (R320, R326). -/

namespace Sys2Proof.Machine

/-! ## The bus -/

theorem readBacking_next {r : Region} {pa : Nat} {w : Width} {s : State} {v : Word} :
    readBacking r pa w s = .next v ↔
      s.misalignedFatal pa w = false ∧ pa + w.bytes ≤ r.base + r.size ∧ v = s.loadBytes pa w.bytes := by
  have hw : 0 < w.bytes := by cases w <;> decide
  unfold readBacking
  split
  · next hm => simp [hm]
  · next hm =>
    split
    · next he => exact ⟨(nomatch ·), fun h => absurd h.2.1 (by omega)⟩
    · next he =>
      have he : pa + w.bytes ≤ r.base + r.size := by omega
      simp only [Host.Outcome.next.injEq]
      exact ⟨fun h => ⟨by simpa using hm, he, h.symm⟩, fun h => h.2.2.symm⟩

theorem writeBacking_next {r : Region} {pa : Nat} {w : Width} {v : Word} {s t : State} :
    writeBacking r pa w v s = .next t ↔
      s.misalignedFatal pa w = false ∧ pa + w.bytes ≤ r.base + r.size ∧
        t = { s with mem := Memory.storeBytes s.mem pa v w.bytes } := by
  have hw : 0 < w.bytes := by cases w <;> decide
  unfold writeBacking
  split
  · next hm => simp [hm]
  · next hm =>
    split
    · next he => exact ⟨(nomatch ·), fun h => absurd h.2.1 (by omega)⟩
    · next he =>
      have he : pa + w.bytes ≤ r.base + r.size := by omega
      simp only [Host.Outcome.next.injEq]
      exact ⟨fun h => ⟨by simpa using hm, he, h.symm⟩, fun h => h.2.2.symm⟩

/-- A readable access gives the bytes and changes nothing (R66, R77). -/
theorem memRead_of_readable {s : State} {a : Word} {w : Width} (h : Readable s a w) :
    memRead s a w = .next (s.loadBytes (s.physical a) w.bytes, s) := by
  obtain ⟨r, hr, ho, he, hm⟩ := h
  have hb : readBacking r (s.physical a) w s = .next (s.loadBytes (s.physical a) w.bytes) :=
    readBacking_next.2 ⟨hm, he, rfl⟩
  rcases ho with ho | ho <;> simp [memRead, hr, ho, hb]

/-- A writable access stores the low bytes of the value and changes nothing else (R67). -/
theorem memWrite_of_writable {s : State} {a : Word} {w : Width} (v : Word) (h : Writable s a w) :
    memWrite s a w v = .next { s with mem := Memory.storeBytes s.mem (s.physical a) v w.bytes } := by
  obtain ⟨r, hr, ho, he, hm⟩ := h
  have hb : writeBacking r (s.physical a) w v s = _ := writeBacking_next.2 ⟨hm, he, rfl⟩
  simp [memWrite, hr, ho, hb]

/-- All that a read can change is what a device's transition may (R66). -/
theorem memRead_keeps {s : State} {a : Word} {w : Width} {p : Word × State} (h : memRead s a w = .next p) :
    DeviceKeeps s p.2 := by
  simp only [memRead] at h
  split at h
  · cases h
  · split at h <;> obtain ⟨v, hv, ⟨⟩⟩ := bind_eq_next.1 h
    · exact .refl s
    · exact .refl s
    · exact .refl s
    · exact (peripheralRead_keeps hv : DeviceKeeps s v.2)

/-- All that a write can do (R67): a store into RAM, or what a device's transition may. -/
theorem memWrite_next {s t : State} {a : Word} {w : Width} {v : Word} (h : memWrite s a w v = .next t) :
    DeviceKeeps s t ∨ Writable s a w ∧ t = { s with mem := Memory.storeBytes s.mem (s.physical a) v w.bytes } := by
  simp only [memWrite] at h
  split at h
  · cases h
  · next r hr =>
    split at h
    · cases h
    · next ho =>
      obtain ⟨hm, he, rfl⟩ := writeBacking_next.1 h
      exact .inr ⟨⟨r, hr, ho, he, hm⟩, rfl⟩
    · exact .inl (intcWrite_keeps h)
    · exact .inl (peripheralWrite_keeps h)

/-- Every write keeps the frame of a device's transition. -/
theorem memWrite_frame {s t : State} {a : Word} {w : Width} {v : Word} (h : memWrite s a w v = .next t) :
    DeviceFrame s t := by
  rcases memWrite_next h with h | ⟨-, rfl⟩
  · exact h.frame
  · constructor <;> rfl

/-- The bytes a store leaves (R67): the value's inside, the old ones outside. -/
theorem byteAt_store_outside (s : State) (pa : Nat) (v : Word) (n a : Nat) (h : a < pa ∨ pa + n ≤ a) :
    { s with mem := Memory.storeBytes s.mem pa v n }.byteAt a = s.byteAt a := by
  simp [State.byteAt, get_storeBytes_of_outside _ _ _ _ _ h]

theorem byteAt_store_inside (s : State) (pa : Nat) (v : Word) (n k : Nat) (h : k < n) :
    { s with mem := Memory.storeBytes s.mem pa v n }.byteAt (pa + k) = v.extractLsb' (8 * k) 8 := by
  simp [State.byteAt, get_storeBytes_inside _ _ _ _ _ h]

/-! ## Redirecting the pc -/

theorem low_bits_zero (a : Word) : a.extractLsb' 0 2 = 0#2 ↔ a.toNat % 4 = 0 := by
  rw [← BitVec.toNat_inj]
  simp [BitVec.extractLsb'_toNat]

theorem checkTarget_next (a : Word) : checkTarget a = .next () ↔ ValidTarget a := by
  unfold checkTarget ValidTarget
  split
  · simp [*]
  · next h0 =>
    by_cases h4 : a.toNat % 4 = 0 <;> simp [low_bits_zero, h0, h4]

/-- The two fatal conditions of R126, and nothing else. -/
theorem checkTarget_cases (a : Word) :
    a = 0#32 ∧ checkTarget a = .fault (.jumpToZero a) ∨
      a ≠ 0#32 ∧ a.toNat % 4 ≠ 0 ∧ checkTarget a = .fault (.misalignedJumpTarget a) ∨
      ValidTarget a ∧ checkTarget a = .next () := by
  by_cases h0 : a = 0#32
  · exact .inl ⟨h0, by simp [checkTarget, h0]⟩
  · by_cases h4 : a.toNat % 4 = 0
    · exact .inr (.inr ⟨⟨h0, h4⟩, (checkTarget_next a).2 ⟨h0, h4⟩⟩)
    · refine .inr (.inl ⟨h0, h4, ?_⟩)
      simp [checkTarget, h0, low_bits_zero, h4]

theorem setPC_next {a : Word} {s t : State} :
    setPC a s = .next t ↔ ValidTarget a ∧ t = { s with pc := a, npc := a + 4 } := by
  rw [setPC, bind_eq_next]
  constructor
  · rintro ⟨u, h, ht⟩
    exact ⟨(checkTarget_next a).1 h, by simpa using ht.symm⟩
  · rintro ⟨h, rfl⟩
    exact ⟨(), (checkTarget_next a).2 h, rfl⟩

/-- All that `doBranch` can do when it goes on (R130, R131): taken, squashed, or falling through to its slot; in each case the link
is written first. -/
theorem doBranch_next {target : Word} {cond likely : Bool} {link : Reg} {s t : State} :
    doBranch target cond link likely s = .next t ↔
      s.dsCur = false ∧
        (cond = true ∧ ValidTarget target ∧ t = { s.setX link s.npc with npc := target, dsNext := true } ∨
         cond = false ∧ likely = true ∧
           t = { s.setX link s.npc with pc := s.npc, npc := s.npc + 4, dsNext := false } ∨
         cond = false ∧ likely = false ∧ t = { s.setX link s.npc with dsNext := true }) := by
  unfold doBranch
  split
  · simp [*]
  · next hc =>
    have hc : s.dsCur = false := by simpa using hc
    split
    · next hcond =>
      rw [bind_eq_next]
      constructor
      · rintro ⟨u, h, ht⟩
        exact ⟨hc, .inl ⟨hcond, (checkTarget_next _).1 h, by simpa using ht.symm⟩⟩
      · rintro ⟨-, ⟨-, h, rfl⟩ | ⟨h, -⟩ | ⟨h, -⟩⟩
        · exact ⟨(), (checkTarget_next _).2 h, rfl⟩
        · simp [hcond] at h
        · simp [hcond] at h
    · next hcond =>
      split <;> simp [*, eq_comm]

/-- A control-flow instruction in a delay slot stops the machine whatever its arguments (R130, R135). -/
theorem doBranch_in_slot {s : State} (h : s.dsCur = true) (target : Word) (cond likely : Bool) (link : Reg) :
    doBranch target cond link likely s = .fault .branchInDelaySlot := by
  simp [doBranch, h]

/-! ## Coprocessor 0 -/

/-- All that `cop0Write` can change (R305). -/
theorem cop0Write_next {i : Nat} {v : Word} {s t : State} (h : cop0Write i v s = .next t) :
    ∃ c, t = { s with cop0 := c } ∧ (i = 12 ∨ c.status = s.cop0.status) ∧ (i = 25 ∨ c.ebase = s.cop0.ebase) ∧
      (i = 14 ∨ c.epc = s.cop0.epc) ∧ (i = 13 ∨ c.ipsw = s.cop0.ipsw) ∧ c.excCode = s.cop0.excCode ∧ c.bd = s.cop0.bd := by
  unfold cop0Write at h
  repeat' split at h
  all_goals first
    | cases h; done
    | (obtain rfl := by simpa using h.symm
       exact ⟨_, rfl, by simp_all⟩)

/-! ## Exceptions -/

/-- All that exception entry can do (R320): go to a valid vector, with the five CPU items and coprocessor 0 as the six steps say. -/
theorem raiseException_next {e : Exc} {s t : State} :
    raiseException e s = .next t ↔
      ValidTarget (s.vector e) ∧
        t = { s with
          halted := false, dsCur := false, dsNext := false, cop0 := s.cop0.enter e s.dsNext s.pc
          pc := s.vector e, npc := s.vector e + 4 } := by
  rw [raiseException, setPC_next]

/-! What entry leaves in coprocessor 0 (steps 2, 5 and 6 of R320). -/

@[simp] theorem enter_status (c : Cop0) (e : Exc) (slot : Bool) (pc : Word) :
    (c.enter e slot pc).status = c.status ||| 2#32 := by
  simp only [Cop0.enter, Cop0.setExl]
  split <;> rfl

@[simp] theorem enter_excCode (c : Cop0) (e : Exc) (slot : Bool) (pc : Word) : (c.enter e slot pc).excCode = e.code := rfl

@[simp] theorem enter_ipsw (c : Cop0) (e : Exc) (slot : Bool) (pc : Word) : (c.enter e slot pc).ipsw = c.ipsw := by
  simp only [Cop0.enter, Cop0.setExl]
  split <;> rfl

@[simp] theorem enter_ebase (c : Cop0) (e : Exc) (slot : Bool) (pc : Word) : (c.enter e slot pc).ebase = c.ebase := by
  simp only [Cop0.enter, Cop0.setExl]
  split <;> rfl

theorem enter_saved (c : Cop0) (e : Exc) (slot : Bool) (pc : Word) :
    (c.enter e slot pc).bd = (if c.exl then c.bd else slot) ∧
      (c.enter e slot pc).epc = (if c.exl then c.epc else if slot then pc - 4 else pc) := by
  simp only [Cop0.enter, Cop0.setExl]
  split <;> exact ⟨rfl, rfl⟩

@[simp] theorem enter_exl (c : Cop0) (e : Exc) (slot : Bool) (pc : Word) : (c.enter e slot pc).exl = true := by
  simp [Cop0.exl]

theorem exceptionReturn_next {s t : State} :
    exceptionReturn s = .next t ↔
      s.cop0.erl = false ∧ ValidTarget s.cop0.epc ∧
        t = { s with llbit := false, cop0 := s.cop0.clearExl, pc := s.cop0.epc, npc := s.cop0.epc + 4 } := by
  unfold exceptionReturn
  split
  · simp [*]
  · next h => simp [setPC_next, h]

/-- Setting EXL sets bit 1 of `status` and no other (R307). -/
theorem setExl_status_bit (c : Cop0) (i : Nat) (hi : i < 32) :
    c.setExl.status.getLsbD i = if i = 1 then true else c.status.getLsbD i := by
  simp only [Cop0.setExl, BitVec.getLsbD_or]
  interval_cases i <;> simp

/-- Clearing EXL clears bit 1 of `status` and no other (R325). -/
theorem clearExl_status_bit (c : Cop0) (i : Nat) (hi : i < 32) :
    c.clearExl.status.getLsbD i = if i = 1 then false else c.status.getLsbD i := by
  simp only [Cop0.clearExl, BitVec.getLsbD_and, BitVec.getLsbD_not]
  interval_cases i <;> simp

/-- The trapping arithmetic forms either write the destination or take the Overflow exception (R150). -/
theorem writeOrTrap_next {rd : Reg} {n : Int} {s t : State} (h : writeOrTrap rd n s = .next t) :
    overflows n = false ∧ t = s.setX rd (BitVec.ofInt 32 n) ∨ overflows n = true ∧ raiseException .overflow s = .next t := by
  unfold writeOrTrap at h
  split at h
  · next ho => exact .inr ⟨ho, h⟩
  · next ho => exact .inl ⟨by simpa using ho, by simpa using h.symm⟩

end Sys2Proof.Machine
end

