-- ==== Sys2Proof/Laws/Exec.lean ====
section
/-! SUPPORT. What each instruction is in terms of the shared operations: one equation per constructor of Instr, so that a proof about
an instruction rewrites with it and goes on with the lemma of the shared operation (`writeOrTrap`, `doBranch`, `loadTo`, `storeFrom`,
`loadMerge`, `storeMerge`, `raiseException`, `exceptionReturn`, `cop0Read`, `cop0Write`, `setX`). -/

namespace Sys2Proof.Machine

theorem exec_add (rd rs rt : Reg) (s : State) : exec (.add rd rs rt) s =
      writeOrTrap rd ((s.x rs).toInt + (s.x rt).toInt) s := rfl

theorem exec_addu (rd rs rt : Reg) (s : State) : exec (.addu rd rs rt) s =
      .next (s.setX rd (s.x rs + s.x rt)) := rfl

theorem exec_sub (rd rs rt : Reg) (s : State) : exec (.sub rd rs rt) s =
      writeOrTrap rd ((s.x rs).toInt - (s.x rt).toInt) s := rfl

theorem exec_subu (rd rs rt : Reg) (s : State) : exec (.subu rd rs rt) s =
      .next (s.setX rd (s.x rs - s.x rt)) := rfl

theorem exec_and (rd rs rt : Reg) (s : State) : exec (.and rd rs rt) s =
      .next (s.setX rd (s.x rs &&& s.x rt)) := rfl

theorem exec_or (rd rs rt : Reg) (s : State) : exec (.or rd rs rt) s =
      .next (s.setX rd (s.x rs ||| s.x rt)) := rfl

theorem exec_xor (rd rs rt : Reg) (s : State) : exec (.xor rd rs rt) s =
      .next (s.setX rd (s.x rs ^^^ s.x rt)) := rfl

theorem exec_nor (rd rs rt : Reg) (s : State) : exec (.nor rd rs rt) s =
      .next (s.setX rd (~~~(s.x rs ||| s.x rt))) := rfl

theorem exec_slt (rd rs rt : Reg) (s : State) : exec (.slt rd rs rt) s =
      .next (s.setX rd (boolWord (decide ((s.x rs).toInt < (s.x rt).toInt)))) := rfl

theorem exec_sltu (rd rs rt : Reg) (s : State) : exec (.sltu rd rs rt) s =
      .next (s.setX rd (boolWord (decide ((s.x rs).toNat < (s.x rt).toNat)))) := rfl

theorem exec_addi (rt rs : Reg) (imm : Imm) (s : State) : exec (.addi rt rs imm) s =
      writeOrTrap rt ((s.x rs).toInt + (sext16 imm).toInt) s := rfl

theorem exec_addiu (rt rs : Reg) (imm : Imm) (s : State) : exec (.addiu rt rs imm) s =
      .next (s.setX rt (s.x rs + sext16 imm)) := rfl

theorem exec_slti (rt rs : Reg) (imm : Imm) (s : State) : exec (.slti rt rs imm) s =
      .next (s.setX rt (boolWord (decide ((s.x rs).toInt < (sext16 imm).toInt)))) := rfl

theorem exec_sltiu (rt rs : Reg) (imm : Imm) (s : State) : exec (.sltiu rt rs imm) s =
      .next (s.setX rt (boolWord (decide ((s.x rs).toNat < (sext16 imm).toNat)))) := rfl

theorem exec_andi (rt rs : Reg) (imm : Imm) (s : State) : exec (.andi rt rs imm) s =
      .next (s.setX rt (s.x rs &&& zext16 imm)) := rfl

theorem exec_ori (rt rs : Reg) (imm : Imm) (s : State) : exec (.ori rt rs imm) s =
      .next (s.setX rt (s.x rs ||| zext16 imm)) := rfl

theorem exec_xori (rt rs : Reg) (imm : Imm) (s : State) : exec (.xori rt rs imm) s =
      .next (s.setX rt (s.x rs ^^^ zext16 imm)) := rfl

theorem exec_lui (rt : Reg) (imm : Imm) (s : State) : exec (.lui rt imm) s =
      .next (s.setX rt (upperImm imm)) := rfl

theorem exec_sll (rd rt : Reg) (shamt : Nat) (s : State) : exec (.sll rd rt shamt) s =
      .next (s.setX rd (s.x rt <<< shamt)) := rfl

theorem exec_srl (rd rt : Reg) (shamt : Nat) (s : State) : exec (.srl rd rt shamt) s =
      .next (s.setX rd (s.x rt >>> shamt)) := rfl

theorem exec_sra (rd rt : Reg) (shamt : Nat) (s : State) : exec (.sra rd rt shamt) s =
      .next (s.setX rd ((s.x rt).sshiftRight shamt)) := rfl

theorem exec_sllv (rd rt rs : Reg) (s : State) : exec (.sllv rd rt rs) s =
      .next (s.setX rd (s.x rt <<< s.shiftAmount rs)) := rfl

theorem exec_srlv (rd rt rs : Reg) (s : State) : exec (.srlv rd rt rs) s =
      .next (s.setX rd (s.x rt >>> s.shiftAmount rs)) := rfl

theorem exec_srav (rd rt rs : Reg) (s : State) : exec (.srav rd rt rs) s =
      .next (s.setX rd ((s.x rt).sshiftRight (s.shiftAmount rs))) := rfl

theorem exec_mult (rs rt : Reg) (s : State) : exec (.mult rs rt) s =
      .next (writeProduct (BitVec.ofInt 64 ((s.x rs).toInt * (s.x rt).toInt)) s) := rfl

theorem exec_multu (rs rt : Reg) (s : State) : exec (.multu rs rt) s =
      .next (writeProduct (BitVec.ofNat 64 ((s.x rs).toNat * (s.x rt).toNat)) s) := rfl

theorem exec_div (rs rt : Reg) (s : State) : exec (.div rs rt) s = execDiv rs rt s := rfl

theorem exec_divu (rs rt : Reg) (s : State) : exec (.divu rs rt) s = execDivu rs rt s := rfl

theorem exec_mfhi (rd : Reg) (s : State) : exec (.mfhi rd) s =
      .next (s.setX rd s.hi) := rfl

theorem exec_mthi (rs : Reg) (s : State) : exec (.mthi rs) s =
      .next { s with hi := s.x rs } := rfl

theorem exec_mflo (rd : Reg) (s : State) : exec (.mflo rd) s =
      .next (s.setX rd s.lo) := rfl

theorem exec_mtlo (rs : Reg) (s : State) : exec (.mtlo rs) s =
      .next { s with lo := s.x rs } := rfl

theorem exec_j (index : BitVec 26) (s : State) : exec (.j index) s =
      doBranch (s.jumpTarget index) true 0 false s := rfl

theorem exec_jal (index : BitVec 26) (s : State) : exec (.jal index) s =
      doBranch (s.jumpTarget index) true 31 false s := rfl

theorem exec_jr (rs : Reg) (s : State) : exec (.jr rs) s =
      doBranch (s.x rs) true 0 false s := rfl

theorem exec_jalr (rd rs : Reg) (s : State) : exec (.jalr rd rs) s =
      doBranch (s.x rs) true rd false s := rfl

theorem exec_beq (rs rt : Reg) (off : Imm) (s : State) : exec (.beq rs rt off) s =
      doBranch (s.branchTarget off) (s.x rs == s.x rt) 0 false s := rfl

theorem exec_bne (rs rt : Reg) (off : Imm) (s : State) : exec (.bne rs rt off) s =
      doBranch (s.branchTarget off) (s.x rs != s.x rt) 0 false s := rfl

theorem exec_blez (rs : Reg) (off : Imm) (s : State) : exec (.blez rs off) s =
      doBranch (s.branchTarget off) (isLez (s.x rs)) 0 false s := rfl

theorem exec_bgtz (rs : Reg) (off : Imm) (s : State) : exec (.bgtz rs off) s =
      doBranch (s.branchTarget off) (isGtz (s.x rs)) 0 false s := rfl

theorem exec_bltz (rs : Reg) (off : Imm) (s : State) : exec (.bltz rs off) s =
      doBranch (s.branchTarget off) (isLtz (s.x rs)) 0 false s := rfl

theorem exec_bgez (rs : Reg) (off : Imm) (s : State) : exec (.bgez rs off) s =
      doBranch (s.branchTarget off) (isGez (s.x rs)) 0 false s := rfl

theorem exec_bltzal (rs : Reg) (off : Imm) (s : State) : exec (.bltzal rs off) s =
      doBranch (s.branchTarget off) (isLtz (s.x rs)) 31 false s := rfl

theorem exec_bgezal (rs : Reg) (off : Imm) (s : State) : exec (.bgezal rs off) s =
      doBranch (s.branchTarget off) (isGez (s.x rs)) 31 false s := rfl

theorem exec_beql (rs rt : Reg) (off : Imm) (s : State) : exec (.beql rs rt off) s =
      doBranch (s.branchTarget off) (s.x rs == s.x rt) 0 true s := rfl

theorem exec_bnel (rs rt : Reg) (off : Imm) (s : State) : exec (.bnel rs rt off) s =
      doBranch (s.branchTarget off) (s.x rs != s.x rt) 0 true s := rfl

theorem exec_blezl (rs : Reg) (off : Imm) (s : State) : exec (.blezl rs off) s =
      doBranch (s.branchTarget off) (isLez (s.x rs)) 0 true s := rfl

theorem exec_bgtzl (rs : Reg) (off : Imm) (s : State) : exec (.bgtzl rs off) s =
      doBranch (s.branchTarget off) (isGtz (s.x rs)) 0 true s := rfl

theorem exec_bltzl (rs : Reg) (off : Imm) (s : State) : exec (.bltzl rs off) s =
      doBranch (s.branchTarget off) (isLtz (s.x rs)) 0 true s := rfl

theorem exec_bgezl (rs : Reg) (off : Imm) (s : State) : exec (.bgezl rs off) s =
      doBranch (s.branchTarget off) (isGez (s.x rs)) 0 true s := rfl

theorem exec_bltzall (rs : Reg) (off : Imm) (s : State) : exec (.bltzall rs off) s =
      doBranch (s.branchTarget off) (isLtz (s.x rs)) 31 true s := rfl

theorem exec_bgezall (rs : Reg) (off : Imm) (s : State) : exec (.bgezall rs off) s =
      doBranch (s.branchTarget off) (isGez (s.x rs)) 31 true s := rfl

theorem exec_lb (rt : Reg) (off : Imm) (rs : Reg) (s : State) : exec (.lb rt off rs) s =
      loadTo rt off rs .one (fun v => sext8 (v.setWidth 8)) s := rfl

theorem exec_lbu (rt : Reg) (off : Imm) (rs : Reg) (s : State) : exec (.lbu rt off rs) s =
      loadTo rt off rs .one (fun v => zext8 (v.setWidth 8)) s := rfl

theorem exec_lh (rt : Reg) (off : Imm) (rs : Reg) (s : State) : exec (.lh rt off rs) s =
      loadTo rt off rs .two (fun v => sext16 (v.setWidth 16)) s := rfl

theorem exec_lhu (rt : Reg) (off : Imm) (rs : Reg) (s : State) : exec (.lhu rt off rs) s =
      loadTo rt off rs .two (fun v => zext16 (v.setWidth 16)) s := rfl

theorem exec_lw (rt : Reg) (off : Imm) (rs : Reg) (s : State) : exec (.lw rt off rs) s =
      loadTo rt off rs .four (fun v => v) s := rfl

theorem exec_lwl (rt : Reg) (off : Imm) (rs : Reg) (s : State) : exec (.lwl rt off rs) s =
      loadMerge mergeLeft rt off rs s := rfl

theorem exec_lwr (rt : Reg) (off : Imm) (rs : Reg) (s : State) : exec (.lwr rt off rs) s =
      loadMerge mergeRight rt off rs s := rfl

theorem exec_sb (rt : Reg) (off : Imm) (rs : Reg) (s : State) : exec (.sb rt off rs) s =
      storeFrom rt off rs .one s := rfl

theorem exec_sh (rt : Reg) (off : Imm) (rs : Reg) (s : State) : exec (.sh rt off rs) s =
      storeFrom rt off rs .two s := rfl

theorem exec_sw (rt : Reg) (off : Imm) (rs : Reg) (s : State) : exec (.sw rt off rs) s =
      storeFrom rt off rs .four s := rfl

theorem exec_swl (rt : Reg) (off : Imm) (rs : Reg) (s : State) : exec (.swl rt off rs) s =
      storeMerge storeLeft rt off rs s := rfl

theorem exec_swr (rt : Reg) (off : Imm) (rs : Reg) (s : State) : exec (.swr rt off rs) s =
      storeMerge storeRight rt off rs s := rfl

theorem exec_ll (rt : Reg) (off : Imm) (rs : Reg) (s : State) : exec (.ll rt off rs) s =
      Res.bind (loadTo rt off rs .four (fun v => v) s) fun t => .next { t with llbit := true } := rfl

theorem exec_sc (rt : Reg) (off : Imm) (rs : Reg) (s : State) : exec (.sc rt off rs) s = execSc rt off rs s := rfl

theorem exec_syscall (code : BitVec 20) (s : State) : exec (.syscall code) s =
      raiseException .syscall s := rfl

theorem exec_brk (code : BitVec 20) (s : State) : exec (.brk code) s =
      raiseException .breakpoint s := rfl

theorem exec_sync (stype : BitVec 5) (s : State) : exec (.sync stype) s =
      .next s := rfl

theorem exec_mfc0 (rt : Reg) (index : Nat) (s : State) : exec (.mfc0 rt index) s =
      Res.bind (cop0Read index s) fun v => .next (s.setX rt v) := rfl

theorem exec_mtc0 (rt : Reg) (index : Nat) (s : State) : exec (.mtc0 rt index) s =
      cop0Write index (s.x rt) s := rfl

theorem exec_eret (s : State) : exec (.eret) s =
      exceptionReturn s := rfl

end Sys2Proof.Machine
end

