-- ==== Sys2Proof/Laws/Frames.lean ====
section
/-! SUPPORT. The frames of Sys2Proof/Safety.lean for the shared operations: writing a register, storing bytes, branching, entering an
exception, and a device's transition. -/

namespace Sys2Proof.Machine

/-- What a written register reads (R21, R22). -/
theorem x_setX_self (s : State) (r : Reg) (v : Word) : (s.setX r v).x r = if r = 0 then 0#32 else v := by
  rw [x_setX]
  by_cases h : r = 0 <;> simp [h]

theorem sameRegs_setX {s t : State} (h : SameRegs [] s t) (r : Reg) (v : Word) : SameRegs [r] s (t.setX r v) := fun q hq => by
  rw [x_setX_of_ne _ _ _ _ (by simpa using hq)]
  exact h q (by simp)

/-- Writing a register changes nothing else. -/
theorem onlyRegs_setX (s : State) (r : Reg) (v : Word) : OnlyRegs [r] s (s.setX r v) :=
  ⟨sameRegs_setX (fun _ _ => rfl) r v, ⟨rfl, rfl⟩, ⟨rfl, rfl, rfl, rfl⟩, ⟨rfl, rfl, rfl⟩, ⟨rfl, rfl, rfl, rfl, rfl, rfl⟩,
    fun _ => rfl⟩

/-- An instruction that only writes a register sets it. -/
theorem setsReg_of_exec {i : Instr} {s : State} {rd : Reg} {v w : Word} (h : exec i s = .next (s.setX rd v)) (hv : v = w) :
    SetsReg i s rd w :=
  hv ▸ ⟨_, h, x_setX_self .., onlyRegs_setX ..⟩

/-- Storing bytes changes nothing else (R67). -/
theorem onlyBytes_store (s : State) (pa n : Nat) (v : Word) :
    OnlyBytes pa n s { s with mem := Memory.storeBytes s.mem pa v n } :=
  ⟨fun _ _ => rfl, ⟨rfl, rfl⟩, ⟨rfl, rfl, rfl, rfl⟩, ⟨rfl, rfl, rfl⟩, ⟨rfl, rfl, rfl, rfl, rfl, rfl⟩,
    fun _ h => byteAt_store_outside _ _ _ _ _ h⟩

/-- A device's transition leaves the CPU alone (R355). -/
theorem DeviceFrame.sameCpu {s t : State} (h : DeviceFrame s t) : SameRegs [] s t ∧ SameCpu s t :=
  ⟨fun r _ => by simp only [State.x, h.regs], ⟨h.lo, h.hi⟩, ⟨h.pc, h.npc, h.dsCur, h.dsNext⟩, h.cop0, h.halted, h.cfg,
    h.phase, h.now, h.handlers⟩

theorem SameCpu.setX {s t : State} (h : SameCpu s t) (r : Reg) (v : Word) : SameCpu s (t.setX r v) :=
  ⟨⟨h.hiLo.lo, h.hiLo.hi⟩, ⟨h.flow.pc, h.flow.npc, h.flow.dsCur, h.flow.dsNext⟩, h.cop0, h.halted, h.cfg, h.phase, h.now,
    h.handlers⟩

/-- A load goes on with the state its read left and one register written. -/
theorem loadTo_next {rt : Reg} {off : Imm} {rs : Reg} {w : Width} {ext : Word → Word} {s t : State} :
    loadTo rt off rs w ext s = .next t ↔
      ∃ p, memRead s (s.ea rs off) w = .next p ∧ t = p.2.setX rt (ext p.1) := by
  simp only [loadTo, bind_eq_next, Host.Outcome.next.injEq, @eq_comm _ t]

theorem loadMerge_next {merge : Nat → Word → Word → Word} {rt : Reg} {off : Imm} {rs : Reg} {s t : State} :
    loadMerge merge rt off rs s = .next t ↔
      ∃ p, memRead s (wordAddr (s.ea rs off)) .four = .next p ∧
        t = p.2.setX rt (merge (byteIndex (s.ea rs off)) p.1 (p.2.x rt)) := by
  simp only [loadMerge, bind_eq_next, Host.Outcome.next.injEq, @eq_comm _ t]

theorem storeMerge_next {merge : Nat → Word → Word → Word} {rt : Reg} {off : Imm} {rs : Reg} {s t : State} :
    storeMerge merge rt off rs s = .next t ↔
      ∃ p, memRead s (wordAddr (s.ea rs off)) .four = .next p ∧
        memWrite p.2 (wordAddr (s.ea rs off)) .four (merge (byteIndex (s.ea rs off)) (p.2.x rt) p.1) = .next t := by
  simp only [storeMerge, bind_eq_next]

theorem Writable.readable {s : State} {a : Word} {w : Width} (h : Writable s a w) : Readable s a w := by
  obtain ⟨r, h1, h2, h3, h4⟩ := h
  exact ⟨r, h1, .inl h2, h3, h4⟩

end Sys2Proof.Machine
end

