-- ==== Sys2Proof/Laws/ExecCases.lean ====
section
/-! SUPPORT. Said once: everything `exec` can do when it goes on. Each invariant and each frame over all instructions is a case
analysis on `Did`. -/

namespace Sys2Proof.Machine

/-- What an access to the bus may have done (R66, R67): nothing but a device's transition, or a store into RAM. -/
inductive Accessed (s t : State) : Prop where
  | device (h : DeviceKeeps s t)
  | stored (u : State) (a : Word) (w : Width) (v : Word) (hu : DeviceKeeps s u) (hw : Writable u a w)
      (h : t = { u with mem := Memory.storeBytes u.mem (u.physical a) v w.bytes })

theorem Accessed.frame {s t : State} (h : Accessed s t) : DeviceFrame s t := by
  cases h with
  | device h => exact h.frame
  | stored u a w v hu hw h =>
    subst h
    exact hu.frame.trans (by constructor <;> rfl)

theorem memRead_accessed {s : State} {a : Word} {w : Width} {p : Word × State} (h : memRead s a w = .next p) :
    Accessed s p.2 := .device (memRead_keeps h)

theorem memWrite_accessed {s t u : State} {a : Word} {w : Width} {v : Word} (hs : DeviceKeeps s u)
    (h : memWrite u a w v = .next t) : Accessed s t := by
  rcases memWrite_next h with h | ⟨hw, rfl⟩
  · exact .device (hs.trans h)
  · exact .stored u a w v hs hw rfl

/-- What an instruction did. -/
inductive Did (i : Instr) (s t : State) : Prop where
  /-- One register written, or none (register 0). -/
  | reg (hc : i.isControlFlow = false) (rd : Reg) (v : Word) (h : t = s.setX rd v)
  /-- SYNC. -/
  | nothing (hc : i.isControlFlow = false) (h : t = s)
  /-- Multiply and divide. -/
  | product (rs rt : Reg) (hi : i = .mult rs rt ∨ i = .multu rs rt ∨ i = .div rs rt ∨ i = .divu rs rt) (lo hi' : Word)
      (draws : Nat) (h : t = { s with lo := lo, hi := hi', draws := draws })
  | mthi (rs : Reg) (hi : i = .mthi rs) (h : t = { s with hi := s.x rs })
  | mtlo (rs : Reg) (hi : i = .mtlo rs) (h : t = { s with lo := s.x rs })
  /-- The twenty control-flow instructions. -/
  | branch (hc : i.isControlFlow = true) (target : Word) (cond : Bool) (link : Reg) (likely : Bool)
      (h : doBranch target cond link likely s = .next t)
  /-- Loads and stores, with the register written after the access; LL sets the reservation. -/
  | load (hc : i.isControlFlow = false) (u : State) (hu : Accessed s u) (rt : Reg) (v : Word) (h : t = u.setX rt v)
  | loadLinked (rt rs : Reg) (off : Imm) (hi : i = .ll rt off rs) (u : State) (hu : Accessed s u) (v : Word)
      (h : t = { u.setX rt v with llbit := true })
  | store (hc : i.isControlFlow = false) (h : Accessed s t)
  /-- SYSCALL, BREAK, and the overflowing forms. -/
  | exception (hc : i.isControlFlow = false) (e : Exc) (he : e ≠ .interrupt) (h : raiseException e s = .next t)
  | mtc0 (rt : Reg) (index : Nat) (hi : i = .mtc0 rt index) (h : cop0Write index (s.x rt) s = .next t)
  | eret (hi : i = .eret) (h : exceptionReturn s = .next t)

theorem did_writeOrTrap {i : Instr} {s t : State} {rd : Reg} {n : Int} (hc : i.isControlFlow = false)
    (h : writeOrTrap rd n s = .next t) : Did i s t := by
  rcases writeOrTrap_next h with ⟨-, h⟩ | ⟨-, h⟩
  · exact .reg hc rd _ h
  · exact .exception hc _ (by decide) h

theorem did_loadTo {i : Instr} {s t : State} {rt : Reg} {off : Imm} {rs : Reg} {w : Width} {ext : Word → Word}
    (hc : i.isControlFlow = false) (h : loadTo rt off rs w ext s = .next t) : Did i s t := by
  obtain ⟨p, hp, h⟩ := loadTo_next.1 h
  exact .load hc p.2 (memRead_accessed hp) rt _ h

theorem did_loadMerge {i : Instr} {s t : State} {merge : Nat → Word → Word → Word} {rt : Reg} {off : Imm} {rs : Reg}
    (hc : i.isControlFlow = false) (h : loadMerge merge rt off rs s = .next t) : Did i s t := by
  obtain ⟨p, hp, h⟩ := loadMerge_next.1 h
  exact .load hc p.2 (memRead_accessed hp) rt _ h

theorem did_storeFrom {i : Instr} {s t : State} {rt : Reg} {off : Imm} {rs : Reg} {w : Width}
    (hc : i.isControlFlow = false) (h : storeFrom rt off rs w s = .next t) : Did i s t :=
  .store hc (memWrite_accessed (.refl s) h)

theorem did_storeMerge {i : Instr} {s t : State} {merge : Nat → Word → Word → Word} {rt : Reg} {off : Imm} {rs : Reg}
    (hc : i.isControlFlow = false) (h : storeMerge merge rt off rs s = .next t) : Did i s t := by
  obtain ⟨p, hp, h⟩ := storeMerge_next.1 h
  exact .store hc (memWrite_accessed (memRead_keeps hp) h)

theorem did_next {i : Instr} {s t : State} {rd : Reg} {v : Word} (hc : i.isControlFlow = false)
    (h : Host.Outcome.next (s.setX rd v) = (Host.Outcome.next t : Res State)) : Did i s t :=
  .reg hc rd v (Host.Outcome.next.inj h).symm

/-- All that an instruction can do when it goes on. -/
theorem exec_did {i : Instr} {s t : State} (h : exec i s = .next t) : Did i s t := by
  cases i
  case add => exact did_writeOrTrap rfl h
  case sub => exact did_writeOrTrap rfl h
  case addi => exact did_writeOrTrap rfl h
  case mult rs rt => exact .product rs rt (.inl rfl) _ _ s.draws (Host.Outcome.next.inj h).symm
  case multu rs rt => exact .product rs rt (.inr (.inl rfl)) _ _ s.draws (Host.Outcome.next.inj h).symm
  case div rs rt =>
    simp only [exec_div, execDiv] at h
    split at h <;> exact .product rs rt (.inr (.inr (.inl rfl))) _ _ _ (Host.Outcome.next.inj h).symm
  case divu rs rt =>
    simp only [exec_divu, execDivu] at h
    split at h <;> exact .product rs rt (.inr (.inr (.inr rfl))) _ _ _ (Host.Outcome.next.inj h).symm
  case mthi rs => exact .mthi rs rfl (Host.Outcome.next.inj h).symm
  case mtlo rs => exact .mtlo rs rfl (Host.Outcome.next.inj h).symm
  case lb => rw [exec_lb] at h; exact did_loadTo rfl h
  case lbu => rw [exec_lbu] at h; exact did_loadTo rfl h
  case lh => rw [exec_lh] at h; exact did_loadTo rfl h
  case lhu => rw [exec_lhu] at h; exact did_loadTo rfl h
  case lw => rw [exec_lw] at h; exact did_loadTo rfl h
  case lwl => rw [exec_lwl] at h; exact did_loadMerge rfl h
  case lwr => rw [exec_lwr] at h; exact did_loadMerge rfl h
  case sb => rw [exec_sb] at h; exact did_storeFrom rfl h
  case sh => rw [exec_sh] at h; exact did_storeFrom rfl h
  case sw => rw [exec_sw] at h; exact did_storeFrom rfl h
  case swl => rw [exec_swl] at h; exact did_storeMerge rfl h
  case swr => rw [exec_swr] at h; exact did_storeMerge rfl h
  case ll rt off rs =>
    obtain ⟨u, hu, ht⟩ := bind_eq_next.1 h
    obtain ⟨p, hp, rfl⟩ := loadTo_next.1 hu
    exact .loadLinked rt rs off rfl p.2 (memRead_accessed hp) _ (Host.Outcome.next.inj ht).symm
  case sc rt off rs =>
    rw [exec_sc, execSc] at h
    split at h
    · obtain ⟨u, hu, ht⟩ := bind_eq_next.1 h
      exact .load rfl u (memWrite_accessed (.refl s) hu) rt _ (Host.Outcome.next.inj ht).symm
    · exact did_next rfl h
  case syscall => exact .exception rfl .syscall (by decide) h
  case brk => exact .exception rfl .breakpoint (by decide) h
  case sync => exact .nothing rfl (Host.Outcome.next.inj h).symm
  case mfc0 rt index =>
    obtain ⟨v, -, ht⟩ := bind_eq_next.1 h
    exact did_next rfl ht
  case mtc0 rt index => exact .mtc0 rt index rfl h
  case eret => exact .eret rfl h
  all_goals first
    | exact did_next rfl h
    | exact .branch rfl _ _ _ _ h

/-- No instruction changes the parameters, the run loop or the clock. -/
theorem exec_platform {i : Instr} {s t : State} (h : exec i s = .next t) :
    t.cfg = s.cfg ∧ t.phase = s.phase ∧ t.sched.now = s.sched.now := by
  cases exec_did h with
  | reg _ _ _ h => subst h; exact ⟨rfl, rfl, rfl⟩
  | nothing _ h => subst h; exact ⟨rfl, rfl, rfl⟩
  | product _ _ _ _ _ _ h => subst h; exact ⟨rfl, rfl, rfl⟩
  | mthi _ _ h => subst h; exact ⟨rfl, rfl, rfl⟩
  | mtlo _ _ h => subst h; exact ⟨rfl, rfl, rfl⟩
  | branch _ _ _ _ _ h =>
    obtain ⟨-, ⟨-, -, rfl⟩ | ⟨-, -, rfl⟩ | ⟨-, -, rfl⟩⟩ := doBranch_next.1 h <;> exact ⟨rfl, rfl, rfl⟩
  | load _ u hu _ _ h => subst h; exact ⟨hu.frame.cfg, hu.frame.phase, hu.frame.now⟩
  | loadLinked _ _ _ _ u hu _ h => subst h; exact ⟨hu.frame.cfg, hu.frame.phase, hu.frame.now⟩
  | store _ h => exact ⟨h.frame.cfg, h.frame.phase, h.frame.now⟩
  | exception _ _ _ h => obtain ⟨-, rfl⟩ := raiseException_next.1 h; exact ⟨rfl, rfl, rfl⟩
  | mtc0 _ _ _ h => obtain ⟨c, rfl, -⟩ := cop0Write_next h; exact ⟨rfl, rfl, rfl⟩
  | eret _ h => obtain ⟨-, -, rfl⟩ := exceptionReturn_next.1 h; exact ⟨rfl, rfl, rfl⟩

end Sys2Proof.Machine
end

