-- ==== Sys2Proof/Laws/PerInstr.lean ====
section
/-! SUPPORT. For every instruction: its encoding is a word of its own row of the opcode table (30_encoding.md R104), and the lemmas
about the masks of the table they go through. -/

namespace Sys2Proof

/-! ## The masks of the table, by format -/

theorem and_ones6 (v : BitVec 6) : v &&& 63#6 = v := BitVec.and_allOnes
theorem and_ones5 (v : BitVec 5) : v &&& 31#5 = v := BitVec.and_allOnes

section
variable (op f : BitVec 6) (rs rt rd : Reg) (sa : BitVec 5)

theorem mask_threeRegs : rType op rs rt rd sa f &&& 0xFC0007FF#32 = rType op 0 0 0 sa f := by
  rw [show 0xFC0007FF#32 = rType 63 0 0 0 31 63 from rfl, rType_and]
  simp [rType, regBits, and_ones6, and_ones5]

theorem mask_shift : rType op rs rt rd sa f &&& 0xFFE0003F#32 = rType op rs 0 0 0 f := by
  rw [show 0xFFE0003F#32 = rType 63 31 0 0 0 63 from rfl, rType_and]
  simp [rType, regBits, and_ones6, and_ones5]

theorem mask_sources : rType op rs rt rd sa f &&& 0xFC00FFFF#32 = rType op 0 0 rd sa f := by
  rw [show 0xFC00FFFF#32 = rType 63 0 0 31 31 63 from rfl, rType_and]
  simp [rType, regBits, and_ones6, and_ones5]

theorem mask_dest : rType op rs rt rd sa f &&& 0xFFFF07FF#32 = rType op rs rt 0 sa f := by
  rw [show 0xFFFF07FF#32 = rType 63 31 31 0 31 63 from rfl, rType_and]
  simp [rType, regBits, and_ones6, and_ones5]

theorem mask_source : rType op rs rt rd sa f &&& 0xFC1FFFFF#32 = rType op 0 rt rd sa f := by
  rw [show 0xFC1FFFFF#32 = rType 63 0 31 31 31 63 from rfl, rType_and]
  simp [rType, regBits, and_ones6, and_ones5]

theorem mask_link : rType op rs rt rd sa f &&& 0xFC1F07FF#32 = rType op 0 rt 0 sa f := by
  rw [show 0xFC1F07FF#32 = rType 63 0 31 0 31 63 from rfl, rType_and]
  simp [rType, regBits, and_ones6, and_ones5]

theorem mask_stype : rType op rs rt rd sa f &&& 0xFFFFF83F#32 = rType op rs rt rd 0 f := by
  rw [show 0xFFFFF83F#32 = rType 63 31 31 31 0 63 from rfl, rType_and]
  simp [rType, regBits, and_ones6, and_ones5]

end

section
variable (op : BitVec 6) (rs rt : Reg) (imm : Imm)

theorem mask_imm : iType op rs rt imm &&& 0xFC000000#32 = iType op 0 0 0 := by
  rw [show 0xFC000000#32 = iType 63 0 0 0 from rfl, iType_and]
  simp [iType, regBits, and_ones6]

theorem mask_upperImm : iType op rs rt imm &&& 0xFFE00000#32 = iType op rs 0 0 := by
  rw [show 0xFFE00000#32 = iType 63 31 0 0 from rfl, iType_and]
  simp [iType, regBits, and_ones6, and_ones5]

theorem mask_branch : iType op rs rt imm &&& 0xFC1F0000#32 = iType op 0 rt 0 := by
  rw [show 0xFC1F0000#32 = iType 63 0 31 0 from rfl, iType_and]
  simp [iType, regBits, and_ones6, and_ones5]

end

theorem mask_index (op : BitVec 6) (index : BitVec 26) : jType op index &&& 0xFC000000#32 = jType op 0 := by
  rw [show 0xFC000000#32 = jType 63 0 from rfl, jType_and]
  simp [jType, and_ones6]

theorem mask_code (code : BitVec 20) (f : BitVec 6) : codeType code f &&& 0xFC00003F#32 = codeType 0 f := by
  rw [show 0xFC00003F#32 = (63#6 ++ 0#20 ++ 63#6 : BitVec 32) from rfl, codeType_and]
  simp [codeType, and_ones6]

theorem mask_cop0 (rs : BitVec 5) (rt : Reg) (index : Nat) :
    cop0Type rs rt index &&& 0xFFE007FF#32 = cop0Type rs 0 0 := by
  rw [show 0xFFE007FF#32 = (63#6 ++ 31#5 ++ 0#5 ++ 0#5 ++ 2047#11 : BitVec 32) from rfl, cop0Type_and]
  simp [cop0Type, regBits, and_ones6, and_ones5]

/-- The row at a position of the table is a row of the table. -/
theorem row_mem {k : Nat} {row : TableRow} (h : opcodeTable[k]? = some row) : row ∈ opcodeTable :=
  List.mem_of_getElem? h

end Sys2Proof

namespace Sys2Proof.Laws.TableRow

/-- The instruction's encoding is a word of the table's row that bears its mnemonic (R104). -/
def Statement (i : Instr) : Prop :=
  ∃ row ∈ opcodeTable, row.mnemonic = i.mnemonic ∧ row.covers (encode i)

theorem add (rd : Reg) (rs : Reg) (rt : Reg) : Statement (.add rd rs rt) :=
  ⟨_, row_mem (k := 0) rfl, rfl, mask_threeRegs ..⟩

theorem addu (rd : Reg) (rs : Reg) (rt : Reg) : Statement (.addu rd rs rt) :=
  ⟨_, row_mem (k := 1) rfl, rfl, mask_threeRegs ..⟩

theorem sub (rd : Reg) (rs : Reg) (rt : Reg) : Statement (.sub rd rs rt) :=
  ⟨_, row_mem (k := 2) rfl, rfl, mask_threeRegs ..⟩

theorem subu (rd : Reg) (rs : Reg) (rt : Reg) : Statement (.subu rd rs rt) :=
  ⟨_, row_mem (k := 3) rfl, rfl, mask_threeRegs ..⟩

theorem and (rd : Reg) (rs : Reg) (rt : Reg) : Statement (.and rd rs rt) :=
  ⟨_, row_mem (k := 4) rfl, rfl, mask_threeRegs ..⟩

theorem or (rd : Reg) (rs : Reg) (rt : Reg) : Statement (.or rd rs rt) :=
  ⟨_, row_mem (k := 5) rfl, rfl, mask_threeRegs ..⟩

theorem xor (rd : Reg) (rs : Reg) (rt : Reg) : Statement (.xor rd rs rt) :=
  ⟨_, row_mem (k := 6) rfl, rfl, mask_threeRegs ..⟩

theorem nor (rd : Reg) (rs : Reg) (rt : Reg) : Statement (.nor rd rs rt) :=
  ⟨_, row_mem (k := 7) rfl, rfl, mask_threeRegs ..⟩

theorem slt (rd : Reg) (rs : Reg) (rt : Reg) : Statement (.slt rd rs rt) :=
  ⟨_, row_mem (k := 8) rfl, rfl, mask_threeRegs ..⟩

theorem sltu (rd : Reg) (rs : Reg) (rt : Reg) : Statement (.sltu rd rs rt) :=
  ⟨_, row_mem (k := 9) rfl, rfl, mask_threeRegs ..⟩

theorem addi (rt : Reg) (rs : Reg) (imm : Imm) : Statement (.addi rt rs imm) :=
  ⟨_, row_mem (k := 10) rfl, rfl, mask_imm ..⟩

theorem addiu (rt : Reg) (rs : Reg) (imm : Imm) : Statement (.addiu rt rs imm) :=
  ⟨_, row_mem (k := 11) rfl, rfl, mask_imm ..⟩

theorem slti (rt : Reg) (rs : Reg) (imm : Imm) : Statement (.slti rt rs imm) :=
  ⟨_, row_mem (k := 12) rfl, rfl, mask_imm ..⟩

theorem sltiu (rt : Reg) (rs : Reg) (imm : Imm) : Statement (.sltiu rt rs imm) :=
  ⟨_, row_mem (k := 13) rfl, rfl, mask_imm ..⟩

theorem andi (rt : Reg) (rs : Reg) (imm : Imm) : Statement (.andi rt rs imm) :=
  ⟨_, row_mem (k := 14) rfl, rfl, mask_imm ..⟩

theorem ori (rt : Reg) (rs : Reg) (imm : Imm) : Statement (.ori rt rs imm) :=
  ⟨_, row_mem (k := 15) rfl, rfl, mask_imm ..⟩

theorem xori (rt : Reg) (rs : Reg) (imm : Imm) : Statement (.xori rt rs imm) :=
  ⟨_, row_mem (k := 16) rfl, rfl, mask_imm ..⟩

theorem lui (rt : Reg) (imm : Imm) : Statement (.lui rt imm) :=
  ⟨_, row_mem (k := 17) rfl, rfl, mask_upperImm ..⟩

theorem sll (rd : Reg) (rt : Reg) (shamt : Nat) : Statement (.sll rd rt shamt) :=
  ⟨_, row_mem (k := 18) rfl, rfl, mask_shift ..⟩

theorem srl (rd : Reg) (rt : Reg) (shamt : Nat) : Statement (.srl rd rt shamt) :=
  ⟨_, row_mem (k := 19) rfl, rfl, mask_shift ..⟩

theorem sra (rd : Reg) (rt : Reg) (shamt : Nat) : Statement (.sra rd rt shamt) :=
  ⟨_, row_mem (k := 20) rfl, rfl, mask_shift ..⟩

theorem sllv (rd : Reg) (rt : Reg) (rs : Reg) : Statement (.sllv rd rt rs) :=
  ⟨_, row_mem (k := 21) rfl, rfl, mask_threeRegs ..⟩

theorem srlv (rd : Reg) (rt : Reg) (rs : Reg) : Statement (.srlv rd rt rs) :=
  ⟨_, row_mem (k := 22) rfl, rfl, mask_threeRegs ..⟩

theorem srav (rd : Reg) (rt : Reg) (rs : Reg) : Statement (.srav rd rt rs) :=
  ⟨_, row_mem (k := 23) rfl, rfl, mask_threeRegs ..⟩

theorem mult (rs : Reg) (rt : Reg) : Statement (.mult rs rt) :=
  ⟨_, row_mem (k := 24) rfl, rfl, mask_sources ..⟩

theorem multu (rs : Reg) (rt : Reg) : Statement (.multu rs rt) :=
  ⟨_, row_mem (k := 25) rfl, rfl, mask_sources ..⟩

theorem div (rs : Reg) (rt : Reg) : Statement (.div rs rt) :=
  ⟨_, row_mem (k := 26) rfl, rfl, mask_sources ..⟩

theorem divu (rs : Reg) (rt : Reg) : Statement (.divu rs rt) :=
  ⟨_, row_mem (k := 27) rfl, rfl, mask_sources ..⟩

theorem mfhi (rd : Reg) : Statement (.mfhi rd) :=
  ⟨_, row_mem (k := 28) rfl, rfl, mask_dest ..⟩

theorem mthi (rs : Reg) : Statement (.mthi rs) :=
  ⟨_, row_mem (k := 29) rfl, rfl, mask_source ..⟩

theorem mflo (rd : Reg) : Statement (.mflo rd) :=
  ⟨_, row_mem (k := 30) rfl, rfl, mask_dest ..⟩

theorem mtlo (rs : Reg) : Statement (.mtlo rs) :=
  ⟨_, row_mem (k := 31) rfl, rfl, mask_source ..⟩

theorem j (index : BitVec 26) : Statement (.j index) :=
  ⟨_, row_mem (k := 32) rfl, rfl, mask_index ..⟩

theorem jal (index : BitVec 26) : Statement (.jal index) :=
  ⟨_, row_mem (k := 33) rfl, rfl, mask_index ..⟩

theorem jr (rs : Reg) : Statement (.jr rs) :=
  ⟨_, row_mem (k := 34) rfl, rfl, mask_source ..⟩

theorem jalr (rd : Reg) (rs : Reg) : Statement (.jalr rd rs) :=
  ⟨_, row_mem (k := 35) rfl, rfl, mask_link ..⟩

theorem beq (rs : Reg) (rt : Reg) (off : Imm) : Statement (.beq rs rt off) :=
  ⟨_, row_mem (k := 36) rfl, rfl, mask_imm ..⟩

theorem bne (rs : Reg) (rt : Reg) (off : Imm) : Statement (.bne rs rt off) :=
  ⟨_, row_mem (k := 37) rfl, rfl, mask_imm ..⟩

theorem blez (rs : Reg) (off : Imm) : Statement (.blez rs off) :=
  ⟨_, row_mem (k := 38) rfl, rfl, mask_branch ..⟩

theorem bgtz (rs : Reg) (off : Imm) : Statement (.bgtz rs off) :=
  ⟨_, row_mem (k := 39) rfl, rfl, mask_branch ..⟩

theorem bltz (rs : Reg) (off : Imm) : Statement (.bltz rs off) :=
  ⟨_, row_mem (k := 40) rfl, rfl, mask_branch ..⟩

theorem bgez (rs : Reg) (off : Imm) : Statement (.bgez rs off) :=
  ⟨_, row_mem (k := 41) rfl, rfl, mask_branch ..⟩

theorem bltzal (rs : Reg) (off : Imm) : Statement (.bltzal rs off) :=
  ⟨_, row_mem (k := 42) rfl, rfl, mask_branch ..⟩

theorem bgezal (rs : Reg) (off : Imm) : Statement (.bgezal rs off) :=
  ⟨_, row_mem (k := 43) rfl, rfl, mask_branch ..⟩

theorem beql (rs : Reg) (rt : Reg) (off : Imm) : Statement (.beql rs rt off) :=
  ⟨_, row_mem (k := 44) rfl, rfl, mask_imm ..⟩

theorem bnel (rs : Reg) (rt : Reg) (off : Imm) : Statement (.bnel rs rt off) :=
  ⟨_, row_mem (k := 45) rfl, rfl, mask_imm ..⟩

theorem blezl (rs : Reg) (off : Imm) : Statement (.blezl rs off) :=
  ⟨_, row_mem (k := 46) rfl, rfl, mask_branch ..⟩

theorem bgtzl (rs : Reg) (off : Imm) : Statement (.bgtzl rs off) :=
  ⟨_, row_mem (k := 47) rfl, rfl, mask_branch ..⟩

theorem bltzl (rs : Reg) (off : Imm) : Statement (.bltzl rs off) :=
  ⟨_, row_mem (k := 48) rfl, rfl, mask_branch ..⟩

theorem bgezl (rs : Reg) (off : Imm) : Statement (.bgezl rs off) :=
  ⟨_, row_mem (k := 49) rfl, rfl, mask_branch ..⟩

theorem bltzall (rs : Reg) (off : Imm) : Statement (.bltzall rs off) :=
  ⟨_, row_mem (k := 50) rfl, rfl, mask_branch ..⟩

theorem bgezall (rs : Reg) (off : Imm) : Statement (.bgezall rs off) :=
  ⟨_, row_mem (k := 51) rfl, rfl, mask_branch ..⟩

theorem lb (rt : Reg) (off : Imm) (rs : Reg) : Statement (.lb rt off rs) :=
  ⟨_, row_mem (k := 52) rfl, rfl, mask_imm ..⟩

theorem lbu (rt : Reg) (off : Imm) (rs : Reg) : Statement (.lbu rt off rs) :=
  ⟨_, row_mem (k := 53) rfl, rfl, mask_imm ..⟩

theorem lh (rt : Reg) (off : Imm) (rs : Reg) : Statement (.lh rt off rs) :=
  ⟨_, row_mem (k := 54) rfl, rfl, mask_imm ..⟩

theorem lhu (rt : Reg) (off : Imm) (rs : Reg) : Statement (.lhu rt off rs) :=
  ⟨_, row_mem (k := 55) rfl, rfl, mask_imm ..⟩

theorem lw (rt : Reg) (off : Imm) (rs : Reg) : Statement (.lw rt off rs) :=
  ⟨_, row_mem (k := 56) rfl, rfl, mask_imm ..⟩

theorem lwl (rt : Reg) (off : Imm) (rs : Reg) : Statement (.lwl rt off rs) :=
  ⟨_, row_mem (k := 57) rfl, rfl, mask_imm ..⟩

theorem lwr (rt : Reg) (off : Imm) (rs : Reg) : Statement (.lwr rt off rs) :=
  ⟨_, row_mem (k := 58) rfl, rfl, mask_imm ..⟩

theorem sb (rt : Reg) (off : Imm) (rs : Reg) : Statement (.sb rt off rs) :=
  ⟨_, row_mem (k := 59) rfl, rfl, mask_imm ..⟩

theorem sh (rt : Reg) (off : Imm) (rs : Reg) : Statement (.sh rt off rs) :=
  ⟨_, row_mem (k := 60) rfl, rfl, mask_imm ..⟩

theorem sw (rt : Reg) (off : Imm) (rs : Reg) : Statement (.sw rt off rs) :=
  ⟨_, row_mem (k := 61) rfl, rfl, mask_imm ..⟩

theorem swl (rt : Reg) (off : Imm) (rs : Reg) : Statement (.swl rt off rs) :=
  ⟨_, row_mem (k := 62) rfl, rfl, mask_imm ..⟩

theorem swr (rt : Reg) (off : Imm) (rs : Reg) : Statement (.swr rt off rs) :=
  ⟨_, row_mem (k := 63) rfl, rfl, mask_imm ..⟩

theorem ll (rt : Reg) (off : Imm) (rs : Reg) : Statement (.ll rt off rs) :=
  ⟨_, row_mem (k := 64) rfl, rfl, mask_imm ..⟩

theorem sc (rt : Reg) (off : Imm) (rs : Reg) : Statement (.sc rt off rs) :=
  ⟨_, row_mem (k := 65) rfl, rfl, mask_imm ..⟩

theorem syscall (code : BitVec 20) : Statement (.syscall code) :=
  ⟨_, row_mem (k := 66) rfl, rfl, mask_code ..⟩

theorem brk (code : BitVec 20) : Statement (.brk code) :=
  ⟨_, row_mem (k := 67) rfl, rfl, mask_code ..⟩

theorem sync (stype : BitVec 5) : Statement (.sync stype) :=
  ⟨_, row_mem (k := 68) rfl, rfl, mask_stype ..⟩

theorem mfc0 (rt : Reg) (index : Nat) : Statement (.mfc0 rt index) :=
  ⟨_, row_mem (k := 69) rfl, rfl, mask_cop0 ..⟩

theorem mtc0 (rt : Reg) (index : Nat) : Statement (.mtc0 rt index) :=
  ⟨_, row_mem (k := 70) rfl, rfl, mask_cop0 ..⟩

theorem eret : Statement (.eret) :=
  ⟨_, row_mem (k := 71) rfl, rfl, rfl⟩

end Sys2Proof.Laws.TableRow
end

