-- ==== Sys2Proof/Laws/Regions.lean ====
section
/-! SUPPORT. The region table of a well-formed configuration (20_memory.md R63): each address has at most one owner, so the search
finds the region that contains it. -/

namespace Sys2Proof.Machine

theorem Config.apart_of_wf {c : Config} (h : c.wf = true) : c.regions.Pairwise (fun r q => r.apart q = true) := by
  simp only [Config.wf, Bool.and_eq_true, decide_eq_true_eq] at h
  exact h.1.1.1.1.1.1.1.1.1.1.2

theorem Region.not_has_of_apart {r q : Region} {pa : Nat} (h : r.apart q = true) (hr : r.has pa = true) :
    q.has pa = false := by
  simp only [Region.apart, Region.has, Bool.or_eq_true, Bool.and_eq_true, decide_eq_true_eq] at h hr
  simp only [Region.has, Bool.and_eq_false_iff, decide_eq_false_iff_not]
  omega

theorem find_of_apart {l : List Region} (h : l.Pairwise (fun r q => r.apart q = true)) {r : Region} {pa : Nat} (hm : r ∈ l)
    (hr : r.has pa = true) : l.find? (fun q => q.has pa) = some r := by
  induction l with
  | nil => cases hm
  | cons q rest ih =>
    obtain ⟨hq, hrest⟩ := List.pairwise_cons.1 h
    rcases List.mem_cons.1 hm with rfl | hm
    · simp [List.find?, hr]
    · have hn : q.has pa = false := by
        by_contra hc
        have := Region.not_has_of_apart (hq r hm) (by simpa using hc : q.has pa = true)
        simp [this] at hr
      simp [List.find?, hn, ih hrest hm]

/-- The owner of an address is the region that contains it, whatever the order of the table (R63). -/
theorem regionOf_of_has {s : State} (h : s.cfg.wf = true) {r : Region} {pa : Nat} (hm : r ∈ s.cfg.regions)
    (hr : r.has pa = true) : s.regionOf pa = some r :=
  find_of_apart (Config.apart_of_wf h) hm hr

theorem regionOf_mem {s : State} {r : Region} {pa : Nat} (h : s.regionOf pa = some r) :
    r ∈ s.cfg.regions ∧ r.has pa = true :=
  ⟨List.mem_of_find?_eq_some h, by simpa using List.find?_some h⟩

/-- Every byte of a region that owns one of its addresses is owned by it. -/
theorem regionOf_add {s : State} (h : s.cfg.wf = true) {r : Region} {pa k : Nat} (hr : s.regionOf pa = some r)
    (hk : pa + k < r.base + r.size) : s.regionOf (pa + k) = some r := by
  obtain ⟨hm, hh⟩ := regionOf_mem hr
  refine regionOf_of_has h hm ?_
  simp only [Region.has, Bool.and_eq_true, decide_eq_true_eq] at hh ⊢
  omega

/-- The ROM region is the one the table names (R63: exactly one entry is owned by ROM). -/
theorem romRegion_of_mem {c : Config} (h : c.wf = true) {r : Region} (hm : r ∈ c.regions) (ho : r.owner = .rom) :
    romRegion c = some r := by
  simp only [Config.wf, Bool.and_eq_true, decide_eq_true_eq] at h
  obtain ⟨q, hq⟩ := List.length_eq_one_iff.1 h.1.1.1.1.1.1.1.1.2
  have hone : ∀ p ∈ c.regions, p.owner = .rom → p = q := fun p hp hpo =>
    List.mem_singleton.1 (hq ▸ List.mem_filter.2 ⟨hp, by simp [hpo]⟩)
  obtain ⟨p, hp⟩ := Option.isSome_iff_exists.1
    (List.find?_isSome.2 ⟨r, hm, by simp [ho]⟩ : (c.regions.find? fun r => r.owner == .rom).isSome)
  have hpr := hone p (List.mem_of_find?_eq_some hp) (by simpa using List.find?_some hp)
  rw [romRegion, hp, hpr, hone r hm ho]

theorem ramRegion_mem {s : State} {r : Region} (h : s.ramRegion = some r) : r ∈ s.cfg.regions ∧ r.owner = .ram :=
  ⟨List.mem_of_find?_eq_some h, by simpa using List.find?_some h⟩

/-- No access of an instruction changes a byte that RAM does not own (R65, R355). -/
theorem Accessed.bytes {s t : State} (hw : s.cfg.wf = true) (h : Accessed s t) {pa : Nat}
    (hpa : ∀ r, s.regionOf pa = some r → r.owner ≠ .ram) : t.byteAt pa = s.byteAt pa := by
  have hdev : ∀ u, DeviceKeeps s u → u.byteAt pa = s.byteAt pa := fun u hu => hu.bytes pa fun r hr => by
    obtain ⟨hm, ho⟩ := ramRegion_mem hr
    by_contra hc
    exact hpa r (regionOf_of_has hw hm (by simpa using hc)) ho
  cases h with
  | device h => exact hdev t h
  | stored u a w v hu hwr h =>
    subst h
    rw [byteAt_store_outside, hdev u hu]
    obtain ⟨r, hr, ho, he, -⟩ := hwr
    have hcfg : u.regionOf = s.regionOf := by
      funext x
      simp only [State.regionOf, hu.frame.cfg]
    by_contra hc
    rw [hcfg] at hr
    have hx : pa = u.physical a + (pa - u.physical a) := by omega
    have := regionOf_add hw hr (k := pa - u.physical a) (by omega)
    rw [← hx] at this
    exact hpa r this ho

end Sys2Proof.Machine
end

