-- ==== Sys2Proof/Laws/Windows.lean ====
section
/-! SUPPORT. Device windows: a peripheral's answer is what its bus transition and its callback do (60_exceptions.md R351, R354), and
the loads and stores do what their bus accesses answer (45_load_store.md R231). -/

namespace Sys2Proof.Machine

theorem replied_iff {s t : State} {d : Nat} {c : DeviceCall} {reply : DeviceReply} :
    Replied s d c reply t ↔ takeReply d c s = (reply, t) := by
  unfold Replied takeReply
  cases h : s.replies <;> simp [eq_comm, and_comm]

/-- Every call has an answer, scripted or drawn. -/
theorem answers_exists (s : State) (d : Nat) (c : DeviceCall) : ∃ v q, Answers s d c v q := by
  rcases h : takeReply d c s with ⟨_ | ⟨v, es⟩, t⟩
  · exact ⟨0#32, _, .unhandled _ t (replied_iff.2 h)⟩
  · exact ⟨v, _, .done v es t (replied_iff.2 h)⟩

theorem peripheralRead_of_answers {s : State} {d pa : Nat} {w : Width} {v : Word} {q : Res State}
    (h : Answers s d (.read pa w) v q) : peripheralRead d pa w s = Res.bind q fun u => .next (v, u) := by
  cases h with
  | done es t h => rw [peripheralRead, replied_iff.1 h]
  | unhandled t h => rw [peripheralRead, replied_iff.1 h]; rfl

theorem peripheralWrite_of_answers {s : State} {d pa : Nat} {w : Width} {x v : Word} {q : Res State}
    (h : Answers s d (.write pa w x) v q) : peripheralWrite d pa w x s = q := by
  cases h with
  | done es t h => rw [peripheralWrite, replied_iff.1 h]
  | unhandled t h => rw [peripheralWrite, replied_iff.1 h]; rfl

theorem runCallback_of_answers {s : State} {d n : Nat} {p : Param} {v : Word} {q : Res State}
    (hd : s.sched.handlers[n]? = some d) (h : Answers s d (.callback n p) v q) : runCallback n p s = q := by
  cases h with
  | done es t h => simp only [runCallback, hd, replied_iff.1 h]
  | unhandled t h => simp only [runCallback, hd, replied_iff.1 h]; rfl

/-- A device's transition changes no general register (R355). -/
theorem answers_x {s u : State} {d : Nat} {c : DeviceCall} {v : Word} (h : Answers s d c v (.next u)) (r : Reg) :
    u.x r = s.x r := by
  generalize hq : (Host.Outcome.next u : Res State) = q at h
  cases h with
  | done es t h =>
    have hk := takeReply_keeps d c s
    rw [replied_iff.1 h] at hk
    exact x_congr (hk.trans (applyEffects_keeps hq.symm)).frame.regs r
  | unhandled t h => cases c <;> cases hq

/-! ## The bus in a device's window -/

theorem memRead_peripheral {s : State} {a : Word} {w : Width} {r : Region} {d : Nat} {v : Word} {q : Res State}
    (hr : s.regionOf (s.physical a) = some r) (ho : r.owner = .device (.peripheral d))
    (h : Answers s d (.read (s.physical a) w) v q) :
    memRead s a w = Res.bind q fun u => .next (truncate w v, u) := by
  simp only [memRead, hr, ho, peripheralRead_of_answers h]
  cases q <;> rfl

theorem memWrite_peripheral {s : State} {a : Word} {w : Width} {r : Region} {d : Nat} {x v : Word} {q : Res State}
    (hr : s.regionOf (s.physical a) = some r) (ho : r.owner = .device (.peripheral d))
    (h : Answers s d (.write (s.physical a) w (truncate w x)) v q) : memWrite s a w x = q := by
  simp only [memWrite, hr, ho, peripheralWrite_of_answers h]

theorem memRead_intc {s : State} {a : Word} {w : Width} {r : Region}
    (hr : s.regionOf (s.physical a) = some r) (ho : r.owner = .device .intc) :
    memRead s a w = Res.bind (intcRead (s.physical a) w s) fun v => .next (truncate w v, s) := by
  simp only [memRead, hr, ho]

theorem memWrite_intc {s : State} {a : Word} {w : Width} {r : Region} {x : Word}
    (hr : s.regionOf (s.physical a) = some r) (ho : r.owner = .device .intc) :
    memWrite s a w x = intcWrite (s.physical a) w (truncate w x) s := by
  simp only [memWrite, hr, ho]

theorem intcRead_of_port {s : State} {pa : Nat} {w : Width} {p : IntcPort} {b : Bank} (hp : s.intcPort pa w = some p)
    (hb : s.intc[p.bank]? = some b) : intcRead pa w s = .next (p.reg.of b) := by
  cases hreg : p.reg <;> simp [intcRead, hp, hreg, intcGetPending, intcGetMask, hb, IntcReg.of]

theorem intcWrite_of_port {s : State} {pa : Nat} {w : Width} {v : Word} {p : IntcPort} {b : Bank} (hp : s.intcPort pa w = some p)
    (hb : s.intc[p.bank]? = some b) : intcWrite pa w v s = .next { s with intc := s.intc.set p.bank (p.reg.put b v) } := by
  cases hreg : p.reg <;> simp [intcWrite, hp, hreg, intcSetPending, intcSetMask, State.updateBank, hb, IntcReg.put]

theorem intcRead_bad_bank {s : State} {pa : Nat} {w : Width} {p : IntcPort} (hp : s.intcPort pa w = some p)
    (hb : s.intc[p.bank]? = none) : intcRead pa w s = .fault (.unhandledRegister .intc (.bank p.bank)) := by
  cases hreg : p.reg <;> simp [intcRead, hp, hreg, intcGetPending, intcGetMask, hb]

theorem intcWrite_bad_bank {s : State} {pa : Nat} {w : Width} {v : Word} {p : IntcPort} (hp : s.intcPort pa w = some p)
    (hb : s.intc[p.bank]? = none) : intcWrite pa w v s = .fault (.unhandledRegister .intc (.bank p.bank)) := by
  cases hreg : p.reg <;> simp [intcWrite, hp, hreg, intcSetPending, intcSetMask, State.updateBank, hb]

/-! ## The loads and stores over one access -/

theorem onlyRegs_setX_of {s : State} (rt : Reg) (v : Word) {w : Word} (h : v = w) :
    (s.setX rt v).x rt = (if rt = 0 then 0#32 else w) ∧ OnlyRegs [rt] s (s.setX rt v) :=
  h ▸ ⟨x_setX_self .., onlyRegs_setX ..⟩

theorem zext8_eq (b : BitVec 8) : zext8 b = 0#24 ++ b := by
  refine BitVec.eq_of_getLsbD_eq fun i hi => ?_
  simp only [zext8, BitVec.getLsbD_setWidth, BitVec.getLsbD_append, BitVec.getLsbD_zero, hi, decide_true, Bool.true_and]
  split <;> simp_all

theorem zext16_eq (h : BitVec 16) : zext16 h = 0#16 ++ h := by
  refine BitVec.eq_of_getLsbD_eq fun i hi => ?_
  simp only [zext16, BitVec.getLsbD_setWidth, BitVec.getLsbD_append, BitVec.getLsbD_zero, hi, decide_true, Bool.true_and]
  split <;> simp_all

theorem truncated_one (v : Word) : (truncate .one v).setWidth 8 = v.extractLsb' 0 8 := by
  refine BitVec.eq_of_getLsbD_eq fun i hi => ?_
  simp [truncate, hi, show i < 32 by omega]

theorem truncated_two (v : Word) : (truncate .two v).setWidth 16 = v.extractLsb' 0 16 := by
  refine BitVec.eq_of_getLsbD_eq fun i hi => ?_
  simp [truncate, hi, show i < 32 by omega]

/-- What the read of a load answers is what the load does (R231). -/
theorem loadsDo_of_memRead {s : State} {rt : Reg} {off : Imm} {rs : Reg} {w : Width} {v : Word} {q : Res State}
    (h : memRead s (s.ea rs off) w = Res.bind q fun u => .next (truncate w v, u)) : LoadsDo s rt off rs w v q where
  plain u hq i value hi := by
    subst hq
    have hl : ∀ ext, loadTo rt off rs w ext s = .next (u.setX rt (ext (truncate w v))) := fun ext => by
      rw [loadTo, h]; rfl
    simp only [List.mem_cons, Prod.mk.injEq, List.not_mem_nil, or_false] at hi
    rcases hi with ⟨rfl, rfl, rfl⟩ | ⟨rfl, rfl, rfl⟩ | ⟨rfl, rfl, rfl⟩ | ⟨rfl, rfl, rfl⟩ | ⟨rfl, rfl, rfl⟩
    · exact ⟨_, by rw [exec_lb, hl], onlyRegs_setX_of _ _ (by rw [truncated_one]; rfl)⟩
    · exact ⟨_, by rw [exec_lbu, hl], onlyRegs_setX_of _ _ (by rw [truncated_one, zext8_eq])⟩
    · exact ⟨_, by rw [exec_lh, hl], onlyRegs_setX_of _ _ (by rw [truncated_two]; rfl)⟩
    · exact ⟨_, by rw [exec_lhu, hl], onlyRegs_setX_of _ _ (by rw [truncated_two, zext16_eq])⟩
    · exact ⟨_, by rw [exec_lw, hl]; rfl, onlyRegs_setX_of _ _ rfl⟩
  linked u hq hw := by
    subst hq hw
    exact ⟨_, by rw [exec_ll, loadTo, h]; rfl, rfl, onlyRegs_setX_of (s := { u with llbit := true }) rt v rfl⟩
  stops hq i hi := by
    have hl : ∀ ext, loadTo rt off rs w ext s = q := fun ext => by
      rw [loadTo, h]; cases q <;> first | exact absurd rfl (hq _) | rfl
    simp only [List.mem_cons, Prod.mk.injEq, List.not_mem_nil, or_false] at hi
    rcases hi with ⟨rfl, rfl⟩ | ⟨rfl, rfl⟩ | ⟨rfl, rfl⟩ | ⟨rfl, rfl⟩ | ⟨rfl, rfl⟩ | ⟨rfl, rfl⟩
    · rw [exec_lb, hl]
    · rw [exec_lbu, hl]
    · rw [exec_lh, hl]
    · rw [exec_lhu, hl]
    · rw [exec_lw, hl]
    · rw [exec_ll, hl]; cases q <;> first | exact absurd rfl (hq _) | rfl

/-- What the write of a store answers is what the store does (R231). -/
theorem storesDo_of_memWrite {s : State} {rt : Reg} {off : Imm} {rs : Reg} {w : Width} {q : Res State}
    (h : memWrite s (s.ea rs off) w (s.x rt) = q) : StoresDo s rt off rs w q where
  plain i hi := by
    simp only [List.mem_cons, Prod.mk.injEq, List.not_mem_nil, or_false] at hi
    rcases hi with ⟨rfl, rfl⟩ | ⟨rfl, rfl⟩ | ⟨rfl, rfl⟩ <;> exact h
  conditional u hq hw hl := by
    subst hq hw
    refine ⟨u.setX rt 1#32, ?_, onlyRegs_setX_of _ _ rfl⟩
    rw [exec_sc, execSc, if_pos hl, storeFrom, h]; rfl
  stops hq hw hl := by
    subst hw
    rw [exec_sc, execSc, if_pos hl, storeFrom, h]
    cases q <;> first | exact absurd rfl (hq _) | rfl

/-- What the aligned accesses of a merging form answer is what it does (R237, R238, R242, R243). -/
theorem mergesDo_of_bus {s : State} {rt : Reg} {off : Imm} {rs : Reg} {v : Word} {q : Res State}
    {write : State → Word → Res State → Prop}
    (h : memRead s (wordAddr (s.ea rs off)) .four = Res.bind q fun u => .next (v, u))
    (hx : ∀ u, q = .next u → u.x rt = s.x rt)
    (hw : ∀ u, q = .next u → ∀ value p, write u value p → memWrite u (wordAddr (s.ea rs off)) .four value = p) :
    MergesDo s rt off rs v q write where
  loads u hq i value hi := by
    have hu := hx u hq
    subst hq
    simp only [List.mem_cons, Prod.mk.injEq, List.not_mem_nil, or_false] at hi
    rcases hi with ⟨rfl, rfl⟩ | ⟨rfl, rfl⟩
    · exact ⟨_, by rw [exec_lwl, loadMerge, h]; rfl, onlyRegs_setX_of _ _ (by rw [hu]; rfl)⟩
    · exact ⟨_, by rw [exec_lwr, loadMerge, h]; rfl, onlyRegs_setX_of _ _ (by rw [hu]; rfl)⟩
  stores u hq i value hi p hp := by
    have hu := hx u hq
    have hm := hw u hq value p hp
    subst hq
    simp only [List.mem_cons, Prod.mk.injEq, List.not_mem_nil, or_false] at hi
    rcases hi with ⟨rfl, rfl⟩ | ⟨rfl, rfl⟩
    · rw [exec_swl, storeMerge, h]; simp only [Res.bind, hu]; exact hm
    · rw [exec_swr, storeMerge, h]; simp only [Res.bind, hu]; exact hm
  stops hq i hi := by
    simp only [List.mem_cons, List.not_mem_nil, or_false] at hi
    rcases hi with rfl | rfl | rfl | rfl
    · rw [exec_lwl, loadMerge, h]; cases q <;> first | exact absurd rfl (hq _) | rfl
    · rw [exec_lwr, loadMerge, h]; cases q <;> first | exact absurd rfl (hq _) | rfl
    · rw [exec_swl, storeMerge, h]; cases q <;> first | exact absurd rfl (hq _) | rfl
    · rw [exec_swr, storeMerge, h]; cases q <;> first | exact absurd rfl (hq _) | rfl

end Sys2Proof.Machine
end

