-- ==== Sys2Proof/Tests/Slice0.lean ====
section
/-! SUPPORT. Tests: the well-formedness smoke, decoding of words written out from the encodings of 41_alu.md to 46_system_cop0.md,
single steps whose results are those of the tables of 95_test_vectors.md, and for each statement with hypotheses a state that meets
them. -/

namespace Sys2Proof.Tests

open Sys2Proof.Machine

/-! ## Well-formedness: an ill-formed term for each check -/

theorem test_shamt_40_ill_formed : (Instr.sll 3 2 40).wellFormed = false ∧ (Instr.srl 3 2 32).wellFormed = false ∧
    (Instr.sra 3 2 99).wellFormed = false ∧ (Instr.sll 3 2 31).wellFormed = true := by decide

theorem test_cop0_index_32_ill_formed : (Instr.mfc0 2 32).wellFormed = false ∧ (Instr.mtc0 2 40).wellFormed = false ∧
    (Instr.mtc0 2 31).wellFormed = true := by decide

theorem test_standard_configuration_well_formed : Config.standard.wf = true := by decide

/-- R63 and R5: overlapping regions, an empty region, no ROM, a base outside the mask, a zero or misaligned RESET_PC, a quantum of 0,
a cost of 0, an interrupt line below 2; R68: an image longer than its array. -/
theorem test_configuration_ill_formed :
    { Config.standard with regions := [⟨0, 16, .ram⟩, ⟨8, 16, .rom⟩] }.wf = false ∧
    { Config.standard with regions := [⟨0, 0, .ram⟩, ⟨8, 16, .rom⟩] }.wf = false ∧
    { Config.standard with regions := [⟨0, 16, .ram⟩] }.wf = false ∧
    { Config.standard with regions := [⟨0, 16, .ram⟩, ⟨0x20000000, 16, .rom⟩] }.wf = false ∧
    { Config.standard with resetPc := 0#32 }.wf = false ∧ { Config.standard with resetPc := 2#32 }.wf = false ∧
    { Config.standard with runQuantum := 0 }.wf = false ∧ { Config.standard with ipLine := 1 }.wf = false ∧
    { Config.standard with cycleRules := [⟨0#32, 0#32, 0⟩] }.wf = false ∧
    { Config.standard with regions := [⟨0, 16, .ram⟩, ⟨32, 2, .rom⟩], romImage := [1#8, 2#8, 3#8] }.wf = false ∧
    { Config.standard with regions := [⟨0, 16, .ram⟩, ⟨32, 3, .rom⟩], romImage := [1#8, 2#8, 3#8] }.wf = true := by decide

/-! ## Decoding: words of each family from the encodings of the rules -/

theorem test_decode_alu :
    decode 0b00000000001000100001100000100000#32 = .ok (.add 3 1 2) ∧
    decode 0x00221827#32 = .ok (.nor 3 1 2) ∧ decode 0x0022182B#32 = .ok (.sltu 3 1 2) ∧
    decode 0x2422FFFF#32 = .ok (.addiu 2 1 0xFFFF#16) ∧ decode 0x3C021234#32 = .ok (.lui 2 0x1234#16) := by decide

theorem test_decode_shift :
    decode 0b00000000000000100001100100000011#32 = .ok (.sra 3 2 4) ∧ decode 0x00221804#32 = .ok (.sllv 3 2 1) ∧
    decode 0x00000000#32 = .ok (.sll 0 0 0) := by decide

theorem test_decode_muldiv :
    decode 0b00000000001000100000000000011000#32 = .ok (.mult 1 2) ∧ decode 0x00001812#32 = .ok (.mflo 3) ∧
    decode 0x00200011#32 = .ok (.mthi 1) := by decide

theorem test_decode_branch :
    decode 0b00001100000100000000000001000000#32 = .ok (.jal 0x100040#26) ∧ decode 0x03E00008#32 = .ok (.jr 31) ∧
    decode 0x10220003#32 = .ok (.beq 1 2 3#16) ∧ decode 0x04310003#32 = .ok (.bgezal 1 3#16) ∧
    decode 0x5C200003#32 = .ok (.bgtzl 1 3#16) := by decide

theorem test_decode_load_store :
    decode 0b10001000001000100000000000000100#32 = .ok (.lwl 2 4#16 1) ∧ decode 0x94220004#32 = .ok (.lhu 2 4#16 1) ∧
    decode 0xB8220004#32 = .ok (.swr 2 4#16 1) ∧ decode 0xC0220004#32 = .ok (.ll 2 4#16 1) ∧
    decode 0xE0220004#32 = .ok (.sc 2 4#16 1) := by decide

theorem test_decode_system :
    decode 0b00000000000000000000000001001100#32 = .ok (.syscall 1#20) ∧ decode 0x0000000D#32 = .ok (.brk 0#20) ∧
    decode 0x0000004F#32 = .ok (.sync 1#5) ∧ decode 0x40026800#32 = .ok (.mfc0 2 13) ∧
    decode 0x4082C800#32 = .ok (.mtc0 2 25) ∧ decode 0x42000018#32 = .ok .eret := by decide

/-- Words the spec names as unmodeled (R104, R110, R266; vectors F6a to F6d). -/
theorem test_decode_refuses :
    decode 0x3C230001#32 = .error .mustBeZero ∧ decode 0x00221902#32 = .error .mustBeZero ∧
    decode 0x40026001#32 = .error .mustBeZero ∧ decode 0x46000000#32 = .error (.opcode 17#6) ∧
    decode 0x70221002#32 = .error (.opcode 28#6) ∧ decode 0x00000001#32 = .error (.funct 1#6) ∧
    decode 0x04040000#32 = .error (.regimm 4) ∧ decode 0x42000019#32 = .error .cop0 := by decide

theorem test_decode_truncated : decodeBytes [0x20#8, 0x18#8, 0x22#8] = .error .truncated := by decide

/-! ## Single steps: a word at 0x1000 of the standard test platform, status 0, ebase 0x3000 -/

/-- The state with the word `w` at 0x1000 and three registers set. -/
def start (w x1 x2 x3 : Word) : State :=
  ((({ State.reset with
        pc := 0x1000#32, npc := 0x1004#32
        cop0 := { State.reset.cop0 with status := 0#32, ebase := 0x3000#32 } }.placeWord w).setX 1 x1).setX 2 x2).setX 3 x3

/-- One item of the state a step leads to, if it leads to one. -/
def after {α : Type} (f : State → α) (s : State) : Option α :=
  match step s with
  | .next t => some (f t)
  | .fault _ => none
  | .refused _ => none

/-- The fatal condition a step ends in, if it ends in one. -/
def faultOf (s : State) : Option Fault :=
  match step s with
  | .next _ => none
  | .fault e => some e
  | .refused _ => none

/-- The word, `x[1]`, `x[2]`, and what `x[3]` holds after the step; `x[3]` holds 0xDEAD0003 before. -/
def setsX3 (r : Word × Word × Word × Word) : Bool :=
  after (fun t => t.x 3) (start r.1 r.2.1 r.2.2.1 0xDEAD0003#32) == some r.2.2.2

/-- 95_test_vectors.md, table 2.1. -/
theorem test_register_arithmetic :
    [(0x00221820#32, 0x5#32, 0xFFFFFFFD#32, 0x2#32), (0x00221820#32, 0x7FFFFFFF#32, 0x1#32, 0xDEAD0003#32),
     (0x00221821#32, 0x7FFFFFFF#32, 0x1#32, 0x80000000#32), (0x00221822#32, 0x5#32, 0x7#32, 0xFFFFFFFE#32),
     (0x00221822#32, 0x0#32, 0x80000000#32, 0xDEAD0003#32), (0x00221823#32, 0x0#32, 0x1#32, 0xFFFFFFFF#32),
     (0x00221824#32, 0xFF00FF00#32, 0x0FF00FF0#32, 0x0F000F00#32), (0x00221825#32, 0xFF00FF00#32, 0x0FF00FF0#32, 0xFFF0FFF0#32),
     (0x00221826#32, 0xFF00FF00#32, 0x0FF00FF0#32, 0xF0F0F0F0#32), (0x00221827#32, 0xFF00FF00#32, 0x0FF00FF0#32, 0x000F000F#32),
     (0x0022182A#32, 0x80000000#32, 0x7FFFFFFF#32, 0x1#32), (0x0022182B#32, 0xFFFFFFFF#32, 0x1#32, 0x0#32)].all setsX3 = true := by
  decide

/-- Table 2.2. -/
theorem test_immediate_arithmetic :
    [(0x20230001#32, 0x7FFFFFFF#32, 0#32, 0xDEAD0003#32), (0x20238000#32, 0x0#32, 0#32, 0xFFFF8000#32),
     (0x2423FFFF#32, 0x0#32, 0#32, 0xFFFFFFFF#32), (0x28230000#32, 0xFFFFFFFF#32, 0#32, 0x1#32),
     (0x2C238000#32, 0xFFFF7FFF#32, 0#32, 0x1#32), (0x2C23FFFF#32, 0xFFFFFFFF#32, 0#32, 0x0#32),
     (0x30238000#32, 0xFFFFFFFF#32, 0#32, 0x8000#32), (0x34238000#32, 0x12340000#32, 0#32, 0x12348000#32),
     (0x3823FFFF#32, 0xFFFFFFFF#32, 0#32, 0xFFFF0000#32), (0x3C038000#32, 0#32, 0#32, 0x80000000#32)].all setsX3 = true := by
  decide

/-- Table 2.3; the variable amount is `x[1]`. -/
theorem test_shifts :
    [(0x00021840#32, 0#32, 0x80000001#32, 0x2#32), (0x00021FC2#32, 0#32, 0x80000001#32, 0x1#32),
     (0x00021843#32, 0#32, 0x80000001#32, 0xC0000000#32), (0x00221804#32, 33#32, 0x80000001#32, 0x2#32),
     (0x00221806#32, 32#32, 0x80000001#32, 0x80000001#32), (0x00221807#32, 0xFFFFFFFF#32, 0x80000001#32, 0xFFFFFFFF#32)].all
      setsX3 = true := by decide

/-- The word, `x[1]`, `x[2]`, HI and LO after the step: table 2.4. -/
def setsHiLo (r : Word × Word × Word × Word × Word) : Bool :=
  after (fun t => (t.hi, t.lo)) (start r.1 r.2.1 r.2.2.1 0#32) == some r.2.2.2

theorem test_multiply_divide :
    [(0x00220018#32, 0xFFFFFFF9#32, 0x2#32, 0xFFFFFFFF#32, 0xFFFFFFF2#32),
     (0x00220018#32, 0x80000000#32, 0x80000000#32, 0x40000000#32, 0x0#32),
     (0x00220019#32, 0x7#32, 0xFFFFFFFE#32, 0x6#32, 0xFFFFFFF2#32),
     (0x0022001A#32, 0xFFFFFFF9#32, 0x2#32, 0xFFFFFFFF#32, 0xFFFFFFFD#32),
     (0x0022001A#32, 0x7#32, 0xFFFFFFFE#32, 0x1#32, 0xFFFFFFFD#32),
     (0x0022001B#32, 0xFFFFFFF9#32, 0x2#32, 0x1#32, 0x7FFFFFFC#32),
     (0x00200011#32, 0xCAFEBABE#32, 0#32, 0xCAFEBABE#32, 0#32),
     (0x00200013#32, 0xCAFEBABE#32, 0#32, 0#32, 0xCAFEBABE#32)].all setsHiLo = true := by decide

/-- The divisions the spec leaves open go on, and change only HI, LO and the draw counter (R192, R193). -/
theorem test_divide_corners_go_on :
    after (fun t => (t.pc, t.draws)) (start 0x0022001A#32 0x80000000#32 0xFFFFFFFF#32 0#32) = some (0x1004#32, 1) ∧
    after (fun t => (t.pc, t.draws)) (start 0x0022001B#32 5#32 0#32 0#32) = some (0x1004#32, 1) := by decide

theorem test_hi_lo_reads :
    after (fun t => t.x 3) { start 0x00001810#32 0#32 0#32 0#32 with hi := 0x11111111#32, lo := 0x22222222#32 } =
      some 0x11111111#32 ∧
    after (fun t => t.x 3) { start 0x00001812#32 0#32 0#32 0#32 with hi := 0x11111111#32, lo := 0x22222222#32 } =
      some 0x22222222#32 := by decide

/-- The word, `x[1]`, `x[2]`, and after the step `pc`, `npc`, `ds_next` and whether `x[31]` was linked: table 2.5. -/
def branches (r : Word × Word × Word × Word × Word × Bool × Bool) : Bool :=
  after (fun t => (t.pc, t.npc, t.dsNext, t.x 31 == 0x1008#32)) (start r.1 r.2.1 r.2.2.1 0#32) == some r.2.2.2

theorem test_branches :
    [(0x1022FFFF#32, 7#32, 7#32, 0x1004#32, 0x1000#32, true, false), (0x1022FFFF#32, 7#32, 8#32, 0x1004#32, 0x1008#32, true, false),
     (0x1422FC00#32, 1#32, 2#32, 0x1004#32, 0x4#32, true, false), (0x04200003#32, 0x80000000#32, 0#32, 0x1004#32, 0x1010#32, true, false),
     (0x04210003#32, 0x80000000#32, 0#32, 0x1004#32, 0x1008#32, true, false),
     (0x18200003#32, 0#32, 0#32, 0x1004#32, 0x1010#32, true, false), (0x1C200003#32, 0#32, 0#32, 0x1004#32, 0x1008#32, true, false),
     (0x04300003#32, 5#32, 0#32, 0x1004#32, 0x1008#32, true, true), (0x04110003#32, 0#32, 0#32, 0x1004#32, 0x1010#32, true, true)].all
      branches = true := by decide

theorem test_likely_branches :
    [(0x50220003#32, 1#32, 2#32, 0x1008#32, 0x100C#32, false, false), (0x50220003#32, 2#32, 2#32, 0x1004#32, 0x1010#32, true, false),
     (0x54220003#32, 1#32, 1#32, 0x1008#32, 0x100C#32, false, false), (0x58200003#32, 1#32, 0#32, 0x1008#32, 0x100C#32, false, false),
     (0x5C200003#32, 1#32, 0#32, 0x1004#32, 0x1010#32, true, false), (0x04220003#32, 0#32, 0#32, 0x1008#32, 0x100C#32, false, false),
     (0x04230003#32, 0#32, 0#32, 0x1004#32, 0x1010#32, true, false), (0x04320003#32, 5#32, 0#32, 0x1008#32, 0x100C#32, false, true),
     (0x04330003#32, 0#32, 0#32, 0x1004#32, 0x1010#32, true, true)].all branches = true := by decide

theorem test_jumps :
    [(0x0BFFFFFF#32, 0#32, 0#32, 0x1004#32, 0x0FFFFFFC#32, true, false), (0x0C100040#32, 0#32, 0#32, 0x1004#32, 0x00400100#32, true, true),
     (0x00200008#32, 0x2000#32, 0#32, 0x1004#32, 0x2000#32, true, false), (0x0040F809#32, 0#32, 0x3000#32, 0x1004#32, 0x3000#32, true, true)].all
      branches = true := by decide

/-- JALR with rd = rs reads its target before it writes the link (vector E2). -/
theorem test_jalr_same_register :
    after (fun t => (t.npc, t.x 2)) (start 0x00401009#32 0#32 0x1100#32 0#32) = some (0x1100#32, 0x1008#32) := by decide

/-- Vectors F1, F2a, F2d and F2b. -/
theorem test_control_flow_faults :
    faultOf { start 0x08000800#32 0#32 0#32 0#32 with dsNext := true } = some .branchInDelaySlot ∧
    faultOf (start 0x00200008#32 0#32 0#32 0#32) = some (.jumpToZero 0#32) ∧
    faultOf (start 0x0C000000#32 0#32 0#32 0#32) = some (.jumpToZero 0#32) ∧
    faultOf (start 0x00200008#32 0x1102#32 0#32 0#32) = some (.misalignedJumpTarget 0x1102#32) := by decide

/-- The eight bytes at 0x2000 of table 2.6. -/
def bytesAt2000 (s : State) : State :=
  { s with mem := Memory.storeBytes (Memory.storeBytes s.mem 0x2000 0xB3A29180#32 4) 0x2004 0xF7E6D5C4#32 4 }

def loads (r : Word × Word × Word × Word) : Bool :=
  after (fun t => t.x 2) (bytesAt2000 (start r.1 r.2.1 r.2.2.1 0#32)) == some r.2.2.2

theorem test_loads :
    [(0x80220004#32, 0x1FFC#32, 0#32, 0xFFFFFF80#32), (0x90220004#32, 0x1FFC#32, 0#32, 0x80#32),
     (0x84220004#32, 0x1FFD#32, 0#32, 0xFFFFA291#32), (0x94220000#32, 0xA0002002#32, 0#32, 0xB3A2#32),
     (0x8C220004#32, 0x1FFD#32, 0#32, 0xC4B3A291#32), (0x8C22FFFC#32, 0x2008#32, 0#32, 0xF7E6D5C4#32),
     (0x88220000#32, 0x2001#32, 0x11223344#32, 0x91803344#32), (0x98220000#32, 0x2001#32, 0x11223344#32, 0x11B3A291#32)].all
      loads = true := by decide

/-- The word at 0x2000 after a store, read little-endian. -/
def stores (r : Word × Word × Word × Word) : Bool :=
  after (fun t => t.loadBytes 0x2000 4) (bytesAt2000 (start r.1 r.2.1 r.2.2.1 0#32)) == some r.2.2.2

theorem test_stores :
    [(0xA0220004#32, 0x1FFC#32, 0x12345678#32, 0xB3A29178#32), (0xA4220004#32, 0x1FFC#32, 0x12345678#32, 0xB3A25678#32),
     (0xAC220004#32, 0x1FFC#32, 0x12345678#32, 0x12345678#32), (0xA8220000#32, 0x2001#32, 0x12345678#32, 0xB3A21234#32),
     (0xB8220000#32, 0x2001#32, 0x12345678#32, 0x34567880#32)].all stores = true := by decide

theorem test_ll_sc :
    after (fun t => (t.x 2, t.llbit)) (bytesAt2000 (start 0xC0220004#32 0x1FFC#32 0#32 0#32)) = some (0xB3A29180#32, true) ∧
    after (fun t => (t.x 2, t.llbit, t.loadBytes 0x2000 4))
      (bytesAt2000 { start 0xE0220004#32 0x1FFC#32 0x12345678#32 0#32 with llbit := true }) =
        some (1#32, true, 0x12345678#32) ∧
    after (fun t => (t.x 2, t.loadBytes 0x2000 4)) (bytesAt2000 (start 0xE0220004#32 0x1FFC#32 0x12345678#32 0#32)) =
      some (0#32, 0xB3A29180#32) := by decide

/-- Vectors F3, F4, F8 and F11. -/
theorem test_bus_faults :
    faultOf (start 0x8C220000#32 0x08000000#32 0#32 0#32) = some (.unhandledAccess 0x08000000 .four false) ∧
    faultOf (start 0xAC220000#32 0xBFC00000#32 0#32 0#32) = some (.unhandledAccess 0x1FC00000 .four true) ∧
    faultOf (start 0x8C230000#32 0xFFFE#32 0#32 0#32) = some (.unhandledAccess 0xFFFE .four false) ∧
    faultOf { start 0x84240000#32 0x2001#32 0#32 0#32 with cfg := { Config.standard with misaligned := .fatal } } = some (.misalignedDataAccess 0x2001 .two) := by decide

/-- Coprocessor 0, the pc pair and the flags after the step: table 2.7. -/
def entry (t : State) : Word × BitVec 5 × Bool × Word × Word :=
  (t.cop0.epc, t.cop0.excCode, t.cop0.bd, t.cop0.status, t.pc)

theorem test_syscall_break :
    after entry (start 0x0000004C#32 0#32 0#32 0#32) = some (0x1004#32, 8#5, false, 2#32, 0x3180#32) ∧
    after entry (start 0x0000000D#32 0#32 0#32 0#32) = some (0x1004#32, 9#5, false, 2#32, 0x3180#32) := by decide

/-- Overflow (vector of table 2.1) and a nested exception (vector X5). -/
theorem test_overflow_and_nested_entry :
    after entry (start 0x00220020#32 0x7FFFFFFF#32 1#32 0#32) = some (0x1004#32, 12#5, false, 2#32, 0x3180#32) ∧
    after entry { start 0x0000000C#32 0#32 0#32 0#32 with cop0 := ⟨2#32, 0#5, 0#2, true, 0x1234#32, 0x3000#32⟩ } =
      some (0x1234#32, 8#5, true, 2#32, 0x3180#32) := by decide

theorem test_control_register_moves :
    after (fun t => t.x 2) { start 0x40026800#32 0#32 0#32 0#32 with
      cop0 := ⟨0#32, 0#5, 0#2, true, 0#32, 0#32⟩, intc := [⟨1#32, 1#32⟩, ⟨0#32, 0#32⟩] } = some 0x80000400#32 ∧
    after (fun t => t.cop0) (start 0x40826800#32 0#32 0xFFFFFFFF#32 0#32) = some ⟨0#32, 0#5, 3#2, false, 0#32, 0x3000#32⟩ ∧
    faultOf (start 0x40024800#32 0#32 0#32 0#32) = some (.unmappedCop0Index 9) := by decide

theorem test_eret :
    after (fun t => (t.cop0.status, t.llbit, t.pc, t.npc)) { start 0x42000018#32 0#32 0#32 0#32 with
      cop0 := ⟨0x00400003#32, 0#5, 0#2, false, 0x1004#32, 0#32⟩, llbit := true } =
        some (0x00400001#32, false, 0x1004#32, 0x1008#32) ∧
    faultOf { start 0x42000018#32 0#32 0#32 0#32 with cop0 := ⟨4#32, 0#5, 0#2, false, 0x1004#32, 0#32⟩ } = some .eretWithERL := by
  decide

theorem test_sync : after (fun t => (t.pc, t.npc, t.regs)) (start 0x0000004F#32 1#32 2#32 3#32) =
    some (0x1004#32, 0x1008#32, (start 0x0000004F#32 1#32 2#32 3#32).regs) := by decide

/-- An interrupt between a branch and its delay slot (vector X2); the vector holds a SYNC. -/
def interrupted : State :=
  { State.reset with
    pc := 0x1020#32, npc := 0x1030#32, dsNext := true
    cop0 := ⟨0x401#32, 0#5, 0#2, false, 0#32, 0x3000#32⟩
    intc := [⟨1#32, 1#32⟩, ⟨0#32, 0#32⟩]
    mem := Memory.storeBytes [] 0x3200 0x0000000F#32 4 }

theorem test_interrupt_in_slot :
    after entry interrupted = some (0x101C#32, 0#5, true, 0x403#32, 0x3204#32) := by decide

/-! ## The scheduler and the devices -/

/-- Two handlers of peripheral 0, at time 0. -/
def twoHandlers : State := { State.reset with sched := ⟨0, [], 0, [0, 0]⟩ }

/-- Vector S3: events due at the same time keep the order of their `addEvent` calls. -/
theorem test_add_event_order :
    (match Res.bind (addEvent 1 11#64 5 twoHandlers) fun s => Res.bind (addEvent 0 22#64 5 s) (addEvent 1 33#64 3) with
     | .next s => s.sched.queue.map Event.param
     | .fault _ => []
     | .refused _ => []) = [33#64, 11#64, 22#64] := by decide

theorem test_add_event_faults : addEvent 0 0#64 0 twoHandlers = .fault (.nonPositiveDelay 0 0) ∧
    addEvent 3 0#64 5 twoHandlers = .fault (.invalidHandlerId 3) := ⟨rfl, rfl⟩

/-- An event due inside the horizon is delivered: the clock is its due time and the callback's effect happens (vector S8). -/
theorem test_delivery :
    after (fun t => (t.sched, t.intc)) { twoHandlers with
      sched := ⟨0, [⟨1, 7#64, 4, 0⟩], 1, [0, 0]⟩, phase := .draining 10
      replies := [.done 0#32 [.raise 33, .addEvent 1 8#64 4]] } =
        some (⟨4, [⟨1, 8#64, 8, 1⟩], 2, [0, 0]⟩, [⟨0#32, 0#32⟩, ⟨2#32, 0#32⟩]) := by decide

/-- Vector S5, at the end of the first quantum (R407). -/
theorem test_empty_queue : faultOf { State.reset with phase := .cpu 64 } = some .emptyQueueAtRun := by decide

/-- A platform with peripheral 5 at 0x10000000 and the controller's window at 0x11000000. -/
def platform : Config := { Config.standard with
  regions := [⟨0, 0x10000, .ram⟩, ⟨0x10000000, 0x100, .device (.peripheral 5)⟩, ⟨0x11000000, 0x100, .device .intc⟩,
    ⟨0x1FC00000, 0x1000, .rom⟩]
  intcPorts := [⟨0x11000000, .four, .pending, 0⟩, ⟨0x11000004, .four, .mask, 0⟩] }

/-- A load or store at `a` of that platform, whose peripheral's next reply is `r`. -/
def inWindow (a : Word) (r : DeviceReply) : State := { start 0 a 0x12345678#32 0 with cfg := platform, replies := [r] }

/-- A load from a peripheral gets the reply's value; a store to the controller's window writes the raw word (R333). -/
theorem test_device_windows :
    after (fun t => (t.x 2, t.replies)) { start 0x8C220000#32 0x10000004#32 0#32 0#32 with
      cfg := platform, replies := [.done 0x99#32 [.raise 3]] } = some (0x99#32, []) ∧
    after (fun t => t.intc) { start 0xAC220000#32 0x11000004#32 0xFF#32 0#32 with cfg := platform } =
      some [⟨0#32, 0xFF#32⟩, ⟨0#32, 0#32⟩] ∧
    faultOf { start 0xAC220000#32 0x11000008#32 0xFF#32 0#32 with cfg := platform } = some (.unhandledRegister .intc (.address 0x11000008)) := by decide

/-! ## Reset and the host's placing of a word -/

/-- 10_state.md R50 with the defaults of R5. -/
theorem test_reset : State.reset.pc = 0xBFC00000#32 ∧ State.reset.npc = 0xBFC00004#32 ∧
    State.reset.cop0.status = 0x00400000#32 ∧ State.reset.isInterruptPending = false := by decide

/-- The standard platform with a boot ROM whose first word is a LUI. -/
def withImage : Config := { Config.standard with romImage := [0x34#8, 0x12#8, 0x02#8, 0x3C#8] }

/-- R68, R400: the machine boots from ROM_IMAGE. -/
theorem test_rom_image : after (fun t => t.x 2) (State.resetFor withImage) = some 0x12340000#32 := by decide

theorem test_with_fetch_word :
    after (fun t => t.x 2) (State.reset.withFetchWord 32 0x3C021234) = some 0x12340000#32 ∧
    decodeTableWord 32 0x3C021234 = some (.lui 2 0x1234#16) := by decide

/-! ## Witnesses: for each statement with hypotheses, states and operands that meet all of them, clause by clause -/

/-- A well-formed instruction with operands at the ends of their ranges. -/
theorem witness_DecodeOfEncode : (Instr.sra 31 0 31).wellFormed = true ∧ (Instr.mtc0 31 31).wellFormed = true ∧
    (Instr.syscall 0xFFFFF#20).wellFormed = true := by decide

theorem witness_EncodeOfDecode : decode 0x03FFFFCC#32 = .ok (.syscall 0xFFFFF#20) ∧
    decode 0xE3E0FFFF#32 = .ok (.sc 0 0xFFFF#16 31) := by decide

theorem witness_DecodeFollowsTable : (∃ row ∈ opcodeTable, row.covers 0x42000018#32) ∧
    decode 0x42000018#32 = .ok .eret := ⟨⟨⟨"ERET", 0xFFFFFFFF#32, 0x42000018#32⟩, by decide, by decide⟩, by decide⟩

/-- RAM answers the fetch of `start`'s word. -/
theorem readable_start (w x1 x2 x3 : Word) : Readable (start w x1 x2 x3) 0x1000#32 .four :=
  have h : Config.standard.regions.find? (fun r => r.has (0x1000#32 &&& Config.standard.physMask).toNat) =
      some ⟨0, 0x10000, .ram⟩ := by decide
  ⟨_, h, .inl rfl, (by decide : (0x1000#32 &&& Config.standard.physMask).toNat + 4 ≤ 0 + 0x10000), rfl⟩

theorem cpuTurn_start (w x1 x2 x3 : Word) : CpuTurn (start w x1 x2 x3) 0 :=
  ⟨rfl, (by decide : 0 < Config.standard.runQuantum)⟩

theorem witness_UnmodeledWordIsFatal : CpuTurn (start 0x70221002#32 0 0 0) 0 ∧
    (start 0x70221002#32 0 0 0).isInterruptPending = false ∧ (start 0x70221002#32 0 0 0).halted = false ∧
    fetch (start 0x70221002#32 0 0 0) = .next (0x70221002#32, start 0x70221002#32 0 0 0) ∧
    decode 0x70221002#32 = .error (.opcode 28#6) :=
  ⟨cpuTurn_start .., by decide, rfl, by rfl, by decide⟩

/-- A device whose reply breaks the contract: the step is refused (clause 3). -/
def badDevice : State := { start 0x8C220000#32 0x10000004#32 0#32 0#32 with
  cfg := platform, replies := [.done 0#32 [.writeRam 0x10000 0#8]] }

/-- The core about to fetch from the first word of peripheral 5's window. -/
def deviceFetch (r : DeviceReply) : State := { start 0 0 0 0 with cfg := platform, pc := 0x10000000#32, replies := [r] }

/-- One word for each clause: it goes on (LUI), it stops (JR to 0), it is refused (a load from a device that breaks the contract);
a word that a device answers; and a fetch that a device stops, in each way. -/
theorem witness_StepRunsDecodedInstruction :
    (Readable (start 0x3C021234#32 0 0 0) (start 0x3C021234#32 0 0 0).pc .four ∧ CpuTurn (start 0x3C021234#32 0 0 0) 0 ∧
      (start 0x3C021234#32 0 0 0).isInterruptPending = false ∧
      fetch (start 0x3C021234#32 0 0 0) = .next (0x3C021234#32, start 0x3C021234#32 0 0 0) ∧
      decode 0x3C021234#32 = .ok (.lui 2 0x1234#16) ∧
      ∃ t, exec (.lui 2 0x1234#16) (start 0x3C021234#32 0 0 0).advance = .next t) ∧
    (fetch (start 0x00200008#32 0 0 0) = .next (0x00200008#32, start 0x00200008#32 0 0 0) ∧ decode 0x00200008#32 = .ok (.jr 1) ∧
      exec (.jr 1) (start 0x00200008#32 0 0 0).advance = .fault (.jumpToZero 0#32)) ∧
    (CpuTurn badDevice 0 ∧ badDevice.isInterruptPending = false ∧ fetch badDevice = .next (0x8C220000#32, badDevice) ∧
      decode 0x8C220000#32 = .ok (.lw 2 0#16 1) ∧
      exec (.lw 2 0#16 1) badDevice.advance = .refused (.deviceBreaksContract 5)) ∧
    (CpuTurn (deviceFetch .unhandled) 0 ∧ (deviceFetch .unhandled).isInterruptPending = false ∧
      (∃ u, fetch (deviceFetch (.done 0x3C021234#32 [.raise 3])) = .next (0x3C021234#32, u) ∧
        ∃ t, exec (.lui 2 0x1234#16) u.advance = .next t) ∧
      fetch (deviceFetch .unhandled) = .fault (.unhandledRegister (.peripheral 5) (.address 0x10000000)) ∧
      fetch (deviceFetch (.done 0#32 [.writeRam 0x10000 0#8])) = .refused (.deviceBreaksContract 5)) :=
  ⟨⟨readable_start .., cpuTurn_start .., by decide, by rfl, by decide, _, rfl⟩, ⟨by rfl, by decide, rfl⟩,
    ⟨⟨rfl, by decide⟩, by decide, by rfl, by decide, rfl⟩,
    ⟨rfl, by decide⟩, by decide, ⟨_, rfl, _, rfl⟩, rfl, rfl⟩

/-- An interrupt with a good vector, with a vector of zero, and with a misaligned one. -/
def interruptedAt (ebase : Word) : State := { interrupted with cop0 := { interrupted.cop0 with ebase := ebase } }

theorem witness_InterruptTakenBeforeFetch :
    (CpuTurn interrupted 0 ∧ interrupted.isInterruptPending = true ∧ ValidTarget (interrupted.vector .interrupt)) ∧
    ((interruptedAt 0xFFFFFE00#32).isInterruptPending = true ∧ (interruptedAt 0xFFFFFE00#32).vector .interrupt = 0#32) ∧
    ((interruptedAt 2#32).isInterruptPending = true ∧ ((interruptedAt 2#32).vector .interrupt).toNat % 4 ≠ 0) :=
  ⟨⟨⟨rfl, by decide⟩, by decide, by decide, by decide⟩, ⟨by decide, by decide⟩, by decide, by decide⟩

theorem witness_HaltedCycleOnlyCounts : CpuTurn { State.reset with halted := true, phase := .cpu 63 } 63 ∧
    State.isInterruptPending { State.reset with halted := true, phase := .cpu 63 } = false := ⟨⟨rfl, by decide⟩, by decide⟩

theorem witness_SetPcChecksItsTarget : ValidTarget 4#32 ∧ ValidTarget 0xFFFFFFFC#32 ∧ (0xFFFFFFFF#32).toNat % 4 ≠ 0 ∧
    (1#32).toNat % 4 ≠ 0 := ⟨⟨by decide, by decide⟩, ⟨by decide, by decide⟩, by decide, by decide⟩

/-- Witness of DoBranchRule, JumpInstructions and the four branch statements, whose hypotheses are those of `Branches`: in and out of a
slot, with a valid, a zero and a misaligned target, taken and not. -/
theorem witness_Branches : { State.reset with dsCur := true }.dsCur = true ∧ State.reset.dsCur = false ∧ ValidTarget 0x1010#32 ∧
    (0x1102#32).toNat % 4 ≠ 0 := ⟨rfl, rfl, ⟨by decide, by decide⟩, by decide⟩

/-- Witness of ConditionalBranches, LinkingBranches, LikelyBranches and LikelyLinkingBranches: their targets and conditions take each
of those values. -/
theorem witness_branch_operands :
    ValidTarget ((start 0 0 0 0).pc + BitVec.ofInt 32 (4 * (3#16).toInt)) ∧
    (start 0 0 0 0).pc + BitVec.ofInt 32 (4 * (0xFC00#16).toInt) = 0#32 ∧
    (start 0 7#32 7#32 0).x 1 = (start 0 7#32 7#32 0).x 2 ∧ (start 0 7#32 8#32 0).x 1 ≠ (start 0 7#32 8#32 0).x 2 ∧
    ((start 0 0x80000000#32 0 0).x 1).toInt < 0 ∧ ((start 0 0x7FFFFFFF#32 0 0).x 1).toInt > 0 ∧
    ((start 0 0 0 0).x 1).toInt = 0 :=
  ⟨⟨by decide, by decide⟩, by decide, by decide, by decide, by decide, by decide, by decide⟩

theorem witness_ControlFlowInSlotIsFatal : (Instr.bgezall 1 3#16).isControlFlow = true ∧ (Instr.j 0#26).isControlFlow = true ∧
    { State.reset with dsCur := true }.dsCur = true ∧ Instr.eret.isControlFlow = false := ⟨rfl, rfl, rfl, rfl⟩

/-- An instruction that leaves the pc alone, ERET, and one that takes an exception. -/
theorem witness_OnlyControlFlowTouchesThePc :
    (∃ t, exec (.addu 3 1 2) (start 0 0 0 0) = .next t) ∧
    (∃ t, exec .eret { start 0 0 0 0 with cop0 := ⟨2#32, 0#5, 0#2, false, 0x1000#32, 0#32⟩ } = .next t) ∧
    (∃ t, exec (.brk 0#20) (start 0 0 0 0) = .next t) := ⟨⟨_, rfl⟩, ⟨_, rfl⟩, ⟨_, rfl⟩⟩

/-- A step of the CPU from a state that meets the invariant, in a well-formed configuration. -/
theorem start_inv : (start 0x3C021234#32 0 0 0).Inv where
  zero := by decide
  pc := by decide
  npc := by decide
  running := rfl
  banks := rfl
  memory := by decide
  sched := ⟨by decide, fun _ h => (nomatch h), fun _ h => (nomatch h), fun _ h => (nomatch h)⟩
  phase := fun _ h => (nomatch h)

theorem witness_StepKeepsInv : (start 0x3C021234#32 0 0 0).Inv ∧ ∃ t, step (start 0x3C021234#32 0 0 0) = .next t :=
  ⟨start_inv, _, rfl⟩

/-- An address in ROM, one in no region, and a step. -/
theorem witness_StepKeepsRom : (start 0x3C021234#32 0 0 0).cfg.wf = true ∧
    (∃ t, step (start 0x3C021234#32 0 0 0) = .next t) ∧
    (start 0x3C021234#32 0 0 0).regionOf 0x1FC00000 = some ⟨0x1FC00000, 0x1000, .rom⟩ ∧
    (start 0x3C021234#32 0 0 0).regionOf 0x10000 = none := ⟨by decide, ⟨_, rfl⟩, rfl, rfl⟩

theorem witness_ClockNeverDecreases : (start 0x3C021234#32 0 0 0).Inv ∧
    (∃ t, step (start 0x3C021234#32 0 0 0) = .next t) ∧ CpuTurn (start 0x3C021234#32 0 0 0) 0 :=
  ⟨start_inv, ⟨_, rfl⟩, cpuTurn_start ..⟩

/-- LL, ERET and an instruction that leaves the reservation alone go on. -/
theorem witness_OnlyLlAndEretTouchReservation :
    (∃ t, exec (.ll 2 0#16 1) (bytesAt2000 (start 0 0x2000#32 0 0)) = .next t) ∧
    (∃ t, exec .eret { start 0 0 0 0 with cop0 := ⟨2#32, 0#5, 0#2, false, 0x1000#32, 0#32⟩ } = .next t) ∧
    (∃ t, exec (.sw 2 0#16 1) (start 0 0x2000#32 0 0) = .next t) := ⟨⟨_, rfl⟩, ⟨_, rfl⟩, ⟨_, rfl⟩⟩

theorem witness_OnlyMulDivTouchesHiLo : (∃ t, exec (.mult 1 2) (start 0 3#32 4#32 0) = .next t) ∧
    (∃ t, exec (.mthi 1) (start 0 3#32 0 0) = .next t) ∧ (∃ t, exec (.mtlo 1) (start 0 3#32 0 0) = .next t) ∧
    (∃ t, exec (.sync 0#5) (start 0 3#32 0 0) = .next t) := ⟨⟨_, rfl⟩, ⟨_, rfl⟩, ⟨_, rfl⟩, ⟨_, rfl⟩⟩

theorem witness_WhoWritesCop0 : (∃ t, exec (.mtc0 2 12) (start 0 0 5#32 0) = .next t) ∧
    (∃ t, exec (.mtc0 2 13) (start 0 0 5#32 0) = .next t) ∧ (∃ t, exec (.mtc0 2 14) (start 0 0 5#32 0) = .next t) ∧
    (∃ t, exec (.mtc0 2 25) (start 0 0 5#32 0) = .next t) ∧ (∃ t, exec (.syscall 0#20) (start 0 0 0 0) = .next t) :=
  ⟨⟨_, rfl⟩, ⟨_, rfl⟩, ⟨_, rfl⟩, ⟨_, rfl⟩, ⟨_, rfl⟩⟩

/-- Exact results at the ends of the signed range, and one beyond each end. -/
theorem witness_TrappingArithmetic :
    ((start 0 0x7FFFFFFE#32 1#32 0).x 1).toInt + ((start 0 0x7FFFFFFE#32 1#32 0).x 2).toInt = 2147483647 ∧
    ((start 0 0x7FFFFFFF#32 1#32 0).x 1).toInt + ((start 0 0x7FFFFFFF#32 1#32 0).x 2).toInt = 2147483648 ∧
    ((start 0 0x80000000#32 0#32 0).x 1).toInt - ((start 0 0x80000000#32 0#32 0).x 2).toInt = -2147483648 ∧
    ((start 0 0x80000000#32 1#32 0).x 1).toInt - ((start 0 0x80000000#32 1#32 0).x 2).toInt = -2147483649 ∧
    ((start 0 0x80000000#32 0 0).x 1).toInt + (0xFFFF#16).toInt = -2147483649 := by decide

/-- The rs fields that make an SRL word a rotate of later revisions (bit 21 set), and the largest. -/
theorem witness_ConstantShifts : (1#5) ≠ 0#5 ∧ (31#5) ≠ 0#5 := by decide

/-- A divisor of zero, the overflowing pair, and an ordinary pair with signs. -/
theorem witness_SignedDivideRule : ((start 0 5#32 0#32 0).x 2).toInt = 0 ∧
    (((start 0 0x80000000#32 0xFFFFFFFF#32 0).x 1).toInt = -2147483648 ∧
      ((start 0 0x80000000#32 0xFFFFFFFF#32 0).x 2).toInt = -1) ∧
    ¬(((start 0 0xFFFFFFF9#32 2#32 0).x 2).toInt = 0 ∨ ((start 0 0xFFFFFFF9#32 2#32 0).x 1).toInt = -2147483648 ∧
      ((start 0 0xFFFFFFF9#32 2#32 0).x 2).toInt = -1) := by decide

theorem witness_UnsignedDivideRule : ((start 0 5#32 0#32 0).x 2).toNat = 0 ∧ ((start 0 5#32 1#32 0).x 2).toNat ≠ 0 := by decide

/-- Witness of LoadInstructions, StoreInstructions and LoadLinkedRule: the last byte, the last half and the last word of RAM are
readable and writable. -/
theorem witness_accesses :
    (Readable (start 0 0xFFFF#32 0 0) 0xFFFF#32 .one ∧ Writable (start 0 0xFFFF#32 0 0) 0xFFFF#32 .one) ∧
    (Readable (start 0 0xFFFE#32 0 0) 0xFFFE#32 .two ∧ Writable (start 0 0xFFFE#32 0 0) 0xFFFE#32 .two) ∧
    (Readable (start 0 0xFFFC#32 0 0) 0xFFFC#32 .four ∧ Writable (start 0 0xFFFC#32 0 0) 0xFFFC#32 .four) ∧
    (start 0 0xFFFC#32 0 0).ea 1 0#16 = 0xFFFC#32 ∧ (start 0 0xFFFE#32 0 0).ea 1 0#16 = 0xFFFE#32 ∧
    (start 0 0xFFFF#32 0 0).ea 1 0#16 = 0xFFFF#32 :=
  ⟨⟨⟨_, rfl, .inl rfl, by decide, rfl⟩, _, rfl, rfl, by decide, rfl⟩,
    ⟨⟨_, rfl, .inl rfl, by decide, rfl⟩, _, rfl, rfl, by decide, rfl⟩,
    ⟨⟨_, rfl, .inl rfl, by decide, rfl⟩, _, rfl, rfl, by decide, rfl⟩, by decide, by decide, by decide⟩

/-- Witness of LoadWordLeftAndRight and StoreWordLeftAndRight: each position of the effective address in the last word of RAM, which
is writable and so readable. -/
theorem witness_merge_positions : ∀ k < 4,
    Writable (start 0 (0xFFFC#32 + BitVec.ofNat 32 k) 0 0) (wordAddr (0xFFFC#32 + BitVec.ofNat 32 k)) .four ∧
    (start 0 (0xFFFC#32 + BitVec.ofNat 32 k) 0 0).ea 1 0#16 = 0xFFFC#32 + BitVec.ofNat 32 k ∧
    (0xFFFC#32 + BitVec.ofNat 32 k).toNat % 4 = k := by
  intro k hk
  interval_cases k <;> exact ⟨⟨_, rfl, rfl, by decide, rfl⟩, by decide, by decide⟩

/-- An unaligned word across the two last words of RAM. -/
theorem witness_UnalignedLoadPair : (2 : Reg) ≠ 0 ∧ (1 : Reg) ≠ 2 ∧ (0#16 + 3).toInt = (0#16).toInt + 3 ∧
    (start 0 0xFFF9#32 0 0).cfg.physMask &&& 3#32 = 3#32 ∧
    Readable (start 0 0xFFF9#32 0 0) (wordAddr ((start 0 0xFFF9#32 0 0).ea 1 0#16)) .four ∧
    Readable (start 0 0xFFF9#32 0 0) (wordAddr ((start 0 0xFFF9#32 0 0).ea 1 (0#16 + 3))) .four :=
  ⟨by decide, by decide, by decide, by decide, ⟨_, rfl, .inl rfl, by decide, rfl⟩, _, rfl, .inl rfl, by decide, rfl⟩

/-- SC with the reservation and without it. -/
theorem witness_StoreConditionalRule : { start 0 0xFFFC#32 0 0 with llbit := true }.llbit = true ∧
    Writable { start 0 0xFFFC#32 0 0 with llbit := true } 0xFFFC#32 .four ∧ (start 0 0 0 0).llbit = false :=
  ⟨rfl, ⟨_, rfl, rfl, by decide, rfl⟩, rfl⟩

/-- A form of each clause goes on where no device answers, the merging forms in the last word of RAM; and one in a device's window. -/
theorem witness_LoadStoreFrame :
    (∀ p ∈ [(Instr.lb 2 0#16 1, 0xFFFF#32), (.ll 2 0#16 1, 0xFFFC#32), (.lwl 2 0#16 1, 0xFFFF#32), (.sb 2 0#16 1, 0xFFFF#32),
        (.sc 2 0#16 1, 0xFFFF#32), (.swr 2 0#16 1, 0xFFFF#32)], ∃ t, exec p.1 (start 0 p.2 0 0) = .next t) ∧
    (∃ t, exec (.sc 2 0#16 1) { start 0 0xFFFC#32 0 0 with llbit := true } = .next t) ∧
    NoDevice (start 0 0xFFFF#32 0 0) ((start 0 0xFFFF#32 0 0).ea 1 0#16) ∧
    NoDevice (start 0 0xFFFF#32 0 0) (wordAddr ((start 0 0xFFFF#32 0 0).ea 1 0#16)) ∧
    (start 0 0 0 0).cfg.wf = true ∧ (start 0 0 0 0).regionOf 0x1FC00000 = some ⟨0x1FC00000, 0x1000, .rom⟩ ∧
    (∃ t, exec (.lw 2 0#16 1) (inWindow 0x100000FC#32 (.done 9#32 [.raise 3])) = .next t) := by
  have hr : ∀ pa ∈ [0xFFFF, 0xFFFC], (start 0 0xFFFF#32 0 0).regionOf pa = some ⟨0, 0x10000, .ram⟩ := by decide
  refine ⟨?_, ⟨_, rfl⟩, fun r h hr' => ?_, fun r h hr' => ?_, by decide, rfl, _, rfl⟩
  · simp only [List.forall_mem_cons, List.not_mem_nil, false_implies, implies_true, and_true]
    exact ⟨⟨_, rfl⟩, ⟨_, rfl⟩, ⟨_, rfl⟩, ⟨_, rfl⟩, ⟨_, rfl⟩, _, rfl⟩
  · cases (hr 0xFFFF (by decide)).symm.trans hr'; exact nofun
  · cases (hr 0xFFFC (by decide)).symm.trans hr'; exact nofun

/-- The first address after RAM, and a pc there. -/
theorem witness_UnownedAddressIsFatal : (start 0 0x10000#32 0 0).regionOf ((start 0 0 0 0).physical 0x10000#32) = none ∧
    (start 0 0x10000#32 0 0).ea 1 0#16 = 0x10000#32 ∧ wordAddr ((start 0 0x10003#32 0 0).ea 1 0#16) = 0x10000#32 ∧
    CpuTurn { start 0 0 0 0 with pc := 0x10000#32 } 0 ∧
    State.isInterruptPending { start 0 0 0 0 with pc := 0x10000#32 } = false :=
  ⟨rfl, by decide, by decide, ⟨rfl, by decide⟩, by decide⟩

/-- A ROM address; a misaligned word under the `fatal` policy; and the word that starts one byte too late, under each policy. -/
theorem witness_RegionLimitsAreFatal : (start 0 0 0 0).regionOf 0x1FC00000 = some ⟨0x1FC00000, 0x1000, .rom⟩ ∧
    (State.regionOf { start 0 0 0 0 with cfg := { Config.standard with misaligned := .fatal } } 0x2001 =
      some ⟨0, 0x10000, .ram⟩ ∧ 0x2001 % Width.four.bytes ≠ 0) ∧
    ((start 0 0 0 0).regionOf 0xFFFD = some ⟨0, 0x10000, .ram⟩ ∧ 0 + 0x10000 < 0xFFFD + Width.four.bytes) ∧
    (start 0 0 0 0).cfg.misaligned = .byteAssemble := ⟨rfl, ⟨rfl, by decide⟩, ⟨rfl, by decide⟩, rfl⟩

theorem witness_MaskedBitsAreIgnored : 0xA0001000#32 &&& Config.standard.physMask = 0x1000#32 &&& Config.standard.physMask := by
  decide

theorem witness_MixedWidthsShareBytes : (start 0 0 0 0).cfg.wf = true ∧
    (start 0 0 0 0).cfg.misaligned = .byteAssemble ∧ Writable (start 0 0 0 0) 0xFFFC#32 .four ∧
    (∀ k < 4, (start 0 0 0 0).physical (0xFFFC#32 + BitVec.ofNat 32 k) = (start 0 0 0 0).physical 0xFFFC#32 + k) ∧
    (∃ t, memWrite (start 0 0 0 0) 0xFFFC#32 .four 0x11223344#32 = .next t) :=
  ⟨by decide, rfl, ⟨_, rfl, rfl, by decide, rfl⟩, by decide, _, rfl⟩

/-- The first and the last address of a peripheral's window, for an access of each width, the aligned word and the fetch; an answer with
effects, 'unhandled register', and the drawn answer of an empty script; the last byte of the RAM array and the first beyond it. -/
theorem witness_DeviceWindowsForward :
    (∀ a ∈ [0x10000000#32, 0x100000FF#32, 0xB00000FC#32], ∃ r, (inWindow a .unhandled).regionOf
        ((inWindow a .unhandled).physical ((inWindow a .unhandled).ea 1 0#16)) = some r ∧ r.owner = .device (.peripheral 5)) ∧
    (∃ r, (inWindow 0x100000FF#32 .unhandled).regionOf ((inWindow 0x100000FF#32 .unhandled).physical
        (wordAddr ((inWindow 0x100000FF#32 .unhandled).ea 1 0#16))) = some r ∧ r.owner = .device (.peripheral 5)) ∧
    (∃ r, (deviceFetch .unhandled).regionOf ((deviceFetch .unhandled).physical (deviceFetch .unhandled).pc) = some r ∧
      r.owner = .device (.peripheral 5)) ∧
    (∀ c, ∃ u, Answers (inWindow 0x10000000#32 (.done 9#32 [.raise 3])) 5 c 9#32 (.next u)) ∧
    (∀ c, Answers (inWindow 0x10000000#32 .unhandled) 5 c 0#32 (unrecognised 5 c)) ∧
    (∀ c, ∃ v q, Answers { inWindow 0x10000000#32 .unhandled with replies := [] } 5 c v q) ∧
    (∃ u, applyEffects 5 [.raise 3] (inWindow 0x10000000#32 .unhandled) = .next u) ∧
    (inWindow 0x10000000#32 .unhandled).ramRegion = some ⟨0, 0x10000, .ram⟩ ∧ 0xFFFF < 0x10000 ∧ 0x10000 ≤ 0x10000 :=
  ⟨fun a ha => by
    simp only [List.mem_cons, List.not_mem_nil, or_false] at ha
    rcases ha with rfl | rfl | rfl <;> exact ⟨_, rfl, rfl⟩,
    ⟨_, rfl, rfl⟩, ⟨_, rfl, rfl⟩, fun _ => ⟨_, .done _ [.raise 3] _ (.inl ⟨_, rfl, rfl⟩)⟩,
    fun _ => .unhandled _ _ (.inl ⟨_, rfl, rfl⟩), fun c => answers_exists _ 5 c, ⟨_, rfl⟩, rfl, by decide, by decide⟩

/-- Each cause with a good vector, a vector of zero (vector X9) and a misaligned one. -/
theorem witness_ExceptionEntryRule : ValidTarget ((start 0 0 0 0).vector .syscall) ∧
    ValidTarget ((start 0 0 0 0).vector .breakpoint) ∧
    State.vector { start 0 0 0 0 with cop0 := ⟨0#32, 0#5, 0#2, false, 0#32, 0xFFFFFE80#32⟩ } .overflow = 0#32 ∧
    (State.vector { start 0 0 0 0 with cop0 := ⟨0#32, 0#5, 0#2, false, 0#32, 1#32⟩ } .syscall).toNat % 4 ≠ 0 ∧
    ¬ValidTarget (State.vector { start 0 0 0 0 with cop0 := ⟨0#32, 0#5, 0#2, false, 0#32, 1#32⟩ } .breakpoint) :=
  ⟨⟨by decide, by decide⟩, ⟨by decide, by decide⟩, by decide, by decide, fun h => absurd h.2 (by decide)⟩

theorem witness_SyscallAndBreak : (start 0 0 0 0).cop0.status.getLsbD 1 = false ∧ (start 0 0 0 0).dsNext = false ∧
    ValidTarget ((start 0 0 0 0).vector .syscall) := ⟨by decide, rfl, by decide, by decide⟩

/-- Indices at the ends of the range and beside the mapped ones. -/
theorem witness_ControlRegisterMoves : (0 : Nat) ∉ [12, 13, 14, 25] ∧ (11 : Nat) ∉ [12, 13, 14, 25] ∧
    (24 : Nat) ∉ [12, 13, 14, 25] ∧ (31 : Nat) ∉ [12, 13, 14, 25] := by decide

/-- ERL set; and with ERL clear, an `epc` of zero, a misaligned one and a good one. -/
theorem witness_EretRule : (4#32).getLsbD 2 = true ∧ (0xFFFFFFFB#32).getLsbD 2 = false ∧ ValidTarget 0x1004#32 ∧
    (0x1102#32).toNat % 4 ≠ 0 := ⟨by decide, by decide, ⟨by decide, by decide⟩, by decide⟩

/-- The last source and bank of two banks, and the first beyond; in the controller's window a port of an existing bank, one of a missing
bank, and an address without a port, for the plain and the merging forms. -/
theorem witness_ControllerOperations : (63 / 32 < State.reset.intc.length ∧ State.reset.intc.length ≤ 64 / 32 ∧
    1 < State.reset.intc.length ∧ State.reset.intc.length ≤ 2) ∧
    (∀ a ∈ [0x11000000#32, 0x11000004#32, 0x110000FC#32], ∃ r, (inWindow a .unhandled).regionOf
        ((inWindow a .unhandled).physical ((inWindow a .unhandled).ea 1 0#16)) = some r ∧ r.owner = .device .intc) ∧
    wordAddr ((inWindow 0x11000007#32 .unhandled).ea 1 0#16) = 0x11000004#32 ∧
    (∃ p b, (inWindow 0x11000004#32 .unhandled).intcPort 0x11000004 .four = some p ∧
      (inWindow 0x11000004#32 .unhandled).intc[p.bank]? = some b) ∧
    (∃ p, State.intcPort { inWindow 0x11000004#32 .unhandled with intc := [] } 0x11000004 .four = some p ∧
      ({ inWindow 0x11000004#32 .unhandled with intc := [] } : State).intc[p.bank]? = none) ∧
    (inWindow 0x110000FC#32 .unhandled).intcPort 0x110000FC .four = none :=
  ⟨by decide, fun a ha => by
    simp only [List.mem_cons, List.not_mem_nil, or_false] at ha
    rcases ha with rfl | rfl | rfl <;> exact ⟨_, rfl, rfl⟩, by decide, ⟨_, _, rfl, rfl⟩, ⟨_, rfl, rfl⟩, rfl⟩

theorem witness_AddEventKeepsOrder : twoHandlers.sched.Ok ∧ 1 < twoHandlers.sched.handlers.length ∧
    twoHandlers.sched.handlers.length ≤ 2 ∧ (0 : Int) < 1 ∧ (0 : Int) ≤ 0 :=
  ⟨⟨by decide, fun _ h => (nomatch h), fun _ h => (nomatch h), fun _ h => (nomatch h)⟩, by decide, by decide, by decide, by decide⟩

/-- A run whose next event, of handler `h`, is due at `due`. -/
def oneEvent (h due : Nat) : State := { twoHandlers with
  sched := ⟨0, [⟨h, 0#64, due, 0⟩], 1, [0, 0]⟩, phase := .draining 64, replies := [.done 0#32 [.raise 33]] }

/-- The end of a quantum with an empty queue and with an event; a run with an event due at the horizon, of a known handler whose
peripheral answers and of an unknown one, with an event due after the horizon, and with none. -/
theorem witness_SchedulerRunActions : (State.reset.cfg.runQuantum ≤ 64 ∧ State.reset.sched.queue = []) ∧
    (oneEvent 1 64).sched.queue ≠ [] ∧
    (∀ h, ∃ e rest, (oneEvent h 64).sched.queue = e :: rest ∧ e.due ≤ 64 ∧ e.handler = h) ∧
    (oneEvent 1 64).sched.handlers[1]? = some 0 ∧ (oneEvent 2 64).sched.handlers[2]? = none ∧
    (∃ u, Answers (oneEvent 1 64) 0 (.callback 1 0#64) 0#32 (.next u)) ∧
    (∀ e ∈ (oneEvent 1 65).sched.queue.head?, 64 < e.due) ∧
    (∀ e ∈ State.reset.sched.queue.head?, 64 < e.due) := by
  refine ⟨⟨by decide, rfl⟩, by decide, fun _ => ⟨_, _, rfl, Nat.le_refl 64, rfl⟩, rfl, rfl,
    ⟨_, .done _ [.raise 33] _ (.inl ⟨_, rfl, rfl⟩)⟩, ?_, ?_⟩ <;> simp [oneEvent, State.reset, State.resetFor]

/-- A good RESET_PC and two bad ones; a ROM with an image, at its first and its last byte. -/
theorem witness_ResetValues : ValidTarget Config.standard.resetPc ∧ (∃ t, hostReset State.reset = .next t) ∧
    ¬ValidTarget 0#32 ∧ ¬ValidTarget 0xBFC00002#32 ∧ withImage.wf = true ∧
    ⟨0x1FC00000, 0x1000, .rom⟩ ∈ withImage.regions ∧ 0 < 0x1000 ∧ 0xFFF < 0x1000 :=
  ⟨⟨by decide, by decide⟩, ⟨_, rfl⟩, fun h => h.1 rfl, fun h => absurd h.2 (by decide), by decide, by decide, by decide, by decide⟩

end Sys2Proof.Tests
end

section
/-! PROOFS. The general registers (10_state.md R21, R22): the write rule. -/

namespace Sys2Proof.Machine

/-- Settles O17, by the register laws: what a written register reads, what slot 0 holds, and the frame of a write. -/
theorem registerWriteRule : Obligations.RegisterWriteRule := fun s r v =>
  ⟨x_zero s, x_setX_self s r v, setX_slot_zero s r v, onlyRegs_setX s r v⟩

end Sys2Proof.Machine
end

section
/-! PROOFS. Who stops with BranchInDelaySlot (10_state.md R30): `doBranch` alone raises it, the twenty control-flow instructions are
calls of `doBranch`, and no other operation of the model, a device's transition included, answers with it. -/

namespace Sys2Proof.Machine

/-- A chain stops with a fault only if its first link or the rest does. -/
theorem bind_ne_fault {α β : Type} {r : Res α} {f : α → Res β} {e : Fault} (hr : r ≠ .fault e)
    (hf : ∀ a, f a ≠ .fault e) : Res.bind r f ≠ .fault e := by
  cases r with
  | next a => exact hf a
  | fault e' => exact fun h => hr (by cases h; rfl)
  | refused _ => nofun

/-! ## Devices -/

theorem updateBank_ne_inSlot {s : State} {b : Nat} {bad : BadRegister} {f : Bank → Bank} :
    s.updateBank b bad f ≠ .fault .branchInDelaySlot := by
  unfold State.updateBank
  split <;> nofun

theorem addEvent_ne_inSlot {h : Nat} {p : Param} {d : Int} {s : State} :
    addEvent h p d s ≠ .fault .branchInDelaySlot := by
  unfold addEvent
  split
  · nofun
  · split <;> nofun

theorem deviceWriteRam_ne_inSlot {dev off : Nat} {v : Byte} {s : State} :
    deviceWriteRam dev off v s ≠ .fault .branchInDelaySlot := by
  unfold deviceWriteRam
  split
  · split <;> nofun
  · nofun

theorem applyEffect_ne_inSlot {dev : Nat} {e : Effect} {s : State} :
    applyEffect dev e s ≠ .fault .branchInDelaySlot := by
  cases e with
  | raise n => exact updateBank_ne_inSlot
  | clear n => exact updateBank_ne_inSlot
  | addEvent n p d => exact addEvent_ne_inSlot
  | writeRam off v => exact deviceWriteRam_ne_inSlot

theorem applyEffects_ne_inSlot {dev : Nat} {es : List Effect} {s : State} :
    applyEffects dev es s ≠ .fault .branchInDelaySlot := by
  induction es generalizing s with
  | nil => nofun
  | cons e rest ih => exact bind_ne_fault applyEffect_ne_inSlot fun _ => ih

theorem peripheralRead_ne_inSlot {dev pa : Nat} {w : Width} {s : State} :
    peripheralRead dev pa w s ≠ .fault .branchInDelaySlot := by
  unfold peripheralRead
  split
  · nofun
  · exact bind_ne_fault applyEffects_ne_inSlot nofun

theorem peripheralWrite_ne_inSlot {dev pa : Nat} {w : Width} {v : Word} {s : State} :
    peripheralWrite dev pa w v s ≠ .fault .branchInDelaySlot := by
  unfold peripheralWrite
  split
  · nofun
  · exact applyEffects_ne_inSlot

theorem intcRead_ne_inSlot {pa : Nat} {w : Width} {s : State} : intcRead pa w s ≠ .fault .branchInDelaySlot := by
  unfold intcRead intcGetPending intcGetMask
  split
  · nofun
  · split <;> split <;> nofun

theorem intcWrite_ne_inSlot {pa : Nat} {w : Width} {v : Word} {s : State} :
    intcWrite pa w v s ≠ .fault .branchInDelaySlot := by
  unfold intcWrite
  split
  · nofun
  · split <;> exact updateBank_ne_inSlot

/-! ## The bus -/

theorem readBacking_ne_inSlot {r : Region} {pa : Nat} {w : Width} {s : State} :
    readBacking r pa w s ≠ .fault .branchInDelaySlot := by
  unfold readBacking
  split
  · nofun
  · split <;> nofun

theorem writeBacking_ne_inSlot {r : Region} {pa : Nat} {w : Width} {v : Word} {s : State} :
    writeBacking r pa w v s ≠ .fault .branchInDelaySlot := by
  unfold writeBacking
  split
  · nofun
  · split <;> nofun

theorem memRead_ne_inSlot {s : State} {a : Word} {w : Width} : memRead s a w ≠ .fault .branchInDelaySlot := by
  simp only [memRead]
  split
  · nofun
  · split
    · exact bind_ne_fault readBacking_ne_inSlot nofun
    · exact bind_ne_fault readBacking_ne_inSlot nofun
    · exact bind_ne_fault intcRead_ne_inSlot nofun
    · exact bind_ne_fault peripheralRead_ne_inSlot nofun

theorem memWrite_ne_inSlot {s : State} {a : Word} {w : Width} {v : Word} :
    memWrite s a w v ≠ .fault .branchInDelaySlot := by
  simp only [memWrite]
  split
  · nofun
  · split
    · nofun
    · exact writeBacking_ne_inSlot
    · exact intcWrite_ne_inSlot
    · exact peripheralWrite_ne_inSlot

/-! ## The shared operations of the instructions -/

theorem setPC_ne_inSlot {a : Word} {s : State} : setPC a s ≠ .fault .branchInDelaySlot := by
  refine bind_ne_fault ?_ nofun
  rcases checkTarget_cases a with ⟨-, h⟩ | ⟨-, -, h⟩ | ⟨-, h⟩ <;> rw [h] <;> nofun

theorem raiseException_ne_inSlot {e : Exc} {s : State} : raiseException e s ≠ .fault .branchInDelaySlot :=
  setPC_ne_inSlot

theorem exceptionReturn_ne_inSlot {s : State} : exceptionReturn s ≠ .fault .branchInDelaySlot := by
  unfold exceptionReturn
  split
  · nofun
  · exact setPC_ne_inSlot

theorem cop0Read_ne_inSlot {i : Nat} {s : State} : cop0Read i s ≠ .fault .branchInDelaySlot := by
  unfold cop0Read
  repeat' split
  all_goals nofun

theorem cop0Write_ne_inSlot {i : Nat} {v : Word} {s : State} : cop0Write i v s ≠ .fault .branchInDelaySlot := by
  unfold cop0Write
  repeat' split
  all_goals nofun

theorem writeOrTrap_ne_inSlot {rd : Reg} {n : Int} {s : State} :
    writeOrTrap rd n s ≠ .fault .branchInDelaySlot := by
  unfold writeOrTrap
  split
  · exact raiseException_ne_inSlot
  · nofun

theorem loadTo_ne_inSlot {rt : Reg} {off : Imm} {rs : Reg} {w : Width} {ext : Word → Word} {s : State} :
    loadTo rt off rs w ext s ≠ .fault .branchInDelaySlot :=
  bind_ne_fault memRead_ne_inSlot nofun

theorem loadMerge_ne_inSlot {merge : Nat → Word → Word → Word} {rt : Reg} {off : Imm} {rs : Reg} {s : State} :
    loadMerge merge rt off rs s ≠ .fault .branchInDelaySlot :=
  bind_ne_fault memRead_ne_inSlot nofun

theorem storeFrom_ne_inSlot {rt : Reg} {off : Imm} {rs : Reg} {w : Width} {s : State} :
    storeFrom rt off rs w s ≠ .fault .branchInDelaySlot :=
  memWrite_ne_inSlot

theorem storeMerge_ne_inSlot {merge : Nat → Word → Word → Word} {rt : Reg} {off : Imm} {rs : Reg} {s : State} :
    storeMerge merge rt off rs s ≠ .fault .branchInDelaySlot :=
  bind_ne_fault memRead_ne_inSlot fun _ => memWrite_ne_inSlot

/-! ## The instructions -/

/-- Each of the twenty control-flow instructions is one call of `doBranch` (44_branch_jump.md R200 to R221). -/
theorem exec_eq_doBranch {i : Instr} (hc : i.isControlFlow = true) (s : State) :
    ∃ target cond link likely, exec i s = doBranch target cond link likely s := by
  cases i <;> cases hc <;> exact ⟨_, _, _, _, rfl⟩

/-- No other instruction stops with BranchInDelaySlot: each is made of operations that do not. -/
theorem exec_ne_inSlot {i : Instr} (hc : i.isControlFlow = false) (s : State) :
    exec i s ≠ .fault .branchInDelaySlot := by
  cases i <;> cases hc
  case add | sub | addi => exact writeOrTrap_ne_inSlot
  case div =>
    simp only [exec_div, execDiv]
    split <;> nofun
  case divu =>
    simp only [exec_divu, execDivu]
    split <;> nofun
  case lb | lbu | lh | lhu | lw =>
    simp only [exec_lb, exec_lbu, exec_lh, exec_lhu, exec_lw]
    exact loadTo_ne_inSlot
  case lwl | lwr => exact loadMerge_ne_inSlot
  case sb | sh | sw => exact storeFrom_ne_inSlot
  case swl | swr => exact storeMerge_ne_inSlot
  case ll => exact bind_ne_fault loadTo_ne_inSlot nofun
  case sc =>
    rw [exec_sc, execSc]
    split
    · exact bind_ne_fault storeFrom_ne_inSlot nofun
    · nofun
  case syscall | brk => exact raiseException_ne_inSlot
  case mfc0 => exact bind_ne_fault cop0Read_ne_inSlot nofun
  case mtc0 => exact cop0Write_ne_inSlot
  case eret => exact exceptionReturn_ne_inSlot
  all_goals nofun

/-- Settles O11: the twenty are calls of `doBranch`, which tests the slot first, and nothing else raises that reason. -/
theorem controlFlowInSlotIsFatal : Obligations.ControlFlowInSlotIsFatal := fun i s =>
  ⟨fun hc hs => by
    obtain ⟨target, cond, link, likely, h⟩ := exec_eq_doBranch hc s
    exact h.trans (doBranch_in_slot hs target cond likely link),
   fun hc => exec_ne_inSlot hc s⟩

end Sys2Proof.Machine
end

section
/-! PROOFS. An address in no region (20_memory.md R64): the bus answers UnhandledAccess, and so do the fetch and every load and store
there, each of which begins with one access of the bus. -/

namespace Sys2Proof.Machine

/-- In the CPU's turn, with nothing to deliver and the core running, the step is steps 1 to 5 of the cycle (R120). -/
theorem step_eq_fetchExecute {s : State} {used : Nat} (ht : CpuTurn s used) (hi : s.isInterruptPending = false)
    (hh : s.halted = false) : step s = fetchExecute s := by
  obtain ⟨hp, hu⟩ := ht
  simp [step, turn, hp, getRunCycles, hu, instructionCycle, boundary, hi, hh]

/-- A fetch that stops, stops the step. -/
theorem step_of_fetch_fault {s : State} {used : Nat} {e : Fault} (ht : CpuTurn s used) (hi : s.isInterruptPending = false)
    (hh : s.halted = false) (hf : fetch s = .fault e) : step s = .fault e := by
  rw [step_eq_fetchExecute ht hi hh, fetchExecute, hf, bind_fault]

theorem memRead_unowned {s : State} {a : Word} (h : s.regionOf (s.physical a) = none) (w : Width) :
    memRead s a w = .fault (.unhandledAccess (s.physical a) w false) := by
  simp only [memRead, h]

theorem memWrite_unowned {s : State} {a : Word} (h : s.regionOf (s.physical a) = none) (w : Width) (v : Word) :
    memWrite s a w v = .fault (.unhandledAccess (s.physical a) w true) := by
  simp only [memWrite, h]

/-- Every load there stops as its read does; the value `LoadsDo` speaks of is not reached. -/
theorem loadsDo_unowned {s : State} (rt : Reg) {off : Imm} {rs : Reg} (h : s.regionOf (s.physical (s.ea rs off)) = none)
    (w : Width) : LoadsDo s rt off rs w 0#32 (.fault (.unhandledAccess (s.physical (s.ea rs off)) w false)) :=
  loadsDo_of_memRead (memRead_unowned h w)

theorem storesDo_unowned {s : State} (rt : Reg) {off : Imm} {rs : Reg} (h : s.regionOf (s.physical (s.ea rs off)) = none)
    (w : Width) : StoresDo s rt off rs w (.fault (.unhandledAccess (s.physical (s.ea rs off)) w true)) :=
  storesDo_of_memWrite (memWrite_unowned h w _)

/-- Every merging form stops at its aligned read: no word is read, and no write is made. -/
theorem mergesDo_unowned {s : State} (rt : Reg) {off : Imm} {rs : Reg}
    (h : s.regionOf (s.physical (wordAddr (s.ea rs off))) = none) :
    MergesDo s rt off rs 0#32 (.fault (.unhandledAccess (s.physical (wordAddr (s.ea rs off))) .four false))
      (fun _ _ _ => False) :=
  mergesDo_of_bus (memRead_unowned h .four) nofun nofun

/-- Settles O46: the bus stops, and the fetch and each load and store stop with its first access. -/
theorem unownedAddressIsFatal : Obligations.UnownedAddressIsFatal := by
  intro s a w v h
  refine ⟨memRead_unowned h w, memWrite_unowned h w v, ?fetch, ?plain, ?merging⟩
  case fetch =>
    rintro used ht hi hh rfl
    exact step_of_fetch_fault ht hi hh (memRead_unowned h .four)
  case plain =>
    rintro rt off rs rfl
    exact ⟨fun p hp => (loadsDo_unowned rt h p.2).stops nofun p.1 hp,
      fun p hp => (storesDo_unowned rt h p.2).plain p.1 hp,
      fun hl => (storesDo_unowned rt h .four).stops nofun rfl hl⟩
  case merging =>
    rintro rt off rs rfl
    exact (mergesDo_unowned rt h).stops nofun

end Sys2Proof.Machine
end

section
/-! PROOFS. A fetched word that is no instruction (30_encoding.md R106): the step hands the fetched word and the pc it was fetched
from to `executeWord`, which stops on a word that does not decode. -/

namespace Sys2Proof.Machine

/-- A fetch that answers a word, whoever answers it, makes the step execute that word as fetched from the pc. -/
theorem step_of_fetch_next {s u : State} {used : Nat} {w : Word} (ht : CpuTurn s used) (hi : s.isInterruptPending = false)
    (hh : s.halted = false) (hf : fetch s = .next (w, u)) : step s = executeWord w s.pc u.advance := by
  rw [step_eq_fetchExecute ht hi hh, fetchExecute, hf, bind_next]

/-- A word that does not decode stops the machine in every state. -/
theorem executeWord_of_decode_error {w : Word} {e : DecodeError} (hd : decode w = .error e) (a : Word) (s : State) :
    executeWord w a s = .fault (.unmodeledInstruction w a) := by
  simp only [executeWord, hd]

/-- Settles O5: the step executes the fetched word, and executing a word that does not decode stops with it and its address. -/
theorem unmodeledWordIsFatal : Obligations.UnmodeledWordIsFatal := by
  intro s u used w e ht hi hh hf hd
  calc step s = executeWord w s.pc u.advance := step_of_fetch_next ht hi hh hf
    _ = .fault (.unmodeledInstruction w s.pc) := executeWord_of_decode_error hd s.pc u.advance

end Sys2Proof.Machine
end

section
/-! PROOFS. Where the pc may be sent (40_engine.md R126, R130, R131): `setPC` and a taken `doBranch` make one test of the target, and
each way `doBranch` goes on differs from the old state in the link, the pc pair and `ds_next` alone. -/

namespace Sys2Proof.Machine

/-! ## The test of the target -/

theorem checkTarget_of_zero {a : Word} (h : a = 0#32) : checkTarget a = .fault (.jumpToZero a) := if_pos h

theorem checkTarget_of_misaligned {a : Word} (h : a.toNat % 4 ≠ 0) :
    checkTarget a = .fault (.misalignedJumpTarget a) := by
  obtain ⟨h0, -⟩ | ⟨-, -, hf⟩ | ⟨hv, -⟩ := checkTarget_cases a
  · exact absurd (by rw [h0]; rfl) h
  · exact hf
  · exact absurd hv.2 h

/-- A target that fails the test stops `setPC`. -/
theorem setPC_of_checkTarget_fault {a : Word} {e : Fault} (h : checkTarget a = .fault e) (s : State) :
    setPC a s = .fault e := by
  rw [setPC, h, bind_fault]

/-- Settles O9: `setPC` goes on exactly at a valid target, and each way to fail the test stops it. -/
theorem setPcChecksItsTarget : Obligations.SetPcChecksItsTarget := fun s _ =>
  ⟨fun h => setPC_next.2 ⟨h, rfl⟩, fun h => setPC_of_checkTarget_fault (checkTarget_of_zero h) s,
   fun h => setPC_of_checkTarget_fault (checkTarget_of_misaligned h) s⟩

/-! ## `doBranch` -/

/-- Outside a slot, a target that fails the test stops a taken branch. -/
theorem doBranch_of_checkTarget_fault {s : State} {target : Word} {e : Fault} (hs : s.dsCur = false)
    (h : checkTarget target = .fault e) (link : Reg) (likely : Bool) :
    doBranch target true link likely s = .fault e := by
  simp [doBranch, hs, h]

/-- Writing the link, the pc pair and `ds_next` changes nothing else. -/
theorem branched_setX (s : State) (link : Reg) (pc npc : Word) (slot : Bool) :
    Branched s { s.setX link s.npc with pc := pc, npc := npc, dsNext := slot } pc npc slot link where
  pc := rfl
  npc := rfl
  dsNext := rfl
  dsCur := rfl
  linked := x_setX_self s link s.npc
  regs := (onlyRegs_setX s link s.npc).1
  hiLo := ⟨rfl, rfl⟩
  system := ⟨rfl, rfl, rfl⟩
  platform := ⟨rfl, rfl, rfl, rfl, rfl, rfl⟩
  bytes := byteAt_setX s link s.npc

/-- Settles O10: the slot and the target's test stop it as they must, and where it goes on `doBranch_next` names the state it
leaves. -/
theorem doBranchRule : Obligations.DoBranchRule := fun s target cond link likely =>
  { inSlot := fun hs => doBranch_in_slot hs target cond likely link
    taken := fun hs hc hv =>
      ⟨_, doBranch_next.2 ⟨hs, .inl ⟨hc, hv, rfl⟩⟩, branched_setX s link s.pc target true⟩
    toZero := by
      rintro hs rfl h0
      exact doBranch_of_checkTarget_fault hs (checkTarget_of_zero h0) link likely
    toOdd := by
      rintro hs rfl h4
      exact doBranch_of_checkTarget_fault hs (checkTarget_of_misaligned h4) link likely
    notTaken := fun hs hc hl =>
      ⟨_, doBranch_next.2 ⟨hs, .inr (.inr ⟨hc, hl, rfl⟩)⟩, branched_setX s link s.pc s.npc true⟩
    squashed := fun hs hc hl =>
      ⟨_, doBranch_next.2 ⟨hs, .inr (.inl ⟨hc, hl, rfl⟩)⟩, branched_setX s link s.npc (s.npc + 4) false⟩ }

end Sys2Proof.Machine
end

section
/-! PROOFS. Arithmetic, logic and compares (41_alu.md R150 to R167): each of the eighteen words decodes to its instruction, and each
instruction is one register write, by way of `writeOrTrap` where it can trap. -/

namespace Sys2Proof

/-! ## The words -/

/-- The instructions of 41_alu.md. -/
def Instr.isAlu : Instr → Bool
  | .add .. | .addu .. | .sub .. | .subu .. | .and .. | .or .. | .xor .. | .nor .. | .slt .. | .sltu .. => true
  | .addi .. | .addiu .. | .slti .. | .sltiu .. | .andi .. | .ori .. | .xori .. | .lui .. => true
  | _ => false

/-- Opcode 0 selects the SPECIAL map (R107). -/
theorem decode_rType (rs rt rd : Reg) (sa : BitVec 5) (f : BitVec 6) :
    decode (rType 0 rs rt rd sa f) = decodeSpecial (rType 0 rs rt rd sa f) := by
  simp only [decode, opField_rType]
  rfl

/-- The word of an ALU instruction decodes to it: its opcode, and its funct in the SPECIAL map, select its row, and the fields give
back its operands (R107, R108). -/
theorem decode_alu_word {i : Instr} {w : Word} (hi : i.isAlu = true) (hw : encode i = w) : decode w = .ok i := by
  subst hw
  cases i <;> cases hi
  case add | addu | sub | subu | and | or | xor | nor | slt | sltu =>
    simp only [encode, decode_rType, decodeSpecial, functField_rType, rsField_rType, rtField_rType, rdField_rType,
      shamtField_rType]
    rfl
  case addi | addiu | slti | sltiu | andi | ori | xori | lui =>
    simp only [encode, decode, opField_iType, rsField_iType, rtField_iType, immField_iType]
    rfl

end Sys2Proof

namespace Sys2Proof.Machine

/-! ## The operands and the results -/

theorem toInt_sext16 (imm : Imm) : (sext16 imm).toInt = imm.toInt := BitVec.toInt_signExtend_of_le (by decide)

theorem append_zero_eq_shiftLeft {m : Nat} (v : BitVec m) (n : Nat) : v ++ 0#n = v.setWidth (m + n) <<< n := by
  simp [BitVec.append_def, BitVec.shiftLeftZeroExtend_eq]

/-- The upper immediate is the immediate above sixteen zeros (R103, R167). -/
theorem upperImm_eq (imm : Imm) : upperImm imm = imm ++ 0#16 := (append_zero_eq_shiftLeft imm 16).symm

theorem boolWord_decide (p : Prop) [Decidable p] : boolWord (decide p) = if p then 1#32 else 0#32 := by
  simp only [boolWord, decide_eq_true_eq]

/-- Word addition wraps the exact signed sum (R151). -/
theorem add_eq_ofInt (a b : Word) : a + b = BitVec.ofInt 32 (a.toInt + b.toInt) := by
  rw [BitVec.ofInt_add, BitVec.ofInt_toInt, BitVec.ofInt_toInt]

/-- Word subtraction wraps the exact signed difference (R153). -/
theorem sub_eq_ofInt (a b : Word) : a - b = BitVec.ofInt 32 (a.toInt - b.toInt) :=
  BitVec.eq_of_toInt_eq (by rw [BitVec.toInt_sub, BitVec.toInt_ofInt])

/-! ## The trapping forms -/

theorem overflows_iff (n : Int) : overflows n = true ↔ n < -2147483648 ∨ 2147483647 < n := by
  simp only [overflows, Bool.or_eq_true, decide_eq_true_eq]

theorem writeOrTrap_of_fits {n : Int} (h : -2147483648 ≤ n ∧ n ≤ 2147483647) (rd : Reg) (s : State) :
    writeOrTrap rd n s = .next (s.setX rd (BitVec.ofInt 32 n)) :=
  if_neg fun ho => by
    have := (overflows_iff n).1 ho
    omega

theorem writeOrTrap_of_overflow {n : Int} (h : n < -2147483648 ∨ 2147483647 < n) (rd : Reg) (s : State) :
    writeOrTrap rd n s = raiseException .overflow s :=
  if_pos ((overflows_iff n).2 h)

/-- An instruction that is one `writeOrTrap` sets its destination or raises Overflow. -/
theorem setsOrOverflows_of_exec {i : Instr} {s : State} {rd : Reg} {m n : Int} (h : exec i s = writeOrTrap rd m s)
    (hm : m = n) : SetsOrOverflows i s rd n := by
  subst hm
  exact ⟨fun hn => setsReg_of_exec (h.trans (writeOrTrap_of_fits hn rd s)) rfl,
    fun hn => h.trans (writeOrTrap_of_overflow hn rd s)⟩

/-! ## The obligations -/

/-- Settles O21: the three words decode, and each instruction is one `writeOrTrap` of its exact result. -/
theorem trappingArithmetic : Obligations.TrappingArithmetic := fun s rd rs rt imm =>
  ⟨decode_alu_word rfl rfl, decode_alu_word rfl rfl, decode_alu_word rfl rfl,
   setsOrOverflows_of_exec (exec_add rd rs rt s) rfl,
   setsOrOverflows_of_exec (exec_sub rd rs rt s) rfl,
   setsOrOverflows_of_exec (exec_addi rt rs imm s) (by rw [toInt_sext16])⟩

/-- Settles O22: the three words decode, and each instruction writes the wrapped exact result. -/
theorem wrappingArithmetic : Obligations.WrappingArithmetic := fun s rd rs rt imm =>
  ⟨decode_alu_word rfl rfl, decode_alu_word rfl rfl, decode_alu_word rfl rfl,
   setsReg_of_exec (exec_addu rd rs rt s) (add_eq_ofInt ..),
   setsReg_of_exec (exec_subu rd rs rt s) (sub_eq_ofInt ..),
   setsReg_of_exec (exec_addiu rt rs imm s) (by rw [add_eq_ofInt, toInt_sext16])⟩

/-- Settles O23: the eight words decode, and each instruction writes its bitwise result, the immediate extended as R103 says. -/
theorem logicalInstructions : Obligations.LogicalInstructions := fun s rd rs rt imm =>
  ⟨decode_alu_word rfl rfl, decode_alu_word rfl rfl, decode_alu_word rfl rfl, decode_alu_word rfl rfl,
   decode_alu_word rfl rfl, decode_alu_word rfl rfl, decode_alu_word rfl rfl, decode_alu_word rfl rfl,
   setsReg_of_exec (exec_and rd rs rt s) rfl,
   setsReg_of_exec (exec_or rd rs rt s) rfl,
   setsReg_of_exec (exec_xor rd rs rt s) rfl,
   setsReg_of_exec (exec_nor rd rs rt s) rfl,
   setsReg_of_exec (exec_andi rt rs imm s) (by rw [zext16_eq]),
   setsReg_of_exec (exec_ori rt rs imm s) (by rw [zext16_eq]),
   setsReg_of_exec (exec_xori rt rs imm s) (by rw [zext16_eq]),
   setsReg_of_exec (exec_lui rt imm s) (upperImm_eq imm)⟩

/-- Settles O24: the four words decode, and each instruction writes the truth value of its compare. -/
theorem compareInstructions : Obligations.CompareInstructions := fun s rd rs rt imm =>
  ⟨decode_alu_word rfl rfl, decode_alu_word rfl rfl, decode_alu_word rfl rfl, decode_alu_word rfl rfl,
   setsReg_of_exec (exec_slt rd rs rt s) (boolWord_decide _),
   setsReg_of_exec (exec_sltu rd rs rt s) (boolWord_decide _),
   setsReg_of_exec (exec_slti rt rs imm s) (by rw [boolWord_decide, toInt_sext16]),
   setsReg_of_exec (exec_sltiu rt rs imm s) (boolWord_decide _)⟩

end Sys2Proof.Machine
end

section
/-! PROOFS. Shifts (42_shift.md R180 to R185): each of the six words decodes to its instruction where its must-be-zero field is zero,
and each instruction is one register write, whose value is the shift's arithmetic. -/

namespace Sys2Proof

/-! ## The words -/

section
variable (rs rt rd : Reg) (sa : BitVec 5)

/-- The rows of the constant shifts want a zero rs field (R108). -/
theorem decode_constantShift_rows :
    decode (rType 0 rs rt rd sa 0) = ifZero (rs == 0) (.sll rd rt sa.toNat) ∧
    decode (rType 0 rs rt rd sa 2) = ifZero (rs == 0) (.srl rd rt sa.toNat) ∧
    decode (rType 0 rs rt rd sa 3) = ifZero (rs == 0) (.sra rd rt sa.toNat) := by
  simp only [decode_rType, decodeSpecial, functField_rType, rsField_rType, rtField_rType, rdField_rType, shamtField_rType]
  exact ⟨rfl, rfl, rfl⟩

/-- The rows of the variable shifts want a zero shamt field (R108). -/
theorem decode_variableShift_rows :
    decode (rType 0 rs rt rd sa 4) = ifZero (sa == 0) (.sllv rd rt rs) ∧
    decode (rType 0 rs rt rd sa 6) = ifZero (sa == 0) (.srlv rd rt rs) ∧
    decode (rType 0 rs rt rd sa 7) = ifZero (sa == 0) (.srav rd rt rs) := by
  simp only [decode_rType, decodeSpecial, functField_rType, rsField_rType, rtField_rType, rdField_rType, shamtField_rType]
  exact ⟨rfl, rfl, rfl⟩

end

theorem ifZero_reg_ne_zero {r : Reg} (h : r ≠ 0) (i : Instr) : ifZero (r == 0) i = .error .mustBeZero :=
  if_neg (by simpa using h)

end Sys2Proof

namespace Sys2Proof.Machine

/-! ## The amount and the results -/

/-- The variable amount is the low five bits of the register (R179). -/
theorem shiftAmount_eq_extractLsb' (s : State) (rs : Reg) : s.shiftAmount rs = ((s.x rs).extractLsb' 0 5).toNat := by
  rw [State.shiftAmount, BitVec.extractLsb'_toNat, Nat.shiftRight_zero]

/-- A left shift multiplies modulo 2^32 (R180). -/
theorem shiftLeft_eq_ofNat (v : Word) (n : Nat) : v <<< n = BitVec.ofNat 32 (v.toNat * 2 ^ n) :=
  BitVec.eq_of_toNat_eq (by rw [BitVec.toNat_shiftLeft, Nat.shiftLeft_eq, BitVec.toNat_ofNat])

/-- A logical right shift divides the unsigned value (R181). -/
theorem ushiftRight_eq_ofNat (v : Word) (n : Nat) : v >>> n = BitVec.ofNat 32 (v.toNat / 2 ^ n) := by
  rw [← Nat.shiftRight_eq_div_pow, ← BitVec.toNat_ushiftRight, BitVec.ofNat_toNat, BitVec.setWidth_eq]

/-- An arithmetic right shift divides the signed value and rounds down (R182). -/
theorem sshiftRight_eq_ofInt (v : Word) (n : Nat) : v.sshiftRight n = BitVec.ofInt 32 (v.toInt / 2 ^ n) := by
  rw [BitVec.sshiftRight_eq, Int.shiftRight_eq_div_pow, Nat.cast_pow, Nat.cast_ofNat]

/-! ## The obligations -/

/-- Settles O26: the three rows accept a zero rs field and SRL's refuses every other, and each instruction writes its shift. -/
theorem constantShifts : Obligations.ConstantShifts := fun s rd rt shamt => by
  obtain ⟨hsll, hsrl, hsra⟩ := decode_constantShift_rows 0 rt rd shamt
  refine ⟨hsll, hsrl, fun f hf => ?_, hsra,
    setsReg_of_exec (exec_sll ..) (shiftLeft_eq_ofNat ..),
    setsReg_of_exec (exec_srl ..) (ushiftRight_eq_ofNat ..),
    setsReg_of_exec (exec_sra ..) (sshiftRight_eq_ofInt ..)⟩
  obtain ⟨-, hrow, -⟩ := decode_constantShift_rows f.toFin rt rd shamt
  have hrs : f.toFin ≠ 0 := fun h => hf (BitVec.eq_of_toFin_eq h)
  exact hrow.trans (ifZero_reg_ne_zero hrs _)

/-- Settles O27: the three rows accept a zero shamt field, and each instruction writes its shift by the low five bits of `x[rs]`. -/
theorem variableShifts : Obligations.VariableShifts := fun s rd rt rs => by
  obtain ⟨hsllv, hsrlv, hsrav⟩ := decode_variableShift_rows rs rt rd 0
  refine ⟨hsllv, hsrlv, hsrav, ?_⟩
  rw [← shiftAmount_eq_extractLsb']
  exact ⟨setsReg_of_exec (exec_sllv ..) (shiftLeft_eq_ofNat ..),
    setsReg_of_exec (exec_srlv ..) (ushiftRight_eq_ofNat ..),
    setsReg_of_exec (exec_srav ..) (sshiftRight_eq_ofInt ..)⟩

end Sys2Proof.Machine
end

section
/-! PROOFS. Multiply, divide, HI and LO (43_muldiv.md R190 to R197): each of the eight words decodes to its instruction; a product fits
its 64 bits, and outside the open corners a division is the truncating word division. -/

namespace Sys2Proof

/-! ## The words -/

/-- The instructions of 43_muldiv.md. -/
def Instr.isMulDiv : Instr → Bool
  | .mult .. | .multu .. | .div .. | .divu .. | .mfhi .. | .mthi .. | .mflo .. | .mtlo .. => true
  | _ => false

/-- Each row wants its unused fields zero, and the encoding's are (R107, R108). -/
theorem decode_encode_mulDiv (i : Instr) (hi : i.isMulDiv = true) : decode (encode i) = .ok i := by
  cases i <;> cases hi
  case mult | multu | div | divu | mfhi | mthi | mflo | mtlo =>
    simp only [encode, decode_rType, decodeSpecial, functField_rType, rsField_rType, rtField_rType, rdField_rType,
      shamtField_rType]
    rfl

end Sys2Proof

namespace Sys2Proof.Machine

/-! ## The product -/

/-- HI above LO is the product written into them (R190, R191). -/
theorem writeProduct_hi_append_lo (p : BitVec 64) (s : State) : (writeProduct p s).hi ++ (writeProduct p s).lo = p :=
  BitVec.extractLsb'_append_extractLsb'

/-- 64 bits hold the exact signed product of two words (R190). -/
theorem toInt_ofInt_mul (a b : Word) : (BitVec.ofInt 64 (a.toInt * b.toInt)).toInt = a.toInt * b.toInt := by
  have hlow : -2 ^ (32 * 2 - 2) ≤ a.toInt * b.toInt := BitVec.le_toInt_mul_toInt
  have hhigh : a.toInt * b.toInt ≤ 2 ^ (32 * 2 - 2) := BitVec.toInt_mul_toInt_le
  exact BitVec.toInt_ofInt_eq_self (by decide) (by omega) (by omega)

/-- 64 bits hold the exact unsigned product of two words (R191). -/
theorem toNat_ofNat_mul (a b : Word) : (BitVec.ofNat 64 (a.toNat * b.toNat)).toNat = a.toNat * b.toNat := by
  have hbound : a.toNat * b.toNat < 2 ^ 32 * 2 ^ 32 := Nat.mul_lt_mul'' a.isLt b.isLt
  rw [BitVec.toNat_ofNat]
  exact Nat.mod_eq_of_lt hbound

/-- Settles O28: the two words decode, and the halves written join to a product that 64 bits hold. -/
theorem multiplyRule : Obligations.MultiplyRule := fun s rs rt =>
  ⟨decode_encode_mulDiv (.mult rs rt) rfl, decode_encode_mulDiv (.multu rs rt) rfl,
   ⟨_, _, exec_mult rs rt s, (congrArg BitVec.toInt (writeProduct_hi_append_lo _ s)).trans (toInt_ofInt_mul ..)⟩,
   ⟨_, _, exec_multu rs rt s, (congrArg BitVec.toNat (writeProduct_hi_append_lo _ s)).trans (toNat_ofNat_mul ..)⟩⟩

/-! ## The signed division -/

/-- The operands DIV leaves open: a zero divisor, and the one quotient a word does not hold (R192). -/
abbrev DivOpen (n d : Int) : Prop := d = 0 ∨ n = -2147483648 ∧ d = -1

theorem exec_div_of_open {s : State} {rs rt : Reg} (h : DivOpen (s.x rs).toInt (s.x rt).toInt) :
    exec (.div rs rt) s = .next (drawQuotient .signed (s.x rs) (s.x rt) s) := if_pos h

/-- Outside the open corners the word quotient is the exact truncated one. -/
theorem toInt_sdiv_of_not_open {a b : Word} (h : ¬DivOpen a.toInt b.toInt) :
    (a.sdiv b).toInt = a.toInt.tdiv b.toInt := by
  refine BitVec.toInt_sdiv_of_ne_or_ne a b (not_and_or.1 ?_)
  rintro ⟨rfl, rfl⟩
  exact h (.inr ⟨rfl, rfl⟩)

/-- Outside the open corners DIV writes the truncating word quotient and its remainder (R192). -/
theorem exec_div_of_not_open {s : State} {rs rt : Reg} (h : ¬DivOpen (s.x rs).toInt (s.x rt).toInt) :
    exec (.div rs rt) s = .next { s with lo := (s.x rs).sdiv (s.x rt), hi := (s.x rs).srem (s.x rt) } := by
  have hexec : exec (.div rs rt) s = .next { s with
      lo := BitVec.ofInt 32 ((s.x rs).toInt.tdiv (s.x rt).toInt)
      hi := BitVec.ofInt 32 ((s.x rs).toInt - (s.x rs).toInt.tdiv (s.x rt).toInt * (s.x rt).toInt) } := if_neg h
  rw [hexec, mul_comm, ← Int.tmod_def, ← BitVec.toInt_srem, ← toInt_sdiv_of_not_open h, BitVec.ofInt_toInt,
    BitVec.ofInt_toInt]

theorem abs_tmod_lt (n : Int) {d : Int} (hd : d ≠ 0) : |n.tmod d| < |d| := by
  rw [Int.abs_eq_natAbs, Int.abs_eq_natAbs, Int.natAbs_tmod]
  exact_mod_cast Nat.mod_lt _ (Int.natAbs_pos.2 hd)

/-- A truncated remainder is zero or has the sign of the dividend (R192). -/
theorem tmod_eq_zero_or_neg_iff (n d : Int) : n.tmod d = 0 ∨ (n.tmod d < 0 ↔ n < 0) := by
  by_cases hdvd : d ∣ n
  · exact .inl (Int.tmod_eq_zero_of_dvd hdvd)
  · have hsign : (n.tmod d).sign = n.sign := by rw [Int.sign_tmod, if_neg hdvd]
    exact .inr (by rw [← Int.sign_eq_neg_one_iff_neg, hsign, Int.sign_eq_neg_one_iff_neg])

/-- Settles O29: in the open corners DIV draws, and outside them it writes the quotient and the remainder of the truncating division,
whose laws are the statement's. -/
theorem signedDivideRule : Obligations.SignedDivideRule := fun s rs rt => by
  refine ⟨decode_encode_mulDiv (.div rs rt) rfl, fun hopen => ⟨_, _, _, exec_div_of_open hopen⟩,
    fun hopen => ⟨_, _, exec_div_of_not_open hopen, ?_⟩⟩
  rw [BitVec.toInt_srem, toInt_sdiv_of_not_open hopen]
  exact ⟨(Int.tdiv_mul_add_tmod ..).symm, abs_tmod_lt _ fun hd => hopen (.inl hd), tmod_eq_zero_or_neg_iff ..⟩

/-! ## The unsigned division -/

theorem exec_divu_of_zero {s : State} {rs rt : Reg} (h : (s.x rt).toNat = 0) :
    exec (.divu rs rt) s = .next (drawQuotient .unsigned (s.x rs) (s.x rt) s) := if_pos h

/-- With a divisor other than zero DIVU writes the word quotient and its remainder (R193). -/
theorem exec_divu_of_ne_zero {s : State} {rs rt : Reg} (h : (s.x rt).toNat ≠ 0) :
    exec (.divu rs rt) s = .next { s with lo := s.x rs / s.x rt, hi := s.x rs % s.x rt } := by
  rw [BitVec.udiv_def, BitVec.umod_def, Nat.mod_eq_sub_div_mul]
  exact if_neg h

/-- Settles O30: with divisor zero DIVU draws, and else it writes the quotient and the remainder of the word division. -/
theorem unsignedDivideRule : Obligations.UnsignedDivideRule := fun s rs rt => by
  refine ⟨decode_encode_mulDiv (.divu rs rt) rfl, fun hd => ⟨_, _, _, exec_divu_of_zero hd⟩,
    fun hd => ⟨_, _, exec_divu_of_ne_zero hd, ?_⟩⟩
  rw [BitVec.toNat_udiv, BitVec.toNat_umod]
  exact ⟨(Nat.div_add_mod' ..).symm, Nat.mod_lt _ (Nat.pos_of_ne_zero hd)⟩

/-! ## The moves -/

/-- Settles O31: the four words decode, MFHI and MFLO are one register write, and MTHI and MTLO write one field of the state. -/
theorem hiLoMoves : Obligations.HiLoMoves := fun s rd rs =>
  ⟨decode_encode_mulDiv (.mfhi rd) rfl, decode_encode_mulDiv (.mthi rs) rfl, decode_encode_mulDiv (.mflo rd) rfl,
   decode_encode_mulDiv (.mtlo rs) rfl, setsReg_of_exec (exec_mfhi rd s) rfl, setsReg_of_exec (exec_mflo rd s) rfl,
   exec_mthi rs s, exec_mtlo rs s⟩

end Sys2Proof.Machine
end

section
/-! PROOFS. Jumps and branches (44_branch_jump.md R200 to R221): each of the twenty words decodes to its instruction, and each
instruction is one `doBranch`, whose target and condition are those of the statements. -/

namespace Sys2Proof

/-! ## The words -/

/-- Opcode 1 selects the REGIMM map (R107). -/
theorem decode_iType_regimm (rs rt : Reg) (imm : Imm) : decode (iType 1 rs rt imm) = decodeRegimm (iType 1 rs rt imm) := by
  simp only [decode, opField_iType]
  rfl

/-- The word of a control-flow instruction decodes to it: its opcode, and its funct or its selector in the SPECIAL and the REGIMM map,
select its row, whose must-be-zero fields the encoding leaves zero (R107 to R109). -/
theorem decode_encode_controlFlow (i : Instr) (hi : i.isControlFlow = true) : decode (encode i) = .ok i := by
  cases i <;> cases hi
  case j | jal =>
    simp only [encode, decode, opField_jType, indexField_jType]
    rfl
  case jr | jalr =>
    simp only [encode, decode_rType, decodeSpecial, functField_rType, rsField_rType, rtField_rType, rdField_rType,
      shamtField_rType]
    rfl
  case beq | bne | blez | bgtz | beql | bnel | blezl | bgtzl =>
    simp only [encode, decode, opField_iType, rsField_iType, rtField_iType, immField_iType]
    rfl
  case bltz | bgez | bltzal | bgezal | bltzl | bgezl | bltzall | bgezall =>
    simp only [encode, decode_iType_regimm, decodeRegimm, rsField_iType, rtField_iType, immField_iType]

end Sys2Proof

namespace Sys2Proof.Machine

/-! ## The targets and the conditions -/

/-- The jump target is the index, as a word address, in the segment of the pc (R201). -/
theorem jumpTarget_eq (s : State) (index : BitVec 26) :
    s.jumpTarget index = s.pc.extractLsb' 28 4 ++ index ++ 0b00#2 := by
  refine BitVec.eq_of_getLsbD_eq fun i hi => ?_
  simp only [State.jumpTarget, BitVec.getLsbD_or, BitVec.getLsbD_and, BitVec.getLsbD_shiftLeft, BitVec.getLsbD_setWidth,
    BitVec.getLsbD_append, BitVec.getLsbD_extractLsb']
  interval_cases i <;> simp

/-- The branch target is the pc plus four times the signed offset (R201). -/
theorem branchTarget_eq (s : State) (off : Imm) : s.branchTarget off = s.pc + BitVec.ofInt 32 (4 * off.toInt) := by
  have h : sext16 off <<< 2 = BitVec.ofInt 32 (4 * off.toInt) := calc
    sext16 off <<< 2 = sext16 off * BitVec.ofInt 32 4 := BitVec.shiftLeft_eq_mul_twoPow ..
    _ = BitVec.ofInt 32 (4 * off.toInt) := by
      rw [BitVec.ofInt_mul, ← toInt_sext16, BitVec.ofInt_toInt, BitVec.mul_comm]
  rw [State.branchTarget, h]

/-- An instruction that is one `doBranch` answers as the rule of `doBranch` says (R130, R131). -/
theorem branches_of_exec {i : Instr} {s : State} {target : Word} {cond : Bool} {link : Reg} {likely : Bool}
    (h : exec i s = doBranch target cond link likely s) : Branches (exec i s) s target cond link likely :=
  h ▸ doBranchRule s target cond link likely

/-- A branch to an offset, its condition in the statement's form. -/
theorem branches_offset_of_exec {i : Instr} {s : State} {off : Imm} {cond cond' : Bool} {link : Reg} {likely : Bool}
    (h : exec i s = doBranch (s.branchTarget off) cond link likely s) (hc : cond = cond') :
    Branches (exec i s) s (s.pc + BitVec.ofInt 32 (4 * off.toInt)) cond' link likely :=
  hc ▸ branchTarget_eq s off ▸ branches_of_exec h

/-! ## The obligations -/

/-- Settles O32: the four words decode, and each jump is one `doBranch` that is always taken. -/
theorem jumpInstructions : Obligations.JumpInstructions := fun s index rd rs =>
  ⟨decode_encode_controlFlow (.j index) rfl, decode_encode_controlFlow (.jal index) rfl,
   decode_encode_controlFlow (.jr rs) rfl, decode_encode_controlFlow (.jalr rd rs) rfl,
   jumpTarget_eq s index ▸ branches_of_exec (exec_j index s),
   jumpTarget_eq s index ▸ branches_of_exec (exec_jal index s),
   branches_of_exec (exec_jr rs s), branches_of_exec (exec_jalr rd rs s)⟩

/-- Settles O33: the six words decode, and each branch is one `doBranch` on its condition, without link. -/
theorem conditionalBranches : Obligations.ConditionalBranches := fun s rs rt off =>
  ⟨decode_encode_controlFlow (.beq rs rt off) rfl, decode_encode_controlFlow (.bne rs rt off) rfl,
   decode_encode_controlFlow (.blez rs off) rfl, decode_encode_controlFlow (.bgtz rs off) rfl,
   decode_encode_controlFlow (.bltz rs off) rfl, decode_encode_controlFlow (.bgez rs off) rfl,
   branches_offset_of_exec (exec_beq rs rt off s) (beq_eq_decide ..),
   branches_offset_of_exec (exec_bne rs rt off s) decide_not.symm,
   branches_offset_of_exec (exec_blez rs off s) rfl, branches_offset_of_exec (exec_bgtz rs off s) rfl,
   branches_offset_of_exec (exec_bltz rs off s) rfl, branches_offset_of_exec (exec_bgez rs off s) rfl⟩

/-- Settles O34: the two words decode, and each branch is one `doBranch` on its condition that links register 31. -/
theorem linkingBranches : Obligations.LinkingBranches := fun s rs off =>
  ⟨decode_encode_controlFlow (.bltzal rs off) rfl, decode_encode_controlFlow (.bgezal rs off) rfl,
   branches_offset_of_exec (exec_bltzal rs off s) rfl, branches_offset_of_exec (exec_bgezal rs off s) rfl⟩

/-- Settles O35: the six words decode, and each branch is one likely `doBranch` on its condition, without link. -/
theorem likelyBranches : Obligations.LikelyBranches := fun s rs rt off =>
  ⟨decode_encode_controlFlow (.beql rs rt off) rfl, decode_encode_controlFlow (.bnel rs rt off) rfl,
   decode_encode_controlFlow (.blezl rs off) rfl, decode_encode_controlFlow (.bgtzl rs off) rfl,
   decode_encode_controlFlow (.bltzl rs off) rfl, decode_encode_controlFlow (.bgezl rs off) rfl,
   branches_offset_of_exec (exec_beql rs rt off s) (beq_eq_decide ..),
   branches_offset_of_exec (exec_bnel rs rt off s) decide_not.symm,
   branches_offset_of_exec (exec_blezl rs off s) rfl, branches_offset_of_exec (exec_bgtzl rs off s) rfl,
   branches_offset_of_exec (exec_bltzl rs off s) rfl, branches_offset_of_exec (exec_bgezl rs off s) rfl⟩

/-- Settles O36: the two words decode, and each branch is one likely `doBranch` on its condition that links register 31. -/
theorem likelyLinkingBranches : Obligations.LikelyLinkingBranches := fun s rs off =>
  ⟨decode_encode_controlFlow (.bltzall rs off) rfl, decode_encode_controlFlow (.bgezall rs off) rfl,
   branches_offset_of_exec (exec_bltzall rs off s) rfl, branches_offset_of_exec (exec_bgezall rs off s) rfl⟩

end Sys2Proof.Machine
end

section
/-! PROOFS. SYSCALL, BREAK and SYNC (46_system_cop0.md R260 to R262): their three words decode whatever the ignored field; SYSCALL and
BREAK are one exception entry each, which completes exactly at a valid vector, and SYNC answers its own state. -/

namespace Sys2Proof

/-! ## The words -/

/-- Opcode 0 selects the SPECIAL map for the words with a code field too (R107). -/
theorem decode_codeType (code : BitVec 20) (f : BitVec 6) : decode (codeType code f) = decodeSpecial (codeType code f) := by
  simp only [decode, opField_codeType]
  rfl

theorem decode_encode_syscall (code : BitVec 20) : decode (encode (.syscall code)) = .ok (.syscall code) := by
  simp only [encode, decode_codeType, decodeSpecial, functField_codeType, codeField_codeType]
  rfl

theorem decode_encode_brk (code : BitVec 20) : decode (encode (.brk code)) = .ok (.brk code) := by
  simp only [encode, decode_codeType, decodeSpecial, functField_codeType, codeField_codeType]
  rfl

/-- The row wants rs, rt and rd zero, and the encoding's are (R108). -/
theorem decode_encode_sync (stype : BitVec 5) : decode (encode (.sync stype)) = .ok (.sync stype) := by
  simp only [encode, decode_rType, decodeSpecial, functField_rType, rsField_rType, rtField_rType, rdField_rType,
    shamtField_rType]
  rfl

end Sys2Proof

namespace Sys2Proof.Machine

/-! ## Exception entry -/

/-- With EXL clear, entry saves the delay-slot flag and the address to resume at (step 5 of R320). -/
theorem enter_saved_of_exl_clear {c : Cop0} (h : c.exl = false) (e : Exc) (slot : Bool) (pc : Word) :
    (c.enter e slot pc).bd = slot ∧ (c.enter e slot pc).epc = if slot then pc - 4 else pc := by
  simpa only [h, Bool.false_eq_true, if_false] using enter_saved c e slot pc

/-- With EXL set, entry keeps what the outer one saved (step 5 of R320). -/
theorem enter_saved_of_exl_set {c : Cop0} (h : c.exl = true) (e : Exc) (slot : Bool) (pc : Word) :
    (c.enter e slot pc).bd = c.bd ∧ (c.enter e slot pc).epc = c.epc := by
  simpa only [h, if_true] using enter_saved c e slot pc

/-- The state in which exception entry goes on is the entered one: every field the six steps do not name is as before (R320). -/
theorem entered_of_raiseException {e : Exc} {s t : State} (h : raiseException e s = .next t) : Entered e s t := by
  obtain ⟨-, rfl⟩ := raiseException_next.1 h
  exact {
    pc := rfl
    npc := rfl
    halted := rfl
    code := enter_excCode ..
    fresh := fun hexl => enter_saved_of_exl_clear hexl ..
    nested := fun hexl => enter_saved_of_exl_set hexl ..
    dsCur := rfl
    dsNext := rfl
    exl := enter_status ..
    ipsw := enter_ipsw ..
    ebase := enter_ebase ..
    llbit := rfl
    regs := fun _ _ => rfl
    hiLo := ⟨rfl, rfl⟩
    platform := ⟨rfl, rfl, rfl, rfl, rfl, rfl⟩
    bytes := fun _ => rfl }

/-- At a valid vector exception entry completes (R126, R320). -/
theorem raiseException_of_validTarget {e : Exc} {s : State} (h : ValidTarget (s.vector e)) :
    ∃ t, raiseException e s = .next t ∧ Entered e s t :=
  have hnext := raiseException_next.2 ⟨h, rfl⟩
  ⟨_, hnext, entered_of_raiseException hnext⟩

/-- A vector that fails the test of `setPC` stops the machine (R126, R320). -/
theorem raiseException_of_not_validTarget {e : Exc} {s : State} (h : ¬ValidTarget (s.vector e)) :
    ∃ f, raiseException e s = .fault f := by
  obtain ⟨-, hf⟩ | ⟨-, -, hf⟩ | ⟨hv, -⟩ := checkTarget_cases (s.vector e)
  · exact ⟨_, setPC_of_checkTarget_fault hf _⟩
  · exact ⟨_, setPC_of_checkTarget_fault hf _⟩
  · exact absurd hv h

/-- With EXL clear and no branch pending, entry resumes at the pc of the execute step, outside a slot (R322). -/
theorem Entered.saved_of_no_branch {e : Exc} {s t : State} (h : Entered e s t) (hexl : s.cop0.status.getLsbD 1 = false)
    (hds : s.dsNext = false) : t.cop0.epc = s.pc ∧ t.cop0.bd = false := by
  obtain ⟨hbd, hepc⟩ := h.fresh hexl
  simp [hbd, hepc, hds]

/-- An instruction that raises one exception enters it with the cause's code wherever the vector is valid (R260, R322). -/
theorem enters_of_exec {i : Instr} {e : Exc} {s : State} (h : exec i s = raiseException e s) (hv : ValidTarget (s.vector e)) :
    ∃ t, exec i s = .next t ∧ Entered e s t ∧ t.cop0.excCode = e.code ∧
      (s.cop0.status.getLsbD 1 = false → s.dsNext = false → t.cop0.epc = s.pc ∧ t.cop0.bd = false) := by
  obtain ⟨t, ht, hentered⟩ := raiseException_of_validTarget hv
  exact ⟨t, h.trans ht, hentered, hentered.code, hentered.saved_of_no_branch⟩

/-! ## The obligations -/

/-- Settles O52: the two words decode for every code, and each instruction is one exception entry of its cause. -/
theorem syscallAndBreak : Obligations.SyscallAndBreak := fun s code =>
  ⟨decode_encode_syscall code, decode_encode_brk code,
   enters_of_exec (exec_syscall code s), enters_of_exec (exec_brk code s),
   exec_syscall code s ▸ raiseException_of_not_validTarget, exec_brk code s ▸ raiseException_of_not_validTarget⟩

/-- Settles O53: the word decodes for every stype, and SYNC answers the state it was given. -/
theorem syncDoesNothing : Obligations.SyncDoesNothing := fun s stype =>
  ⟨decode_encode_sync stype, exec_sync stype s⟩

end Sys2Proof.Machine
end

section
/-! PROOFS. Coprocessor 0, exception entry and return (46_system_cop0.md R263 to R265, 60_exceptions.md R305 to R326), and when an
interrupt is deliverable (R311, R334): the three words decode, the moves reach four registers by index, entry and return are one
`setPC` each, and a mask that meets a word does so in some bit. -/

namespace Sys2Proof

/-! ## The words -/

/-- Opcode 16 selects the COP0 map (R107). -/
theorem decode_cop0Type (rs : BitVec 5) (rt : Reg) (index : Nat) :
    decode (cop0Type rs rt index) = decodeCop0 (cop0Type rs rt index) := by
  simp only [decode, opField_cop0Type]
  rfl

/-- The index of a move of coprocessor 0 stands in its word as a register number does (R110). -/
theorem cop0Type_of_reg (rs : BitVec 5) (rt rd : Reg) :
    cop0Type rs rt rd.val = 16#6 ++ rs ++ regBits rt ++ regBits rd ++ 0#11 := by
  rw [cop0Type, BitVec.ofNat_finVal]
  rfl

/-- The two selectors of the moves, with every register and every index their fields can hold (R110). -/
theorem decode_cop0Move_words (rt rd : Reg) :
    decode (16#6 ++ 0#5 ++ regBits rt ++ regBits rd ++ 0#11) = .ok (.mfc0 rt rd.val) ∧
      decode (16#6 ++ 4#5 ++ regBits rt ++ regBits rd ++ 0#11) = .ok (.mtc0 rt rd.val) := by
  simp only [← cop0Type_of_reg, decode_cop0Type, decodeCop0, rsField_cop0Type, rtField_cop0Type, rdField_cop0Type,
    low_cop0Type, Nat.mod_eq_of_lt rd.isLt]
  exact ⟨rfl, rfl⟩

end Sys2Proof

namespace Sys2Proof.Machine

/-! ## When an interrupt is deliverable -/

/-- Two vectors of bits meet exactly when some bit is set in both. -/
theorem bitVec_and_ne_zero_iff {w : Nat} (a b : BitVec w) :
    a &&& b ≠ 0#w ↔ ∃ k < w, a.getLsbD k = true ∧ b.getLsbD k = true := by
  constructor
  · intro h
    have hbit := BitVec.getLsbD_true_ctz_of_ne_zero h
    exact ⟨_, BitVec.lt_of_getLsbD hbit, by simpa only [BitVec.getLsbD_and, Bool.and_eq_true] using hbit⟩
  · rintro ⟨k, -, ha, hb⟩ h
    have hbit : (a &&& b).getLsbD k = true := by rw [BitVec.getLsbD_and, ha, hb, Bool.and_self]
    rw [h, BitVec.getLsbD_zero] at hbit
    exact Bool.false_ne_true hbit

/-- The controller's aggregate: some source is pending and let through by its bank's mask (R334). -/
theorem isPending_iff (s : State) :
    s.isPending = true ↔ ∃ b ∈ s.intc, ∃ n < 32, b.pending.getLsbD n = true ∧ b.mask.getLsbD n = true := by
  simp only [State.isPending, List.any_eq_true, bne_iff_ne, bitVec_and_ne_zero_iff]

/-- Bit `k` of `cause.IP` is the software bit, or the aggregate on its line (R37). -/
theorem causeIP_bit (s : State) {k : Nat} (hk : k < 8) :
    s.causeIP.getLsbD k = true ↔ s.cop0.ipsw.getLsbD k = true ∨ k = s.cfg.ipLine ∧ s.isPending = true := by
  unfold State.causeIP
  split
  · next hp => simp only [BitVec.getLsbD_or, getLsbD_one_shiftLeft _ _ hk, BitVec.getLsbD_setWidth, hk, hp, decide_true,
      Bool.true_and, Bool.or_eq_true, decide_eq_true_eq, and_true, or_comm]
  · next hp => simp [hk, hp]

/-- Bit `k` of `status.IM` is bit `8 + k` of `status` (R34). -/
theorem im_bit (c : Cop0) {k : Nat} (hk : k < 8) : c.im.getLsbD k = c.status.getLsbD (8 + k) := by
  simp [Cop0.im, hk]

/-- Settles O56: IM meets IP in some bit, and each bit of IP is what R37 makes it. -/
theorem deliverableCondition : Obligations.DeliverableCondition := fun s => by
  have hmeet : (s.cop0.im &&& s.causeIP != 0#8) = true ↔ ∃ k < 8, s.cop0.status.getLsbD (8 + k) = true ∧
      (s.cop0.ipsw.getLsbD k = true ∨
        k = s.cfg.ipLine ∧ ∃ b ∈ s.intc, ∃ n < 32, b.pending.getLsbD n = true ∧ b.mask.getLsbD n = true) := by
    rw [bne_iff_ne, bitVec_and_ne_zero_iff, ← isPending_iff]
    refine exists_congr fun k => and_congr_right fun hk => ?_
    rw [im_bit _ hk, causeIP_bit s hk]
  simp only [State.isInterruptPending, Bool.and_eq_true, hmeet, Cop0.ie, Cop0.exl, Cop0.erl, Bool.not_eq_true', and_assoc]

/-! ## The test of a return address or a vector -/

theorem checkTarget_zero {a : Word} (h : a = 0#32) : checkTarget a = .fault (.jumpToZero 0#32) :=
  (checkTarget_of_zero h).trans (by rw [h])

/-- A vector that fails the test of `setPC` stops the entry as the test does (R126, R320). -/
theorem raiseException_of_checkTarget_fault {s : State} {e : Exc} {f : Fault} (h : checkTarget (s.vector e) = .fault f) :
    raiseException e s = .fault f :=
  setPC_of_checkTarget_fault h _

/-- Settles O51: at a valid vector the entry completes in the entered state, and else it stops as the test of the vector does. -/
theorem exceptionEntryRule : Obligations.ExceptionEntryRule := fun _ _ =>
  ⟨raiseException_of_validTarget,
   fun h => raiseException_of_checkTarget_fault (checkTarget_zero h),
   fun h => raiseException_of_checkTarget_fault (checkTarget_of_misaligned h)⟩

/-! ## The moves of coprocessor 0 -/

/-- `cause` read whole is its fields, from BD down, with zeros between (R37). -/
theorem causeWord_eq_append (c : Cop0) (ip : BitVec 8) :
    c.causeWord ip = (if c.bd then 1#1 else 0#1) ++ 0#15 ++ ip ++ 0#1 ++ c.excCode ++ 0#2 := by
  refine BitVec.eq_of_getLsbD_eq fun i hi => ?_
  simp only [Cop0.causeWord, BitVec.getLsbD_or, BitVec.getLsbD_shiftLeft, BitVec.getLsbD_setWidth, BitVec.getLsbD_append]
  cases c.bd <;> interval_cases i <;> simp

/-- A read that answers a value sets the destination to it (R263). -/
theorem setsReg_mfc0_of_read {s : State} {index : Nat} {v : Word} (h : cop0Read index s = .next v) (rt : Reg) :
    SetsReg (.mfc0 rt index) s rt v :=
  setsReg_of_exec (by rw [exec_mfc0, h, bind_next]) rfl

/-- No register stands at another index than the four (R306). -/
theorem cop0Read_unmapped {index : Nat} (h : index ∉ [12, 13, 14, 25]) (s : State) :
    cop0Read index s = .fault (.unmappedCop0Index index) := by
  simp only [List.mem_cons, List.not_mem_nil, or_false, not_or] at h
  simp only [cop0Read, h, if_false]

theorem cop0Write_unmapped {index : Nat} (h : index ∉ [12, 13, 14, 25]) (v : Word) (s : State) :
    cop0Write index v s = .fault (.unmappedCop0Index index) := by
  simp only [List.mem_cons, List.not_mem_nil, or_false, not_or] at h
  simp only [cop0Write, h, if_false]

/-- Settles O54: the two words decode, each of the four indices reads and writes its register, and another index stops both. -/
theorem controlRegisterMoves : Obligations.ControlRegisterMoves := fun s rt rd =>
  have ⟨hmfc0, hmtc0⟩ := decode_cop0Move_words rt rd
  ⟨hmfc0, hmtc0,
   setsReg_mfc0_of_read rfl rt, causeWord_eq_append s.cop0 s.causeIP ▸ setsReg_mfc0_of_read rfl rt,
   setsReg_mfc0_of_read rfl rt, setsReg_mfc0_of_read rfl rt,
   exec_mtc0 rt 12 s, exec_mtc0 rt 13 s, exec_mtc0 rt 14 s, exec_mtc0 rt 25 s,
   fun index h =>
    ⟨by rw [exec_mfc0, cop0Read_unmapped h, bind_fault], by rw [exec_mtc0, cop0Write_unmapped h]⟩⟩

/-! ## Exception return -/

theorem exceptionReturn_of_erl {s : State} (h : s.cop0.status.getLsbD 2 = true) :
    exceptionReturn s = .fault .eretWithERL := if_pos h

/-- With ERL clear, an `epc` that fails the test of `setPC` stops the return as the test does (R126, R325). -/
theorem exceptionReturn_of_checkTarget_fault {s : State} {f : Fault} (herl : s.cop0.status.getLsbD 2 = false)
    (h : checkTarget s.cop0.epc = .fault f) : exceptionReturn s = .fault f :=
  (if_neg (Bool.eq_false_iff.1 herl)).trans (setPC_of_checkTarget_fault h _)

/-- Settles O55: the word decodes, ERL stops the return, and with ERL clear it goes to a valid `epc` and stops at any other. -/
theorem eretRule : Obligations.EretRule := fun _ =>
  ⟨rfl, exceptionReturn_of_erl,
   fun herl h => exceptionReturn_of_checkTarget_fault herl (checkTarget_zero h),
   fun herl h => exceptionReturn_of_checkTarget_fault herl (checkTarget_of_misaligned h),
   fun herl hv => exceptionReturn_next.2 ⟨herl, hv, rfl⟩⟩

end Sys2Proof.Machine
end

section
/-! PROOFS. Encoding and decoding (30_encoding.md R101 to R110): every encoding decodes to its instruction, every word that decodes is
an encoding, and the words a row of the opcode table covers are the encodings of the instructions with its mnemonic. -/

namespace Sys2Proof

/-! ## Every encoding decodes to its instruction -/

/-- The instructions of 45_load_store.md. -/
def Instr.isLoadStore : Instr → Bool
  | .lb .. | .lbu .. | .lh .. | .lhu .. | .lw .. | .lwl .. | .lwr .. => true
  | .sb .. | .sh .. | .sw .. | .swl .. | .swr .. | .ll .. | .sc .. => true
  | _ => false

/-- Each opcode has one row of the primary map, and no field of it is zero by rule (R107). -/
theorem decode_encode_loadStore (i : Instr) (hi : i.isLoadStore = true) : decode (encode i) = .ok i := by
  cases i <;> cases hi
  case lb | lbu | lh | lhu | lw | lwl | lwr | sb | sh | sw | swl | swr | ll | sc =>
    simp only [encode, decode, opField_iType, rsField_iType, rtField_iType, immField_iType]
    rfl

/-- The encoding of a constant shift holds an amount below 32 whole (R101). -/
theorem decode_encode_constantShift (rt rd : Reg) {shamt : Nat} (h : shamt < 32) :
    decode (encode (.sll rd rt shamt)) = .ok (.sll rd rt shamt) ∧
      decode (encode (.srl rd rt shamt)) = .ok (.srl rd rt shamt) ∧
      decode (encode (.sra rd rt shamt)) = .ok (.sra rd rt shamt) := by
  have hsa : (BitVec.ofNat 5 shamt).toNat = shamt := Nat.mod_eq_of_lt h
  have hrows := decode_constantShift_rows 0 rt rd (BitVec.ofNat 5 shamt)
  rwa [hsa] at hrows

/-- The encoding of a move of coprocessor 0 holds an index below 32 whole (R101). -/
theorem decode_encode_cop0Move (rt : Reg) {index : Nat} (h : index < 32) :
    decode (encode (.mfc0 rt index)) = .ok (.mfc0 rt index) ∧
      decode (encode (.mtc0 rt index)) = .ok (.mtc0 rt index) := by
  have hwords := decode_cop0Move_words rt ⟨index, h⟩
  rwa [← cop0Type_of_reg, ← cop0Type_of_reg] at hwords

/-- Settles O1: family by family, the opcode and the selectors of the maps find the instruction's row, and the fields give back its
operands. -/
theorem decodeOfEncode : Obligations.DecodeOfEncode := by
  intro i hwf
  cases i
  case add | addu | sub | subu | and | or | xor | nor | slt | sltu | addi | addiu | slti | sltiu | andi | ori | xori | lui =>
    exact decode_alu_word rfl rfl
  case sll rd rt shamt => exact (decode_encode_constantShift rt rd (of_decide_eq_true hwf)).1
  case srl rd rt shamt => exact (decode_encode_constantShift rt rd (of_decide_eq_true hwf)).2.1
  case sra rd rt shamt => exact (decode_encode_constantShift rt rd (of_decide_eq_true hwf)).2.2
  case sllv rd rt rs => exact (decode_variableShift_rows rs rt rd 0).1
  case srlv rd rt rs => exact (decode_variableShift_rows rs rt rd 0).2.1
  case srav rd rt rs => exact (decode_variableShift_rows rs rt rd 0).2.2
  case mult | multu | div | divu | mfhi | mthi | mflo | mtlo => exact decode_encode_mulDiv _ rfl
  case j | jal | jr | jalr | beq | bne | blez | bgtz | bltz | bgez | bltzal | bgezal | beql | bnel | blezl | bgtzl | bltzl |
      bgezl | bltzall | bgezall =>
    exact decode_encode_controlFlow _ rfl
  case lb | lbu | lh | lhu | lw | lwl | lwr | sb | sh | sw | swl | swr | ll | sc => exact decode_encode_loadStore _ rfl
  case syscall code => exact decode_encode_syscall code
  case brk code => exact decode_encode_brk code
  case sync stype => exact decode_encode_sync stype
  case mfc0 rt index => exact (decode_encode_cop0Move rt (of_decide_eq_true hwf)).1
  case mtc0 rt index => exact (decode_encode_cop0Move rt (of_decide_eq_true hwf)).2
  case eret => rfl

/-! ## Every word that decodes is an encoding -/

/-- A row with must-be-zero fields answers its instruction exactly where they are zero (R104). -/
theorem ifZero_eq_ok {ok : Bool} {i j : Instr} : ifZero ok i = .ok j ↔ ok = true ∧ i = j := by
  cases ok <;> simp [ifZero]

/-- An instruction a row with must-be-zero fields answers is as they show it to be. -/
theorem encodes_of_row {ok : Bool} {w : Word} {i j : Instr} (h : ifZero ok j = .ok i)
    (hj : ok = true → j.wellFormed = true ∧ encode j = w) : i.wellFormed = true ∧ encode i = w := by
  obtain ⟨hok, rfl⟩ := ifZero_eq_ok.1 h
  exact hj hok

/-- A word of the SPECIAL map is its code and its funct (R101). -/
theorem codeType_of_fields {w : Word} (h : opField w = 0) : codeType (codeField w) (functField w) = w := by
  have hw : opField w ++ codeField w ++ functField w = w := by
    refine BitVec.eq_of_getLsbD_eq fun i hi => ?_
    simp only [opField, codeField, functField, BitVec.getLsbD_append, BitVec.getLsbD_extractLsb']
    interval_cases i <;> simp
  rwa [h] at hw

/-- A word of the COP0 map whose low bits are zero is a move's (R110). -/
theorem cop0Type_of_fields {w : Word} (hop : opField w = 16) (hlow : w.extractLsb' 0 11 = 0) :
    cop0Type (regBits (rsField w)) (rtField w) (rdField w).val = w := by
  have hw : opField w ++ regBits (rsField w) ++ regBits (rtField w) ++ regBits (rdField w) ++ w.extractLsb' 0 11 = w := by
    refine BitVec.eq_of_getLsbD_eq fun i hi => ?_
    simp only [regBits, opField, rsField, rtField, rdField, BitVec.ofFin_toFin, BitVec.getLsbD_append,
      BitVec.getLsbD_extractLsb']
    interval_cases i <;> simp
  rw [hop, hlow] at hw
  exact (cop0Type_of_reg ..).trans hw

theorem encode_of_decodeSpecial {w : Word} {i : Instr} (hop : opField w = 0) (h : decodeSpecial w = .ok i) :
    i.wellFormed = true ∧ encode i = w := by
  have hcode := codeType_of_fields hop
  have hw := rType_of_fields w
  rw [hop] at hw
  have hsa : BitVec.ofNat 5 (shamtField w).toNat = shamtField w := BitVec.ofNat_toNat ..
  have hlt : (shamtField w).toNat < 32 := (shamtField w).isLt
  simp only [decodeSpecial] at h
  split at h
  case h_1 hf | h_2 hf | h_3 hf =>
    refine encodes_of_row h fun hz => ⟨decide_eq_true hlt, ?_⟩
    simp_all [encode]
  case h_9 hf | h_10 hf =>
    cases h
    exact ⟨rfl, by rwa [hf] at hcode⟩
  case h_30 => cases h
  all_goals
    refine encodes_of_row h fun hz => ⟨rfl, ?_⟩
    simp_all [encode]

theorem encode_of_decodeRegimm {w : Word} {i : Instr} (hop : opField w = 1) (h : decodeRegimm w = .ok i) :
    i.wellFormed = true ∧ encode i = w := by
  have hw := iType_of_fields w
  rw [hop] at hw
  simp only [decodeRegimm] at h
  split at h
  case h_9 => cases h
  all_goals
    next hrt =>
    cases h
    exact ⟨rfl, by rwa [hrt] at hw⟩

theorem encode_of_decodeCop0 {w : Word} {i : Instr} (hop : opField w = 16) (h : decodeCop0 w = .ok i) :
    i.wellFormed = true ∧ encode i = w := by
  have hlt : (rdField w).val < 32 := (rdField w).isLt
  simp only [decodeCop0] at h
  split at h
  case h_1 hrs | h_2 hrs =>
    refine encodes_of_row h fun hz => ⟨decide_eq_true hlt, ?_⟩
    have hw := cop0Type_of_fields hop (eq_of_beq hz)
    rwa [hrs] at hw
  case h_3 =>
    split at h
    · next hw => cases h; exact ⟨rfl, hw.symm⟩
    · cases h

/-- Settles O2: each row of the primary map and of the three maps below it takes its instruction's operands from the fields, and the
rest of the word from the row. -/
theorem encodeOfDecode : Obligations.EncodeOfDecode := by
  intro w i h
  have hw := iType_of_fields w
  have hj := jType_of_fields w
  simp only [decode] at h
  split at h
  case h_1 hop => exact encode_of_decodeSpecial hop h
  case h_2 hop => exact encode_of_decodeRegimm hop h
  case h_3 hop | h_4 hop =>
    rw [hop] at hj
    cases h
    exact ⟨rfl, hj⟩
  case h_17 hop => exact encode_of_decodeCop0 hop h
  case h_7 hop | h_8 hop | h_16 hop | h_20 hop | h_21 hop =>
    refine encodes_of_row h fun hz => ⟨rfl, ?_⟩
    rw [hop, eq_of_beq hz] at hw
    exact hw
  case h_36 => cases h
  all_goals
    next hop =>
    rw [hop] at hw
    cases h
    exact ⟨rfl, hw⟩

end Sys2Proof
end

section
/-! PROOFS. The opcode table (30_encoding.md R104): the words a row covers are the encodings of the instructions with its
mnemonic. So a word decodes exactly when a row covers it, and since the mnemonics differ, one row at most does. -/

namespace Sys2Proof

/-- `i` is well formed, has the mnemonic `m`, and `w` is its encoding. -/
def Encodes (i : Instr) (m : String) (w : Word) : Prop := i.wellFormed = true ∧ i.mnemonic = m ∧ encode i = w

/-- Every word the row covers is the encoding of a well-formed instruction with the row's mnemonic. -/
def TableRow.Sound (row : TableRow) : Prop := ∀ w, row.covers w → ∃ i, Encodes i row.mnemonic w

theorem Instr.encodes (i : Instr) (h : i.wellFormed = true) : Encodes i i.mnemonic (encode i) := ⟨h, rfl, rfl⟩

/-! ## What a covered word's fields are -/

theorem fields_of_rType_eq {op op' f f' : BitVec 6} {rs rt rd rs' rt' rd' : Reg} {sa sa' : BitVec 5}
    (h : rType op rs rt rd sa f = rType op' rs' rt' rd' sa' f') :
    op = op' ∧ rs = rs' ∧ rt = rt' ∧ rd = rd' ∧ sa = sa' ∧ f = f' :=
  ⟨by simpa using congrArg opField h, by simpa using congrArg rsField h, by simpa using congrArg rtField h,
    by simpa using congrArg rdField h, by simpa using congrArg shamtField h, by simpa using congrArg functField h⟩

theorem fields_of_iType_eq {op op' : BitVec 6} {rs rt rs' rt' : Reg} {imm imm' : Imm}
    (h : iType op rs rt imm = iType op' rs' rt' imm') : op = op' ∧ rs = rs' ∧ rt = rt' ∧ imm = imm' :=
  ⟨by simpa using congrArg opField h, by simpa using congrArg rsField h, by simpa using congrArg rtField h,
    by simpa using congrArg immField h⟩

/-- It is enough to look at the words as R-types of fields. -/
theorem sound_of_rType {row : TableRow}
    (h : ∀ op rs rt rd sa f, row.covers (rType op rs rt rd sa f) → ∃ i, Encodes i row.mnemonic (rType op rs rt rd sa f)) :
    row.Sound := fun w hw => by
  rw [← rType_of_fields w] at hw ⊢
  exact h _ _ _ _ _ _ hw

/-- It is enough to look at the words as I-types of fields. -/
theorem sound_of_iType {row : TableRow}
    (h : ∀ op rs rt imm, row.covers (iType op rs rt imm) → ∃ i, Encodes i row.mnemonic (iType op rs rt imm)) :
    row.Sound := fun w hw => by
  rw [← iType_of_fields w] at hw ⊢
  exact h _ _ _ _ hw

/-! ## The shapes of the rows

For each mask of the table: the fields it keeps are those of the row, and the others are the operands of the row's instruction. -/

section
variable {m : String}

theorem sound_threeRegs {mk : Reg → Reg → Reg → Instr} (f : BitVec 6)
    (hmk : ∀ rs rt rd, Encodes (mk rs rt rd) m (rType 0 rs rt rd 0 f)) :
    TableRow.Sound ⟨m, 0xFC0007FF#32, rType 0 0 0 0 0 f⟩ := sound_of_rType fun op rs rt rd sa f' h => by
  obtain ⟨rfl, -, -, -, rfl, rfl⟩ := fields_of_rType_eq ((mask_threeRegs ..).symm.trans h)
  exact ⟨_, hmk rs rt rd⟩

theorem sound_constantShift {mk : Reg → Reg → Nat → Instr} (f : BitVec 6)
    (hmk : ∀ rt rd sa, sa < 32 → Encodes (mk rt rd sa) m (rType 0 0 rt rd (BitVec.ofNat 5 sa) f)) :
    TableRow.Sound ⟨m, 0xFFE0003F#32, rType 0 0 0 0 0 f⟩ := sound_of_rType fun op rs rt rd sa f' h => by
  obtain ⟨rfl, rfl, -, -, -, rfl⟩ := fields_of_rType_eq ((mask_shift ..).symm.trans h)
  have hsa := hmk rt rd sa.toNat sa.isLt
  rw [BitVec.ofNat_toNat, BitVec.setWidth_eq] at hsa
  exact ⟨_, hsa⟩

theorem sound_sources {mk : Reg → Reg → Instr} (f : BitVec 6) (hmk : ∀ rs rt, Encodes (mk rs rt) m (rType 0 rs rt 0 0 f)) :
    TableRow.Sound ⟨m, 0xFC00FFFF#32, rType 0 0 0 0 0 f⟩ := sound_of_rType fun op rs rt rd sa f' h => by
  obtain ⟨rfl, -, -, rfl, rfl, rfl⟩ := fields_of_rType_eq ((mask_sources ..).symm.trans h)
  exact ⟨_, hmk rs rt⟩

theorem sound_dest {mk : Reg → Instr} (f : BitVec 6) (hmk : ∀ rd, Encodes (mk rd) m (rType 0 0 0 rd 0 f)) :
    TableRow.Sound ⟨m, 0xFFFF07FF#32, rType 0 0 0 0 0 f⟩ := sound_of_rType fun op rs rt rd sa f' h => by
  obtain ⟨rfl, rfl, rfl, -, rfl, rfl⟩ := fields_of_rType_eq ((mask_dest ..).symm.trans h)
  exact ⟨_, hmk rd⟩

theorem sound_source {mk : Reg → Instr} (f : BitVec 6) (hmk : ∀ rs, Encodes (mk rs) m (rType 0 rs 0 0 0 f)) :
    TableRow.Sound ⟨m, 0xFC1FFFFF#32, rType 0 0 0 0 0 f⟩ := sound_of_rType fun op rs rt rd sa f' h => by
  obtain ⟨rfl, -, rfl, rfl, rfl, rfl⟩ := fields_of_rType_eq ((mask_source ..).symm.trans h)
  exact ⟨_, hmk rs⟩

theorem sound_link {mk : Reg → Reg → Instr} (f : BitVec 6) (hmk : ∀ rs rd, Encodes (mk rs rd) m (rType 0 rs 0 rd 0 f)) :
    TableRow.Sound ⟨m, 0xFC1F07FF#32, rType 0 0 0 0 0 f⟩ := sound_of_rType fun op rs rt rd sa f' h => by
  obtain ⟨rfl, -, rfl, -, rfl, rfl⟩ := fields_of_rType_eq ((mask_link ..).symm.trans h)
  exact ⟨_, hmk rs rd⟩

theorem sound_stype {mk : BitVec 5 → Instr} (f : BitVec 6) (hmk : ∀ sa, Encodes (mk sa) m (rType 0 0 0 0 sa f)) :
    TableRow.Sound ⟨m, 0xFFFFF83F#32, rType 0 0 0 0 0 f⟩ := sound_of_rType fun op rs rt rd sa f' h => by
  obtain ⟨rfl, rfl, rfl, rfl, -, rfl⟩ := fields_of_rType_eq ((mask_stype ..).symm.trans h)
  exact ⟨_, hmk sa⟩

theorem sound_imm {mk : Reg → Reg → Imm → Instr} (op : BitVec 6)
    (hmk : ∀ rs rt imm, Encodes (mk rs rt imm) m (iType op rs rt imm)) :
    TableRow.Sound ⟨m, 0xFC000000#32, iType op 0 0 0⟩ := sound_of_iType fun op' rs rt imm h => by
  obtain ⟨rfl, -, -, -⟩ := fields_of_iType_eq ((mask_imm ..).symm.trans h)
  exact ⟨_, hmk rs rt imm⟩

theorem sound_upperImm {mk : Reg → Imm → Instr} (op : BitVec 6) (hmk : ∀ rt imm, Encodes (mk rt imm) m (iType op 0 rt imm)) :
    TableRow.Sound ⟨m, 0xFFE00000#32, iType op 0 0 0⟩ := sound_of_iType fun op' rs rt imm h => by
  obtain ⟨rfl, rfl, -, -⟩ := fields_of_iType_eq ((mask_upperImm ..).symm.trans h)
  exact ⟨_, hmk rt imm⟩

theorem sound_branch {mk : Reg → Imm → Instr} (op : BitVec 6) (sel : Reg)
    (hmk : ∀ rs imm, Encodes (mk rs imm) m (iType op rs sel imm)) :
    TableRow.Sound ⟨m, 0xFC1F0000#32, iType op 0 sel 0⟩ := sound_of_iType fun op' rs rt imm h => by
  obtain ⟨rfl, -, rfl, -⟩ := fields_of_iType_eq ((mask_branch ..).symm.trans h)
  exact ⟨_, hmk rs imm⟩

theorem sound_index {mk : BitVec 26 → Instr} (op : BitVec 6) (hmk : ∀ index, Encodes (mk index) m (jType op index)) :
    TableRow.Sound ⟨m, 0xFC000000#32, jType op 0⟩ := fun w h => by
  have hw := jType_of_fields w
  rw [TableRow.covers, ← hw, mask_index] at h
  have hop : opField w = op := by simpa using congrArg opField h
  rw [hop] at hw
  exact ⟨_, hw ▸ hmk (indexField w)⟩

/-- The mask of SYSCALL and BREAK on the fields of an R-type. -/
theorem mask_code_rType (op f : BitVec 6) (rs rt rd : Reg) (sa : BitVec 5) :
    rType op rs rt rd sa f &&& 0xFC00003F#32 = rType op 0 0 0 0 f := by
  rw [show 0xFC00003F#32 = rType 63 0 0 0 0 63 from rfl, rType_and]
  simp [rType, regBits, and_ones6]

/-- The mask of the moves of coprocessor 0 on the fields of an R-type. -/
theorem mask_cop0_rType (op f : BitVec 6) (rs rt rd : Reg) (sa : BitVec 5) :
    rType op rs rt rd sa f &&& 0xFFE007FF#32 = rType op rs 0 0 sa f := by
  rw [show 0xFFE007FF#32 = rType 63 31 0 0 31 63 from rfl, rType_and]
  simp [rType, regBits, and_ones6, and_ones5]

theorem sound_code {mk : BitVec 20 → Instr} (f : BitVec 6) (hmk : ∀ code, Encodes (mk code) m (codeType code f)) :
    TableRow.Sound ⟨m, 0xFC00003F#32, rType 0 0 0 0 0 f⟩ := sound_of_rType fun op rs rt rd sa f' h => by
  obtain ⟨rfl, -, -, -, -, rfl⟩ := fields_of_rType_eq ((mask_code_rType ..).symm.trans h)
  have hcode := codeType_of_fields (opField_rType 0 rs rt rd sa f')
  rw [functField_rType] at hcode
  exact ⟨_, hcode ▸ hmk _⟩

theorem cop0Type_eq_rType (sel rt rd : Reg) : cop0Type (regBits sel) rt rd.val = rType 16 sel rt rd 0 0 := by
  rw [cop0Type_of_reg]
  refine BitVec.eq_of_getLsbD_eq fun i hi => ?_
  simp only [rType, BitVec.getLsbD_append]
  interval_cases i <;> rfl

theorem sound_cop0 {mk : Reg → Nat → Instr} (sel : Reg)
    (hmk : ∀ rt index, index < 32 → Encodes (mk rt index) m (cop0Type (regBits sel) rt index)) :
    TableRow.Sound ⟨m, 0xFFE007FF#32, rType 16 sel 0 0 0 0⟩ := sound_of_rType fun op rs rt rd sa f' h => by
  obtain ⟨rfl, rfl, -, -, rfl, rfl⟩ := fields_of_rType_eq ((mask_cop0_rType ..).symm.trans h)
  exact ⟨_, cop0Type_eq_rType rs rt rd ▸ hmk rt rd.val rd.isLt⟩

end

/-! ## The rows -/

theorem sound_of_mem_aluRows : ∀ row ∈ aluRows, row.Sound := by
  simp only [aluRows, List.cons_append, List.nil_append, List.forall_mem_cons]
  exact ⟨sound_threeRegs 32 fun rs rt rd => (Instr.add rd rs rt).encodes rfl,
    sound_threeRegs 33 fun rs rt rd => (Instr.addu rd rs rt).encodes rfl,
    sound_threeRegs 34 fun rs rt rd => (Instr.sub rd rs rt).encodes rfl,
    sound_threeRegs 35 fun rs rt rd => (Instr.subu rd rs rt).encodes rfl,
    sound_threeRegs 36 fun rs rt rd => (Instr.and rd rs rt).encodes rfl,
    sound_threeRegs 37 fun rs rt rd => (Instr.or rd rs rt).encodes rfl,
    sound_threeRegs 38 fun rs rt rd => (Instr.xor rd rs rt).encodes rfl,
    sound_threeRegs 39 fun rs rt rd => (Instr.nor rd rs rt).encodes rfl,
    sound_threeRegs 42 fun rs rt rd => (Instr.slt rd rs rt).encodes rfl,
    sound_threeRegs 43 fun rs rt rd => (Instr.sltu rd rs rt).encodes rfl,
    sound_imm 8 fun rs rt imm => (Instr.addi rt rs imm).encodes rfl,
    sound_imm 9 fun rs rt imm => (Instr.addiu rt rs imm).encodes rfl,
    sound_imm 10 fun rs rt imm => (Instr.slti rt rs imm).encodes rfl,
    sound_imm 11 fun rs rt imm => (Instr.sltiu rt rs imm).encodes rfl,
    sound_imm 12 fun rs rt imm => (Instr.andi rt rs imm).encodes rfl,
    sound_imm 13 fun rs rt imm => (Instr.ori rt rs imm).encodes rfl,
    sound_imm 14 fun rs rt imm => (Instr.xori rt rs imm).encodes rfl,
    sound_upperImm 15 fun rt imm => (Instr.lui rt imm).encodes rfl,
    nofun⟩

theorem sound_of_mem_shiftRows : ∀ row ∈ shiftRows, row.Sound := by
  simp only [shiftRows, List.forall_mem_cons]
  exact ⟨sound_constantShift 0 fun rt rd sa h => (Instr.sll rd rt sa).encodes (decide_eq_true h),
    sound_constantShift 2 fun rt rd sa h => (Instr.srl rd rt sa).encodes (decide_eq_true h),
    sound_constantShift 3 fun rt rd sa h => (Instr.sra rd rt sa).encodes (decide_eq_true h),
    sound_threeRegs 4 fun rs rt rd => (Instr.sllv rd rt rs).encodes rfl,
    sound_threeRegs 6 fun rs rt rd => (Instr.srlv rd rt rs).encodes rfl,
    sound_threeRegs 7 fun rs rt rd => (Instr.srav rd rt rs).encodes rfl,
    nofun⟩

theorem sound_of_mem_mulDivRows : ∀ row ∈ mulDivRows, row.Sound := by
  simp only [mulDivRows, List.cons_append, List.nil_append, List.forall_mem_cons]
  exact ⟨sound_sources 24 fun rs rt => (Instr.mult rs rt).encodes rfl,
    sound_sources 25 fun rs rt => (Instr.multu rs rt).encodes rfl,
    sound_sources 26 fun rs rt => (Instr.div rs rt).encodes rfl,
    sound_sources 27 fun rs rt => (Instr.divu rs rt).encodes rfl,
    sound_dest 16 fun rd => (Instr.mfhi rd).encodes rfl,
    sound_source 17 fun rs => (Instr.mthi rs).encodes rfl,
    sound_dest 18 fun rd => (Instr.mflo rd).encodes rfl,
    sound_source 19 fun rs => (Instr.mtlo rs).encodes rfl,
    nofun⟩

theorem sound_of_mem_branchRows : ∀ row ∈ branchRows, row.Sound := by
  simp only [branchRows, List.cons_append, List.nil_append, List.forall_mem_cons]
  exact ⟨sound_index 2 fun index => (Instr.j index).encodes rfl,
    sound_index 3 fun index => (Instr.jal index).encodes rfl,
    sound_source 8 fun rs => (Instr.jr rs).encodes rfl,
    sound_link 9 fun rs rd => (Instr.jalr rd rs).encodes rfl,
    sound_imm 4 fun rs rt off => (Instr.beq rs rt off).encodes rfl,
    sound_imm 5 fun rs rt off => (Instr.bne rs rt off).encodes rfl,
    sound_branch 6 0 fun rs off => (Instr.blez rs off).encodes rfl,
    sound_branch 7 0 fun rs off => (Instr.bgtz rs off).encodes rfl,
    sound_branch 1 0 fun rs off => (Instr.bltz rs off).encodes rfl,
    sound_branch 1 1 fun rs off => (Instr.bgez rs off).encodes rfl,
    sound_branch 1 16 fun rs off => (Instr.bltzal rs off).encodes rfl,
    sound_branch 1 17 fun rs off => (Instr.bgezal rs off).encodes rfl,
    sound_imm 20 fun rs rt off => (Instr.beql rs rt off).encodes rfl,
    sound_imm 21 fun rs rt off => (Instr.bnel rs rt off).encodes rfl,
    sound_branch 22 0 fun rs off => (Instr.blezl rs off).encodes rfl,
    sound_branch 23 0 fun rs off => (Instr.bgtzl rs off).encodes rfl,
    sound_branch 1 2 fun rs off => (Instr.bltzl rs off).encodes rfl,
    sound_branch 1 3 fun rs off => (Instr.bgezl rs off).encodes rfl,
    sound_branch 1 18 fun rs off => (Instr.bltzall rs off).encodes rfl,
    sound_branch 1 19 fun rs off => (Instr.bgezall rs off).encodes rfl,
    nofun⟩

theorem sound_of_mem_loadStoreRows : ∀ row ∈ loadStoreRows, row.Sound := by
  simp only [loadStoreRows, List.cons_append, List.nil_append, List.forall_mem_cons]
  exact ⟨sound_imm 32 fun rs rt off => (Instr.lb rt off rs).encodes rfl,
    sound_imm 36 fun rs rt off => (Instr.lbu rt off rs).encodes rfl,
    sound_imm 33 fun rs rt off => (Instr.lh rt off rs).encodes rfl,
    sound_imm 37 fun rs rt off => (Instr.lhu rt off rs).encodes rfl,
    sound_imm 35 fun rs rt off => (Instr.lw rt off rs).encodes rfl,
    sound_imm 34 fun rs rt off => (Instr.lwl rt off rs).encodes rfl,
    sound_imm 38 fun rs rt off => (Instr.lwr rt off rs).encodes rfl,
    sound_imm 40 fun rs rt off => (Instr.sb rt off rs).encodes rfl,
    sound_imm 41 fun rs rt off => (Instr.sh rt off rs).encodes rfl,
    sound_imm 43 fun rs rt off => (Instr.sw rt off rs).encodes rfl,
    sound_imm 42 fun rs rt off => (Instr.swl rt off rs).encodes rfl,
    sound_imm 46 fun rs rt off => (Instr.swr rt off rs).encodes rfl,
    sound_imm 48 fun rs rt off => (Instr.ll rt off rs).encodes rfl,
    sound_imm 56 fun rs rt off => (Instr.sc rt off rs).encodes rfl,
    nofun⟩

theorem sound_of_mem_systemRows : ∀ row ∈ systemRows, row.Sound := by
  simp only [systemRows, List.forall_mem_cons]
  exact ⟨sound_code 12 fun code => (Instr.syscall code).encodes rfl,
    sound_code 13 fun code => (Instr.brk code).encodes rfl,
    sound_stype 15 fun stype => (Instr.sync stype).encodes rfl,
    sound_cop0 0 fun rt index h => (Instr.mfc0 rt index).encodes (decide_eq_true h),
    sound_cop0 4 fun rt index h => (Instr.mtc0 rt index).encodes (decide_eq_true h),
    fun _ h => ⟨.eret, rfl, rfl, ((BitVec.and_allOnes).symm.trans h).symm⟩,
    nofun⟩

theorem sound_of_mem_opcodeTable {row : TableRow} (h : row ∈ opcodeTable) : row.Sound := by
  simp only [opcodeTable, List.mem_append, or_assoc] at h
  obtain h | h | h | h | h | h := h
  · exact sound_of_mem_aluRows row h
  · exact sound_of_mem_shiftRows row h
  · exact sound_of_mem_mulDivRows row h
  · exact sound_of_mem_branchRows row h
  · exact sound_of_mem_loadStoreRows row h
  · exact sound_of_mem_systemRows row h

/-! ## The obligations -/

/-- A word that a row covers decodes to an instruction of the row's mnemonic. -/
theorem decode_of_covers {row : TableRow} {w : Word} (hrow : row ∈ opcodeTable) (hw : row.covers w) :
    ∃ i, decode w = .ok i ∧ i.mnemonic = row.mnemonic := by
  obtain ⟨i, hwf, hm, rfl⟩ := sound_of_mem_opcodeTable hrow w hw
  exact ⟨i, decodeOfEncode i hwf, hm⟩

theorem opcodeTable_mnemonics_nodup : (opcodeTable.map TableRow.mnemonic).Nodup := by decide

end Sys2Proof

namespace Sys2Proof.Laws.TableRow

/-- The encoding of every instruction is a word of its row. -/
theorem statement (i : Instr) : Statement i := by
  cases i
  exacts [add .., addu .., sub .., subu .., and .., or .., xor .., nor .., slt .., sltu .., addi .., addiu .., slti ..,
    sltiu .., andi .., ori .., xori .., lui .., sll .., srl .., sra .., sllv .., srlv .., srav .., mult .., multu .., div ..,
    divu .., mfhi .., mthi .., mflo .., mtlo .., j .., jal .., jr .., jalr .., beq .., bne .., blez .., bgtz .., bltz ..,
    bgez .., bltzal .., bgezal .., beql .., bnel .., blezl .., bgtzl .., bltzl .., bgezl .., bltzall .., bgezall .., lb ..,
    lbu .., lh .., lhu .., lw .., lwl .., lwr .., sb .., sh .., sw .., swl .., swr .., ll .., sc .., syscall .., brk ..,
    sync .., mfc0 .., mtc0 .., eret]

end Sys2Proof.Laws.TableRow

namespace Sys2Proof

/-- Settles O3: the row of the instruction that a word encodes covers it, each word a row covers is an encoding, and two rows that
cover one word have one mnemonic. -/
theorem decodeFollowsTable : Obligations.DecodeFollowsTable := by
  refine fun w => ⟨fun i hi => ?_, fun row hrow hw => decode_of_covers hrow hw⟩
  obtain ⟨row, hrow, hm, hcovers⟩ := Laws.TableRow.statement i
  rw [(encodeOfDecode w i hi).2] at hcovers
  refine ⟨row, hrow, hm, hcovers, fun other hother hw => ?_⟩
  obtain ⟨j, hj, hmj⟩ := decode_of_covers hother hw
  obtain rfl : i = j := Except.ok.inj (hi.symm.trans hj)
  exact List.inj_on_of_nodup_map opcodeTable_mnemonics_nodup hother hrow (hmj.symm.trans hm.symm)

/-- Settles O4, by running the decoder on each of the words. -/
theorem sampleWordsDecode : Obligations.SampleWordsDecode := by
  unfold Obligations.SampleWordsDecode
  decide

end Sys2Proof
end

section
/-! PROOFS. What a step can do, said once (40_engine.md R120, R138; 60_exceptions.md R344), and with it the invariants: the state
invariant, the parameters and the bytes outside RAM, and the clock. -/

namespace Sys2Proof.Machine

/-! ## All that a step can do -/

/-- All that a cycle can do when it goes on (R120): the boundary, and then a halted cycle, or a fetch and an execution. -/
theorem instructionCycle_next {s t : State} (h : instructionCycle s = .next t) :
    ∃ u, boundary s = .next u ∧ (t = u.charge 1 ∨
      ∃ p i v n, fetch u = .next p ∧ exec i p.2.advance = .next v ∧ t = v.charge n) := by
  obtain ⟨u, hu, h⟩ := bind_eq_next.1 h
  refine ⟨u, hu, ?_⟩
  split at h
  · exact .inl (Host.Outcome.next.inj h).symm
  · obtain ⟨p, hp, h⟩ := bind_eq_next.1 h
    rw [executeWord] at h
    split at h
    · cases h
    · next i _ =>
      obtain ⟨v, hv, h⟩ := bind_eq_next.1 h
      exact .inr ⟨p, i, v, _, hp, hv, (Host.Outcome.next.inj h).symm⟩

theorem boundary_next {s t : State} (h : boundary s = .next t) : t = s ∨ raiseException .interrupt s = .next t := by
  unfold boundary at h
  split at h
  · exact .inr h
  · exact .inl (Host.Outcome.next.inj h).symm

/-- The state a delivery calls its handler in: the event removed, the clock at its due time (R344). -/
def State.popped (s : State) (e : Event) (rest : List Event) : State :=
  { s with sched := { s.sched with queue := rest, now := e.due } }

/-- What a step did. -/
inductive StepDid (s t : State) : Prop where
  /-- An instruction cycle in the CPU's turn. -/
  | cycle (used : Nat) (ht : CpuTurn s used) (h : instructionCycle s = .next t)
  /-- The start of a scheduler run at the end of a quantum. -/
  | started (used : Nat) (hp : s.phase = .cpu used) (h : t = { s with phase := .draining (s.sched.now + s.cfg.runQuantum) })
  /-- The delivery of a due event. -/
  | delivered (horizon : Nat) (hp : s.phase = .draining horizon) (e : Event) (rest : List Event)
      (hq : s.sched.queue = e :: rest) (hdue : e.due ≤ horizon) (h : runCallback e.handler e.param (s.popped e rest) = .next t)
  /-- The end of the run, with no event due. -/
  | finished (horizon : Nat) (hp : s.phase = .draining horizon) (hq : ∀ e ∈ s.sched.queue.head?, horizon < e.due)
      (h : t = finishRun horizon s)

theorem startRun_next {s t : State} (h : startRun s = .next t) :
    t = { s with phase := .draining (s.sched.now + s.cfg.runQuantum) } := by
  unfold startRun at h
  split at h
  · cases h
  · exact (Host.Outcome.next.inj h).symm

theorem step_did {s t : State} (h : step s = .next t) : StepDid s t := by
  rw [step, turn] at h
  split at h
  · next used hp =>
    split at h
    · next hu => exact .cycle used ⟨hp, hu⟩ h
    · exact .started used hp (startRun_next h)
  · next horizon hp =>
    rw [drainOne] at h
    split at h
    · next hq => exact .finished horizon hp (by simp [hq]) (Host.Outcome.next.inj h).symm
    · next e rest hq =>
      split at h
      · next hdue => exact .delivered horizon hp e rest hq hdue h
      · next hdue => exact .finished horizon hp (by simpa [hq] using hdue) (Host.Outcome.next.inj h).symm

/-! ## The state invariant -/

/-- The next word's address is aligned with a word's. -/
theorem add_four_aligned {a : Word} (h : a.toNat % 4 = 0) : (a + 4).toNat % 4 = 0 := by
  rw [BitVec.toNat_add]
  simp
  omega

/-- A device's transition keeps the invariant (R351 to R355): its new events are due after the clock. -/
theorem DeviceKeeps.inv {s t : State} (h : DeviceKeeps s t) (hs : s.Inv) : t.Inv where
  zero := by rw [h.frame.regs]; exact hs.zero
  pc := by rw [h.frame.pc]; exact hs.pc
  npc := by rw [h.frame.npc]; exact hs.npc
  running := h.frame.halted.trans hs.running
  banks := by rw [h.banks, h.frame.cfg]; exact hs.banks
  memory := h.mem hs.memory
  sched := h.sched hs.sched
  phase := by
    have hp := hs.phase
    rw [h.frame.phase]
    revert hp
    cases s.phase with
    | cpu used =>
      intro hp e he
      rw [h.frame.now]
      exact (h.late e he).elim (hp e) id
    | draining horizon => exact h.frame.now.trans_le

theorem State.Inv.store {s : State} (h : s.Inv) (pa : Nat) (v : Word) (n : Nat) :
    { s with mem := Memory.storeBytes s.mem pa v n }.Inv :=
  ⟨h.zero, h.pc, h.npc, h.running, h.banks, wf_storeBytes h.memory pa v n, h.sched, h.phase⟩

theorem Accessed.inv {s t : State} (h : Accessed s t) (hs : s.Inv) : t.Inv := by
  cases h with
  | device h => exact h.inv hs
  | stored u a w v hu hw h =>
    subst h
    exact (hu.inv hs).store ..

theorem State.Inv.setX {s : State} (h : s.Inv) (r : Reg) (v : Word) : (s.setX r v).Inv :=
  ⟨setX_slot_zero s r v, h.pc, h.npc, h.running, h.banks, h.memory, h.sched, h.phase⟩

theorem State.Inv.advance {s : State} (h : s.Inv) : s.advance.Inv :=
  ⟨h.zero, h.npc, add_four_aligned h.npc, h.running, h.banks, h.memory, h.sched, h.phase⟩

/-- Counting cycles stays in the CPU's turn, whose condition does not look at the count (R139). -/
theorem State.Inv.charge {s : State} (h : s.Inv) (n : Nat) : (s.charge n).Inv := by
  have hp := h.phase
  unfold State.charge
  split
  · next hcpu =>
    rw [hcpu] at hp
    exact ⟨h.zero, h.pc, h.npc, h.running, h.banks, h.memory, h.sched, hp⟩
  · exact h

theorem raiseException_inv {e : Exc} {s t : State} (h : raiseException e s = .next t) (hs : s.Inv) : t.Inv := by
  obtain ⟨hv, rfl⟩ := raiseException_next.1 h
  exact ⟨hs.zero, hv.2, add_four_aligned hv.2, rfl, hs.banks, hs.memory, hs.sched, hs.phase⟩

theorem exceptionReturn_inv {s t : State} (h : exceptionReturn s = .next t) (hs : s.Inv) : t.Inv := by
  obtain ⟨-, hv, rfl⟩ := exceptionReturn_next.1 h
  exact ⟨hs.zero, hv.2, add_four_aligned hv.2, hs.running, hs.banks, hs.memory, hs.sched, hs.phase⟩

theorem doBranch_inv {target : Word} {cond likely : Bool} {link : Reg} {s t : State}
    (h : doBranch target cond link likely s = .next t) (hs : s.Inv) : t.Inv := by
  have hl := hs.setX link s.npc
  obtain ⟨-, ⟨-, hv, rfl⟩ | ⟨-, -, rfl⟩ | ⟨-, -, rfl⟩⟩ := doBranch_next.1 h
  · exact ⟨hl.zero, hl.pc, hv.2, hl.running, hl.banks, hl.memory, hl.sched, hl.phase⟩
  · exact ⟨hl.zero, hl.npc, add_four_aligned hl.npc, hl.running, hl.banks, hl.memory, hl.sched, hl.phase⟩
  · exact ⟨hl.zero, hl.pc, hl.npc, hl.running, hl.banks, hl.memory, hl.sched, hl.phase⟩

/-- Every instruction keeps the invariant. -/
theorem exec_inv {i : Instr} {s t : State} (h : exec i s = .next t) (hs : s.Inv) : t.Inv := by
  cases exec_did h with
  | reg _ rd v h => exact h ▸ hs.setX rd v
  | nothing _ h => exact h ▸ hs
  | product _ _ _ _ _ _ h =>
    subst h; exact ⟨hs.zero, hs.pc, hs.npc, hs.running, hs.banks, hs.memory, hs.sched, hs.phase⟩
  | mthi _ _ h => subst h; exact ⟨hs.zero, hs.pc, hs.npc, hs.running, hs.banks, hs.memory, hs.sched, hs.phase⟩
  | mtlo _ _ h => subst h; exact ⟨hs.zero, hs.pc, hs.npc, hs.running, hs.banks, hs.memory, hs.sched, hs.phase⟩
  | branch _ _ _ _ _ h => exact doBranch_inv h hs
  | load _ u hu rt v h => exact h ▸ (hu.inv hs).setX rt v
  | loadLinked rt _ _ _ u hu v h =>
    have hu := (hu.inv hs).setX rt v
    subst h
    exact ⟨hu.zero, hu.pc, hu.npc, hu.running, hu.banks, hu.memory, hu.sched, hu.phase⟩
  | store _ h => exact h.inv hs
  | exception _ _ _ h => exact raiseException_inv h hs
  | mtc0 _ _ _ h =>
    obtain ⟨c, rfl, -⟩ := cop0Write_next h
    exact ⟨hs.zero, hs.pc, hs.npc, hs.running, hs.banks, hs.memory, hs.sched, hs.phase⟩
  | eret _ h => exact exceptionReturn_inv h hs

theorem boundary_inv {s t : State} (h : boundary s = .next t) (hs : s.Inv) : t.Inv := by
  obtain rfl | h := boundary_next h
  · exact hs
  · exact raiseException_inv h hs

theorem instructionCycle_inv {s t : State} (h : instructionCycle s = .next t) (hs : s.Inv) : t.Inv := by
  obtain ⟨u, hu, rfl | ⟨p, i, v, n, hp, hv, rfl⟩⟩ := instructionCycle_next h
  · exact (boundary_inv hu hs).charge 1
  · have hfetched := (memRead_keeps hp).inv (boundary_inv hu hs)
    exact (exec_inv hv hfetched.advance).charge n

/-- In an ordered queue no event is due before the first. -/
theorem due_le_of_ordered {e : Event} {rest : List Event} (h : (e :: rest).Pairwise (fun e f => e.before f = true)) :
    ∀ f ∈ e :: rest, e.due ≤ f.due := by
  intro f hf
  obtain rfl | hf := List.mem_cons.1 hf
  · exact le_rfl
  · have hb := (List.pairwise_cons.1 h).1 f hf
    simp only [Event.before, Bool.or_eq_true, Bool.and_eq_true, decide_eq_true_eq] at hb
    omega

/-- Removing the first event, with the clock at its due time, keeps the scheduler in order (R344). -/
theorem Sched.Ok.pop {c : Sched} (h : c.Ok) {e : Event} {rest : List Event} (hq : c.queue = e :: rest) :
    { c with queue := rest, now := e.due }.Ok := by
  obtain ⟨hord, hseq, hknown, -⟩ := h
  rw [hq] at hord hseq hknown
  exact ⟨(List.pairwise_cons.1 hord).2, fun f hf => hseq f (.tail _ hf), fun f hf => hknown f (.tail _ hf),
    fun f hf => due_le_of_ordered hord f (.tail _ hf)⟩

/-- With no event due by the horizon, all are due after it. -/
theorem Sched.Ok.lt_due {c : Sched} (h : c.Ok) {horizon : Nat} (hq : ∀ e ∈ c.queue.head?, horizon < e.due) :
    ∀ e ∈ c.queue, horizon < e.due := by
  have hord := h.ordered
  revert hord hq
  cases c.queue with
  | nil => exact fun _ _ => nofun
  | cons e rest => exact fun hq hord f hf => (hq e rfl).trans_le (due_le_of_ordered hord f hf)

theorem finishRun_inv {s : State} {horizon : Nat} (hs : s.Inv) (hq : ∀ e ∈ s.sched.queue.head?, horizon < e.due) :
    (finishRun horizon s).Inv :=
  have hlate := hs.sched.lt_due hq
  ⟨hs.zero, hs.pc, hs.npc, hs.running, hs.banks, hs.memory,
    ⟨hs.sched.ordered, hs.sched.seqs, hs.sched.known, fun e he => (hlate e he).le⟩, hlate⟩

theorem popped_inv {s : State} {horizon : Nat} {e : Event} {rest : List Event} (hs : s.Inv) (hp : s.phase = .draining horizon)
    (hq : s.sched.queue = e :: rest) (hdue : e.due ≤ horizon) : (s.popped e rest).Inv :=
  ⟨hs.zero, hs.pc, hs.npc, hs.running, hs.banks, hs.memory, hs.sched.pop hq, by
    show s.phase.Ok _
    rw [hp]
    exact hdue⟩

/-- Settles O14: a cycle keeps the invariant link by link, a delivery keeps it once the event is removed, and the start and the end of
a run put the clock where the queue allows it. -/
theorem stepKeepsInv : Obligations.StepKeepsInv := by
  intro s t hs h
  cases step_did h with
  | cycle _ _ h => exact instructionCycle_inv h hs
  | started _ _ h =>
    subst h
    exact ⟨hs.zero, hs.pc, hs.npc, hs.running, hs.banks, hs.memory, hs.sched, Nat.le_add_right ..⟩
  | delivered horizon hp e rest hq hdue h => exact (runCallback_keeps h).inv (popped_inv hs hp hq hdue)
  | finished horizon _ hq h => exact h ▸ finishRun_inv hs hq

/-- Settles O13: the fields of the first state, whose queue is empty. -/
theorem resetMeetsInv : Obligations.ResetMeetsInv :=
  ⟨rfl, by decide, by decide, rfl, rfl, rfl, ⟨.nil, nofun, nofun, nofun⟩, nofun⟩

/-! ## The parameters, and the bytes that RAM does not own -/

/-- The parameters are as before, and with a well-formed table every byte that RAM does not own (R47, R65). -/
structure KeepsRom (s t : State) : Prop where
  cfg   : t.cfg = s.cfg
  bytes : s.cfg.wf = true → ∀ pa, (∀ r, s.regionOf pa = some r → r.owner ≠ .ram) → t.byteAt pa = s.byteAt pa

theorem regionOf_congr {s t : State} (h : t.cfg = s.cfg) (pa : Nat) : t.regionOf pa = s.regionOf pa := by
  rw [State.regionOf, State.regionOf, h]

theorem KeepsRom.trans {s t u : State} (h : KeepsRom s t) (k : KeepsRom t u) : KeepsRom s u where
  cfg := k.cfg.trans h.cfg
  bytes hw pa hpa := by
    rw [k.bytes (h.cfg ▸ hw) pa fun r hr => hpa r (regionOf_congr h.cfg pa ▸ hr), h.bytes hw pa hpa]

theorem keepsRom_of_mem {s t : State} (hc : t.cfg = s.cfg) (hm : t.mem = s.mem) : KeepsRom s t :=
  ⟨hc, fun _ pa _ => byteAt_congr hc hm pa⟩

theorem Accessed.keepsRom {s t : State} (h : Accessed s t) : KeepsRom s t := ⟨h.frame.cfg, fun hw _ hpa => h.bytes hw hpa⟩

theorem raiseException_keepsRom {e : Exc} {s t : State} (h : raiseException e s = .next t) : KeepsRom s t := by
  obtain ⟨-, rfl⟩ := raiseException_next.1 h
  exact keepsRom_of_mem rfl rfl

theorem exec_keepsRom {i : Instr} {s t : State} (h : exec i s = .next t) : KeepsRom s t := by
  cases exec_did h with
  | reg _ _ _ h => subst h; exact keepsRom_of_mem rfl rfl
  | nothing _ h => subst h; exact keepsRom_of_mem rfl rfl
  | product _ _ _ _ _ _ h => subst h; exact keepsRom_of_mem rfl rfl
  | mthi _ _ h => subst h; exact keepsRom_of_mem rfl rfl
  | mtlo _ _ h => subst h; exact keepsRom_of_mem rfl rfl
  | branch _ _ _ _ _ h =>
    obtain ⟨-, ⟨-, -, rfl⟩ | ⟨-, -, rfl⟩ | ⟨-, -, rfl⟩⟩ := doBranch_next.1 h <;> exact keepsRom_of_mem rfl rfl
  | load _ u hu _ _ h => subst h; exact hu.keepsRom.trans (keepsRom_of_mem rfl rfl)
  | loadLinked _ _ _ _ u hu _ h => subst h; exact hu.keepsRom.trans (keepsRom_of_mem rfl rfl)
  | store _ h => exact h.keepsRom
  | exception _ _ _ h => exact raiseException_keepsRom h
  | mtc0 _ _ _ h => obtain ⟨c, rfl, -⟩ := cop0Write_next h; exact keepsRom_of_mem rfl rfl
  | eret _ h => obtain ⟨-, -, rfl⟩ := exceptionReturn_next.1 h; exact keepsRom_of_mem rfl rfl

theorem boundary_keepsRom {s t : State} (h : boundary s = .next t) : KeepsRom s t := by
  obtain rfl | h := boundary_next h
  · exact keepsRom_of_mem rfl rfl
  · exact raiseException_keepsRom h

theorem charge_keepsRom (s : State) (n : Nat) : KeepsRom s (s.charge n) := keepsRom_of_mem (charge_cfg s n) (charge_mem s n)

theorem instructionCycle_keepsRom {s t : State} (h : instructionCycle s = .next t) : KeepsRom s t := by
  obtain ⟨u, hu, rfl | ⟨p, i, v, n, hp, hv, rfl⟩⟩ := instructionCycle_next h
  · exact (boundary_keepsRom hu).trans (charge_keepsRom u 1)
  · have hfetched : KeepsRom s p.2.advance :=
      ((boundary_keepsRom hu).trans (memRead_accessed hp).keepsRom).trans (keepsRom_of_mem rfl rfl)
    exact (hfetched.trans (exec_keepsRom hv)).trans (charge_keepsRom v n)

/-- Settles O15: every link of a cycle, and a delivery's callback, keeps both; the scheduler's own actions write neither. -/
theorem stepKeepsRom : Obligations.StepKeepsRom := by
  intro s t hw h
  have hk : KeepsRom s t := by
    cases step_did h with
    | cycle _ _ h => exact instructionCycle_keepsRom h
    | started _ _ h => subst h; exact keepsRom_of_mem rfl rfl
    | delivered _ _ e rest _ _ h =>
      have hpop : KeepsRom s (s.popped e rest) := keepsRom_of_mem rfl rfl
      exact hpop.trans (Accessed.device (runCallback_keeps h)).keepsRom
    | finished _ _ _ h => subst h; exact keepsRom_of_mem rfl rfl
  exact ⟨hk.cfg, hk.bytes hw⟩

/-! ## The clock -/

theorem boundary_now {s t : State} (h : boundary s = .next t) : t.sched.now = s.sched.now := by
  obtain rfl | h := boundary_next h
  · rfl
  · obtain ⟨-, rfl⟩ := raiseException_next.1 h
    rfl

/-- The clock stands still in a cycle (R139). -/
theorem instructionCycle_now {s t : State} (h : instructionCycle s = .next t) : t.sched.now = s.sched.now := by
  obtain ⟨u, hu, rfl | ⟨p, i, v, n, hp, hv, rfl⟩⟩ := instructionCycle_next h
  · rw [charge_sched, boundary_now hu]
  · obtain ⟨-, -, hexec⟩ := exec_platform hv
    rw [charge_sched, hexec, advance_sched, (memRead_keeps hp).frame.now, boundary_now hu]

/-- Settles O16: in the CPU's turn the clock stands still, a delivery takes it to a due time that is not past, and the end of a run to
the horizon, which it has not passed. -/
theorem clockNeverDecreases : Obligations.ClockNeverDecreases := by
  intro s t hs h
  cases step_did h with
  | cycle _ _ h => exact ⟨(instructionCycle_now h).ge, fun _ _ => instructionCycle_now h⟩
  | started _ _ h => subst h; exact ⟨le_rfl, fun _ _ => rfl⟩
  | delivered horizon hp e rest hq _ h =>
    refine ⟨?_, fun used ht => absurd (hp.symm.trans ht.1) nofun⟩
    rw [(runCallback_keeps h).frame.now]
    exact hs.sched.notPast e (hq ▸ List.mem_cons_self ..)
  | finished horizon hp _ h =>
    subst h
    have hphase := hs.phase
    rw [hp] at hphase
    exact ⟨hphase, fun used ht => absurd (hp.symm.trans ht.1) nofun⟩

end Sys2Proof.Machine
end

section
/-! PROOFS. The step of the CPU's turn in its three cases (40_engine.md R120 to R125, R137, R313): a deliverable interrupt, a halted
core, and an instruction. -/

namespace Sys2Proof.Machine

/-! ## A step that runs an instruction -/

theorem step_of_fetch_refused {s : State} {used : Nat} {e : Refusal} (ht : CpuTurn s used)
    (hi : s.isInterruptPending = false) (hh : s.halted = false) (hf : fetch s = .refused e) : step s = .refused e := by
  rw [step_eq_fetchExecute ht hi hh, fetchExecute, hf, bind_refused]

/-- The state the execute step acts on: the fetch changes neither the pc pair nor `ds_next` (R121 to R123). -/
theorem advance_of_fetch {s u : State} {w : Word} (hf : fetch s = .next (w, u)) :
    u.advance = { u with pc := s.npc, npc := s.npc + 4, dsCur := s.dsNext, dsNext := false } := by
  have hk := (memRead_keeps hf).frame
  rw [State.advance, hk.npc, hk.dsNext]

theorem executeWord_of_decode {w : Word} {i : Instr} (hd : decode w = .ok i) (a : Word) (s : State) :
    executeWord w a s = Res.bind (exec i s) fun t => .next (t.charge (cyclesOf t.cfg w)) := by
  simp only [executeWord, hd]

/-- The cycles of the word are added to those used before the fetch: neither the fetch nor the instruction counts any (R125). -/
theorem charge_of_exec {s u t : State} {used : Nat} {w : Word} {i : Instr} (hp : s.phase = .cpu used)
    (hf : fetch s = .next (w, u)) (hx : exec i u.advance = .next t) :
    t.charge (cyclesOf t.cfg w) = { t with phase := .cpu (used + cyclesOf s.cfg w) } := by
  have hk := (memRead_keeps hf).frame
  obtain ⟨hcfg, hphase, -⟩ := exec_platform hx
  have hused : t.phase = .cpu used := (hphase.trans hk.phase).trans hp
  rw [State.charge, hused, hcfg.trans hk.cfg]

/-- Settles O6: the step fetches, executes the decoded word on the advanced state, and ends as `exec` does, with the cycles counted. -/
theorem stepRunsDecodedInstruction : Obligations.StepRunsDecodedInstruction := by
  refine fun s => ⟨fun hr => ?served, fun used ht hi hh =>
    ⟨fun w u i hf hd => ?runs, fun e hf => step_of_fetch_fault ht hi hh hf, fun e hf => step_of_fetch_refused ht hi hh hf⟩⟩
  case served => rw [fetch, memRead_of_readable hr, Width.bytes, loadBytes_four, State.word]
  case runs =>
    have hstep : step s = Res.bind (exec i u.advance) fun t => .next (t.charge (cyclesOf t.cfg w)) :=
      (step_of_fetch_next ht hi hh hf).trans (executeWord_of_decode hd ..)
    rw [← advance_of_fetch hf]
    refine ⟨fun t hx => ?_, fun e hx => ?_, fun e hx => ?_⟩
    · rw [hstep, hx, bind_next, charge_of_exec ht.1 hf hx]
    · rw [hstep, hx, bind_fault]
    · rw [hstep, hx, bind_refused]

/-! ## A step that takes an interrupt, and a halted step -/

theorem step_eq_instructionCycle {s : State} {used : Nat} (ht : CpuTurn s used) : step s = instructionCycle s := by
  obtain ⟨hp, hu⟩ := ht
  simp only [step, turn, hp]
  exact if_pos hu

theorem boundary_of_pending {s : State} (h : s.isInterruptPending = true) : boundary s = raiseException .interrupt s :=
  if_pos h

theorem boundary_of_not_pending {s : State} (h : s.isInterruptPending = false) : boundary s = .next s :=
  if_neg (Bool.eq_false_iff.1 h)

theorem exl_of_pending {s : State} (h : s.isInterruptPending = true) : s.cop0.exl = false := by
  simp only [State.isInterruptPending, Bool.and_eq_true, Bool.not_eq_true'] at h
  exact h.1.1.2

/-- Entry sets EXL, which masks every interrupt (R307, R311). -/
theorem Entered.not_pending {e : Exc} {s t : State} (h : Entered e s t) : t.isInterruptPending = false := by
  have hexl : t.cop0.exl = true := by simp [Cop0.exl, h.exl]
  simp [State.isInterruptPending, hexl]

/-- Where the boundary stops, the step stops. -/
theorem step_of_boundary_fault {s : State} {used : Nat} {f : Fault} (ht : CpuTurn s used) (h : boundary s = .fault f) :
    step s = .fault f := by
  rw [step_eq_instructionCycle ht, instructionCycle, h, bind_fault]

/-- A boundary that goes on leads to a state whose own step is this one, if nothing is deliverable there (R120). -/
theorem step_of_boundary_next {s t : State} {used : Nat} (hs : CpuTurn s used) (ht : CpuTurn t used) (h : boundary s = .next t)
    (hi : t.isInterruptPending = false) : step s = step t := by
  rw [step_eq_instructionCycle hs, step_eq_instructionCycle ht, instructionCycle, instructionCycle, h,
    boundary_of_not_pending hi]

/-- Settles O7: the boundary is one exception entry, after which EXL holds further interrupts off and the cycle goes on. -/
theorem interruptTakenBeforeFetch : Obligations.InterruptTakenBeforeFetch := by
  intro s used ht hi
  have hstops : ∀ {f}, checkTarget (s.vector .interrupt) = .fault f → step s = .fault f := fun h =>
    step_of_boundary_fault ht ((boundary_of_pending hi).trans (raiseException_of_checkTarget_fault h))
  refine ⟨fun hv => ?_, fun h => hstops (checkTarget_zero h), fun h => hstops (checkTarget_of_misaligned h)⟩
  obtain ⟨t, hraise, hent⟩ := raiseException_of_validTarget hv
  obtain ⟨hbd, hepc⟩ := hent.fresh (exl_of_pending hi)
  have htt : CpuTurn t used := ⟨hent.platform.phase.trans ht.1, hent.platform.cfg ▸ ht.2⟩
  exact ⟨t, hent, hbd, hepc, hent.not_pending,
    step_of_boundary_next ht htt ((boundary_of_pending hi).trans hraise) hent.not_pending⟩

/-- Settles O8: with nothing to deliver and the core halted the cycle counts one and fetches nothing. -/
theorem haltedCycleOnlyCounts : Obligations.HaltedCycleOnlyCounts := by
  intro s used ht hi hh
  rw [step_eq_instructionCycle ht, instructionCycle, boundary_of_not_pending hi, bind_next, if_pos hh, State.charge, ht.1]

end Sys2Proof.Machine
end

section
/-! PROOFS. Who may write which state (10_state.md R24, R32, R33; 40_engine.md R141): each statement is a look at every way an
instruction can go on. -/

namespace Sys2Proof.Machine

/-- Settles O12: outside control flow, entry and ERET no way writes the pc pair or the flags. -/
theorem onlyControlFlowTouchesThePc : Obligations.OnlyControlFlowTouchesThePc := by
  intro i s t hc h
  cases exec_did h with
  | reg _ _ _ h | nothing _ h | product _ _ _ _ _ _ h | mthi _ _ h | mtlo _ _ h =>
    subst h
    exact .inl ⟨rfl, rfl, rfl, rfl⟩
  | branch hb => exact absurd (hb.symm.trans hc) nofun
  | load _ _ hu _ _ h | loadLinked _ _ _ _ _ hu _ h =>
    subst h
    exact .inl ⟨hu.frame.pc, hu.frame.npc, hu.frame.dsCur, hu.frame.dsNext⟩
  | store _ h => exact .inl ⟨h.frame.pc, h.frame.npc, h.frame.dsCur, h.frame.dsNext⟩
  | exception _ e he h => exact .inr (.inr ⟨e, he, entered_of_raiseException h⟩)
  | mtc0 _ _ _ h => obtain ⟨c, rfl, -⟩ := cop0Write_next h; exact .inl ⟨rfl, rfl, rfl, rfl⟩
  | eret hi => exact .inr (.inl hi)

/-- Settles O18: LL sets it, exception return clears it, and no other way writes it, a device's transition included. -/
theorem onlyLlAndEretTouchReservation : Obligations.OnlyLlAndEretTouchReservation := by
  intro i s t h
  cases exec_did h with
  | reg _ _ _ h | nothing _ h | product _ _ _ _ _ _ h | mthi _ _ h | mtlo _ _ h => subst h; exact .inr (.inr rfl)
  | branch _ _ _ _ _ h =>
    obtain ⟨-, ⟨-, -, rfl⟩ | ⟨-, -, rfl⟩ | ⟨-, -, rfl⟩⟩ := doBranch_next.1 h <;> exact .inr (.inr rfl)
  | load _ _ hu _ _ h => subst h; exact .inr (.inr hu.frame.llbit)
  | loadLinked rt rs off hi _ _ _ h => subst h; exact .inl ⟨rt, off, rs, hi, rfl⟩
  | store _ h => exact .inr (.inr h.frame.llbit)
  | exception _ _ _ h => exact .inr (.inr (entered_of_raiseException h).llbit)
  | mtc0 _ _ _ h => obtain ⟨c, rfl, -⟩ := cop0Write_next h; exact .inr (.inr rfl)
  | eret hi h => obtain ⟨-, -, rfl⟩ := exceptionReturn_next.1 h; exact .inr (.inl ⟨hi, rfl⟩)

/-- Settles O19: the multiply and divide forms and the two moves are the ways that write HI or LO. -/
theorem onlyMulDivTouchesHiLo : Obligations.OnlyMulDivTouchesHiLo := by
  intro i s t h
  cases exec_did h with
  | reg _ _ _ h | nothing _ h => subst h; exact .inr (.inr (.inr ⟨rfl, rfl⟩))
  | product rs rt hi => exact .inl ⟨rs, rt, hi⟩
  | mthi rs hi h => subst h; exact .inr (.inl ⟨rs, hi, rfl⟩)
  | mtlo rs hi h => subst h; exact .inr (.inr (.inl ⟨rs, hi, rfl⟩))
  | branch _ _ _ _ _ h =>
    obtain ⟨-, ⟨-, -, rfl⟩ | ⟨-, -, rfl⟩ | ⟨-, -, rfl⟩⟩ := doBranch_next.1 h <;> exact .inr (.inr (.inr ⟨rfl, rfl⟩))
  | load _ _ hu _ _ h | loadLinked _ _ _ _ _ hu _ h => subst h; exact .inr (.inr (.inr ⟨hu.frame.lo, hu.frame.hi⟩))
  | store _ h => exact .inr (.inr (.inr ⟨h.frame.lo, h.frame.hi⟩))
  | exception _ _ _ h => exact .inr (.inr (.inr (entered_of_raiseException h).hiLo))
  | mtc0 _ _ _ h => obtain ⟨c, rfl, -⟩ := cop0Write_next h; exact .inr (.inr (.inr ⟨rfl, rfl⟩))
  | eret _ h => obtain ⟨-, -, rfl⟩ := exceptionReturn_next.1 h; exact .inr (.inr (.inr ⟨rfl, rfl⟩))

/-- Each of the four indices writes its own field of coprocessor 0, and no other index goes on (R305, R306). -/
theorem cop0Write_fields {index : Nat} {v : Word} {s t : State} (h : cop0Write index v s = .next t) :
    index ∈ [12, 13, 14, 25] ∧ t.cop0.excCode = s.cop0.excCode ∧ t.cop0.bd = s.cop0.bd ∧
      (index = 12 → t.cop0 = { s.cop0 with status := v }) ∧
      (index = 13 → t.cop0 = { s.cop0 with ipsw := v.extractLsb' 8 2 }) ∧
      (index = 14 → t.cop0 = { s.cop0 with epc := v }) ∧ (index = 25 → t.cop0 = { s.cop0 with ebase := v }) := by
  have hmem : index ∈ [12, 13, 14, 25] := by
    by_contra hn
    exact absurd ((cop0Write_unmapped hn v s).symm.trans h) nofun
  obtain ⟨c, hc, -, -, -, -, hexc, hbd⟩ := cop0Write_next h
  refine ⟨hmem, hc ▸ hexc, hc ▸ hbd, ?_, ?_, ?_, ?_⟩ <;>
    (rintro rfl; exact congrArg State.cop0 (Host.Outcome.next.inj h).symm)

/-- ERET clears bit 1 of `status`, EXL, and no other (R325). -/
theorem clearExl_status (c : Cop0) : (∀ k, k ≠ 1 → c.clearExl.status.getLsbD k = c.status.getLsbD k) ∧
    c.clearExl.status.getLsbD 1 = false := by
  refine ⟨fun k hk => ?_, clearExl_status_bit c 1 (by decide)⟩
  by_cases h32 : k < 32
  · rw [clearExl_status_bit c k h32, if_neg hk]
  · rw [BitVec.getLsbD_of_ge _ _ (by omega), BitVec.getLsbD_of_ge _ _ (by omega)]

/-- Settles O20: MTC0, exception entry and ERET are the ways that write coprocessor 0, each in its own fields. -/
theorem whoWritesCop0 : Obligations.WhoWritesCop0 := by
  intro i s t h
  cases exec_did h with
  | reg _ _ _ h | nothing _ h | product _ _ _ _ _ _ h | mthi _ _ h | mtlo _ _ h => subst h; exact .inl rfl
  | branch _ _ _ _ _ h =>
    obtain ⟨-, ⟨-, -, rfl⟩ | ⟨-, -, rfl⟩ | ⟨-, -, rfl⟩⟩ := doBranch_next.1 h <;> exact .inl rfl
  | load _ _ hu _ _ h | loadLinked _ _ _ _ _ hu _ h => subst h; exact .inl hu.frame.cop0
  | store _ h => exact .inl h.frame.cop0
  | exception _ e _ h => exact .inr (.inr (.inl ⟨e, entered_of_raiseException h⟩))
  | mtc0 rt index hi h => exact .inr (.inl ⟨rt, index, hi, cop0Write_fields h⟩)
  | eret hi h =>
    obtain ⟨-, -, rfl⟩ := exceptionReturn_next.1 h
    obtain ⟨hother, hexl⟩ := clearExl_status s.cop0
    exact .inr (.inr (.inr ⟨hi, hother, hexl, rfl, rfl, rfl, rfl, rfl⟩))

end Sys2Proof.Machine
end

section
/-! PROOFS. The sign rule of the trapping forms (41_alu.md R168): the exact result leaves the signed range exactly when the wrapped
one has the wrong sign. -/

namespace Sys2Proof.Machine

theorem overflows_add_iff (a b : Word) :
    overflows (a.toInt + b.toInt) = true ↔ a.msb = b.msb ∧ (a + b).msb ≠ a.msb := by
  have h : overflows (a.toInt + b.toInt) = a.saddOverflow b := Bool.or_comm ..
  rw [h, BitVec.saddOverflow_eq]
  simp

theorem overflows_sub_iff (a b : Word) :
    overflows (a.toInt - b.toInt) = true ↔ a.msb ≠ b.msb ∧ (a - b).msb ≠ a.msb := by
  have h : overflows (a.toInt - b.toInt) = a.ssubOverflow b := Bool.or_comm ..
  rw [h, BitVec.ssubOverflow_eq]
  cases a.msb <;> cases b.msb <;> simp

/-- A trapping form raises Overflow on its sign rule `p`, and else writes what its wrapping twin writes (R168). -/
theorem writeOrTrap_eq_ite {n : Int} {v : Word} {p : Prop} [Decidable p] (hp : overflows n = true ↔ p)
    (hv : v = BitVec.ofInt 32 n) (rd : Reg) (s : State) :
    writeOrTrap rd n s = if p then raiseException .overflow s else .next (s.setX rd v) := by
  subst hv
  simp only [writeOrTrap, hp]

/-- Settles O25: each form is one `writeOrTrap` of the exact result, which overflows on the sign rule and else is the wrapped one. -/
theorem trapsExactlyOnSignChange : Obligations.TrapsExactlyOnSignChange := by
  refine fun s rd rs rt imm => ⟨writeOrTrap_eq_ite (overflows_add_iff ..) (add_eq_ofInt ..) rd s,
    writeOrTrap_eq_ite (overflows_sub_iff ..) (sub_eq_ofInt ..) rd s, ?_⟩
  have hsign : (sext16 imm).msb = imm.msb := by rw [BitVec.msb_eq_toInt, BitVec.msb_eq_toInt, toInt_sext16]
  rw [← hsign]
  exact writeOrTrap_eq_ite (overflows_add_iff (s.x rs) (sext16 imm)) (add_eq_ofInt ..) rt s

end Sys2Proof.Machine
end

section
/-! PROOFS. Loads and stores that memory serves (45_load_store.md R230 to R245): each is its bus access, whose value is the bytes at
the address; the merging forms are looked at position by position. -/

namespace Sys2Proof.Machine

/-- Settles O37: the signed offset is added as a word, and word addition is addition modulo 2^32. -/
theorem effectiveAddressWraps : Obligations.EffectiveAddressWraps := by
  intro s rs off
  have hoff : ((sext16 off).toNat : Int) = off.toInt % 4294967296 := by
    rw [← toInt_sext16, BitVec.toInt_eq_toNat_cond]
    have hlt := (sext16 off).isLt
    split <;> omega
  rw [State.ea, BitVec.toNat_add, Int.natCast_mod, Nat.cast_add, hoff]
  exact (Int.add_emod_emod ..).symm ▸ rfl

/-! ## What a served read gives -/

theorem word_low_byte (s : State) (pa : Nat) : (s.word pa).extractLsb' 0 8 = s.byteAt pa := by
  rw [State.word, BitVec.extractLsb'_append_eq_of_add_le (by decide), BitVec.extractLsb'_eq_self]

theorem word_low_half (s : State) (pa : Nat) : (s.word pa).extractLsb' 0 16 = s.half pa := by
  refine BitVec.eq_of_getLsbD_eq fun i hi => ?_
  simp only [State.word, State.half, BitVec.getLsbD_extractLsb', BitVec.getLsbD_append]
  interval_cases i <;> simp

/-- Whatever its width, a read gives the low bytes of the word at its address (R66, R71). -/
theorem loadBytes_eq_truncate_word (s : State) (pa : Nat) (w : Width) :
    s.loadBytes pa w.bytes = truncate w (s.word pa) := by
  cases w
  case one => rw [Width.bytes, loadBytes_one, truncate, ← word_low_byte,
    BitVec.setWidth_eq_extractLsb' (x := s.word pa) (by decide)]
  case two => rw [Width.bytes, loadBytes_two, truncate, ← State.half, ← word_low_half,
    BitVec.setWidth_eq_extractLsb' (x := s.word pa) (by decide)]
  case four => rw [Width.bytes, loadBytes_four, truncate, State.word]

/-- A load that memory serves takes its bytes, and its access changes nothing (R66, R231). -/
theorem loadsDo_of_readable {s : State} {rs : Reg} {off : Imm} {w : Width} (h : Readable s (s.ea rs off) w) (rt : Reg) :
    LoadsDo s rt off rs w (s.word (s.physical (s.ea rs off))) (.next s) :=
  loadsDo_of_memRead (by rw [memRead_of_readable h, loadBytes_eq_truncate_word, bind_next])

/-- A merging form whose word memory serves merges that word (R237, R238). -/
theorem mergesDo_of_readable {s : State} {rs : Reg} {off : Imm} (h : Readable s (wordAddr (s.ea rs off)) .four) (rt : Reg) :
    MergesDo s rt off rs (s.word (s.physical (wordAddr (s.ea rs off)))) (.next s)
      fun u value q => memWrite u (wordAddr (s.ea rs off)) .four value = q :=
  mergesDo_of_bus (by rw [memRead_of_readable h, loadBytes_eq_truncate_word, truncate, bind_next])
    (fun u hu => by cases hu; rfl) fun u _ value p hp => hp

/-- Settles O38: the words decode, and each load takes the low bytes of the word at its address, extended. -/
theorem loadInstructions : Obligations.LoadInstructions := by
  intro s rt off rs
  refine ⟨decodeOfEncode (.lb rt off rs) rfl, decodeOfEncode (.lbu rt off rs) rfl, decodeOfEncode (.lh rt off rs) rfl,
    decodeOfEncode (.lhu rt off rs) rfl, decodeOfEncode (.lw rt off rs) rfl, ?_⟩
  refine ⟨fun h => ?_, fun h => ?_, fun h => ?_⟩
  · rw [← word_low_byte]
    exact ⟨(loadsDo_of_readable h rt).plain s rfl _ _ (by simp), (loadsDo_of_readable h rt).plain s rfl _ _ (by simp)⟩
  · rw [← word_low_half]
    exact ⟨(loadsDo_of_readable h rt).plain s rfl _ _ (by simp), (loadsDo_of_readable h rt).plain s rfl _ _ (by simp)⟩
  · exact (loadsDo_of_readable h rt).plain s rfl _ _ (by simp)

/-- Settles O43: the word decodes, and LL is the load of a word that sets the reservation too. -/
theorem loadLinkedRule : Obligations.LoadLinkedRule := fun s rt off rs =>
  ⟨decodeOfEncode (.ll rt off rs) rfl, fun h => (loadsDo_of_readable h rt).linked s rfl rfl⟩

/-! ## The merges, position by position -/

section
variable (m0 m1 m2 m3 : Byte) (v : Word)

theorem mergeLeft_bytes :
    mergeLeft 0 (m3 ++ m2 ++ m1 ++ m0) v = m0 ++ v.extractLsb' 0 24 ∧
    mergeLeft 1 (m3 ++ m2 ++ m1 ++ m0) v = m1 ++ m0 ++ v.extractLsb' 0 16 ∧
    mergeLeft 2 (m3 ++ m2 ++ m1 ++ m0) v = m2 ++ m1 ++ m0 ++ v.extractLsb' 0 8 ∧
    mergeLeft 3 (m3 ++ m2 ++ m1 ++ m0) v = m3 ++ m2 ++ m1 ++ m0 := by
  refine ⟨?_, ?_, ?_, ?_⟩ <;>
  · refine BitVec.eq_of_getLsbD_eq fun i hi => ?_
    simp only [mergeLeft, BitVec.getLsbD_or, BitVec.getLsbD_and, BitVec.getLsbD_shiftLeft, BitVec.getLsbD_append,
      BitVec.getLsbD_extractLsb']
    interval_cases i <;> simp

theorem mergeRight_bytes :
    mergeRight 0 (m3 ++ m2 ++ m1 ++ m0) v = m3 ++ m2 ++ m1 ++ m0 ∧
    mergeRight 1 (m3 ++ m2 ++ m1 ++ m0) v = v.extractLsb' 24 8 ++ m3 ++ m2 ++ m1 ∧
    mergeRight 2 (m3 ++ m2 ++ m1 ++ m0) v = v.extractLsb' 16 16 ++ m3 ++ m2 ∧
    mergeRight 3 (m3 ++ m2 ++ m1 ++ m0) v = v.extractLsb' 8 24 ++ m3 := by
  refine ⟨?_, ?_, ?_, ?_⟩ <;>
  · refine BitVec.eq_of_getLsbD_eq fun i hi => ?_
    simp only [mergeRight, BitVec.getLsbD_or, BitVec.getLsbD_and, BitVec.getLsbD_not, BitVec.getLsbD_ushiftRight,
      BitVec.getLsbD_append, BitVec.getLsbD_extractLsb']
    interval_cases i <;> simp

theorem storeLeft_bytes :
    storeLeft 0 v (m3 ++ m2 ++ m1 ++ m0) = m3 ++ m2 ++ m1 ++ v.extractLsb' 24 8 ∧
    storeLeft 1 v (m3 ++ m2 ++ m1 ++ m0) = m3 ++ m2 ++ v.extractLsb' 16 16 ∧
    storeLeft 2 v (m3 ++ m2 ++ m1 ++ m0) = m3 ++ v.extractLsb' 8 24 ∧
    storeLeft 3 v (m3 ++ m2 ++ m1 ++ m0) = v := by
  refine ⟨?_, ?_, ?_, ?_⟩ <;>
  · refine BitVec.eq_of_getLsbD_eq fun i hi => ?_
    simp only [storeLeft, BitVec.getLsbD_or, BitVec.getLsbD_and, BitVec.getLsbD_not, BitVec.getLsbD_ushiftRight,
      BitVec.getLsbD_append, BitVec.getLsbD_extractLsb']
    interval_cases i <;> simp

theorem storeRight_bytes :
    storeRight 0 v (m3 ++ m2 ++ m1 ++ m0) = v ∧
    storeRight 1 v (m3 ++ m2 ++ m1 ++ m0) = v.extractLsb' 0 24 ++ m0 ∧
    storeRight 2 v (m3 ++ m2 ++ m1 ++ m0) = v.extractLsb' 0 16 ++ m1 ++ m0 ∧
    storeRight 3 v (m3 ++ m2 ++ m1 ++ m0) = v.extractLsb' 0 8 ++ m2 ++ m1 ++ m0 := by
  refine ⟨?_, ?_, ?_, ?_⟩ <;>
  · refine BitVec.eq_of_getLsbD_eq fun i hi => ?_
    simp only [storeRight, BitVec.getLsbD_or, BitVec.getLsbD_and, BitVec.getLsbD_shiftLeft, BitVec.getLsbD_append,
      BitVec.getLsbD_extractLsb']
    interval_cases i <;> simp

end

theorem setsReg_merge_of_readable {s : State} {rs : Reg} {off : Imm} (h : Readable s (wordAddr (s.ea rs off)) .four)
    (rt : Reg) :
    SetsReg (.lwl rt off rs) s rt
        (mergeLeft ((s.ea rs off).toNat % 4) (s.word (s.physical (wordAddr (s.ea rs off)))) (s.x rt)) ∧
      SetsReg (.lwr rt off rs) s rt
        (mergeRight ((s.ea rs off).toNat % 4) (s.word (s.physical (wordAddr (s.ea rs off)))) (s.x rt)) :=
  ⟨(mergesDo_of_readable h rt).loads s rfl _ _ (by simp), (mergesDo_of_readable h rt).loads s rfl _ _ (by simp)⟩

/-- Settles O39: the words decode, and each form sets the register to the merge at its position, whose bytes are those listed. -/
theorem loadWordLeftAndRight : Obligations.LoadWordLeftAndRight := by
  refine fun s rt off rs =>
    ⟨decodeOfEncode (.lwl rt off rs) rfl, decodeOfEncode (.lwr rt off rs) rfl, fun hread => ?_⟩
  obtain ⟨hleft, hright⟩ := setsReg_merge_of_readable hread rt
  rw [State.word] at hleft hright
  obtain ⟨hl0, hl1, hl2, hl3⟩ := mergeLeft_bytes (s.byteAt _) (s.byteAt _) (s.byteAt _) (s.byteAt _) (s.x rt)
  obtain ⟨hr0, hr1, hr2, hr3⟩ := mergeRight_bytes (s.byteAt _) (s.byteAt _) (s.byteAt _) (s.byteAt _) (s.x rt)
  refine ⟨fun hk => ?_, fun hk => ?_, fun hk => ?_, fun hk => ?_⟩ <;> rw [hk] at hleft hright
  · exact ⟨hl0 ▸ hleft, hr0 ▸ hright⟩
  · exact ⟨hl1 ▸ hleft, hr1 ▸ hright⟩
  · exact ⟨hl2 ▸ hleft, hr2 ▸ hright⟩
  · exact ⟨hl3 ▸ hleft, hr3 ▸ hright⟩

/-! ## The unaligned pair -/

theorem toNat_wordAddr (a : Word) : (wordAddr a).toNat = a.toNat / 4 * 4 := by
  have h : wordAddr a = a >>> 2 <<< 2 := by
    refine BitVec.eq_of_getLsbD_eq fun i hi => ?_
    simp only [wordAddr, BitVec.getLsbD_and, BitVec.getLsbD_shiftLeft, BitVec.getLsbD_ushiftRight]
    interval_cases i <;> simp
  have hlt := a.isLt
  rw [h, BitVec.toNat_shiftLeft, BitVec.toNat_ushiftRight, Nat.shiftLeft_eq, Nat.shiftRight_eq_div_pow]
  omega

theorem toNat_and_three (a : Word) : (a &&& 3#32).toNat = a.toNat % 4 := by
  rw [BitVec.toNat_and]
  exact Nat.and_two_pow_sub_one_eq_mod a.toNat 2

/-- A mask that keeps the low two bits keeps an address at its place in its word (R62). -/
theorem physical_eq_wordAddr_add {s : State} (h : s.cfg.physMask &&& 3#32 = 3#32) (a : Word) :
    s.physical a = s.physical (wordAddr a) + a.toNat % 4 := by
  have hword : wordAddr a &&& s.cfg.physMask = wordAddr (a &&& s.cfg.physMask) := by
    rw [wordAddr, wordAddr, BitVec.and_assoc, BitVec.and_assoc, BitVec.and_comm 0xFFFFFFFC#32]
  have hplace : (a &&& s.cfg.physMask).toNat % 4 = a.toNat % 4 := by
    rw [← toNat_and_three, ← toNat_and_three, BitVec.and_assoc, h]
  rw [State.physical, State.physical, hword, toNat_wordAddr, ← hplace]
  omega

theorem physical_congr {s t : State} (h : t.cfg = s.cfg) (a : Word) : t.physical a = s.physical a := by
  rw [State.physical, State.physical, h]

theorem misalignedFatal_congr {s t : State} (h : t.cfg = s.cfg) (pa : Nat) (w : Width) :
    t.misalignedFatal pa w = s.misalignedFatal pa w := by
  rw [State.misalignedFatal, State.misalignedFatal, h]

/-- Which accesses memory serves depends on the parameters alone. -/
theorem readable_congr {s t : State} (h : t.cfg = s.cfg) {a : Word} {w : Width} (hr : Readable s a w) : Readable t a w := by
  rwa [Readable, physical_congr h, regionOf_congr h, misalignedFatal_congr h]

theorem OnlyRegs.trans {ds : List Reg} {s t u : State} (h : OnlyRegs ds s t) (k : OnlyRegs ds t u) : OnlyRegs ds s u := by
  obtain ⟨hr, hl, hf, hs, hp, hb⟩ := h
  obtain ⟨kr, kl, kf, ks, kp, kb⟩ := k
  exact ⟨fun r hn => (kr r hn).trans (hr r hn), ⟨kl.lo.trans hl.lo, kl.hi.trans hl.hi⟩,
    ⟨kf.pc.trans hf.pc, kf.npc.trans hf.npc, kf.dsCur.trans hf.dsCur, kf.dsNext.trans hf.dsNext⟩,
    ⟨ks.cop0.trans hs.cop0, ks.halted.trans hs.halted, ks.llbit.trans hs.llbit⟩,
    ⟨kp.cfg.trans hp.cfg, kp.intc.trans hp.intc, kp.sched.trans hp.sched, kp.phase.trans hp.phase,
      kp.replies.trans hp.replies, kp.draws.trans hp.draws⟩, fun a => (kb a).trans (hb a)⟩

/-- LWR from the lower word, then LWL three bytes on: at each place of the first byte, the old register is gone (R238). -/
theorem mergeLeft_mergeRight_bytes (b0 b1 b2 b3 c0 c1 c2 c3 : Byte) (v : Word) :
    mergeLeft 3 (c3 ++ c2 ++ c1 ++ c0) (mergeRight 0 (b3 ++ b2 ++ b1 ++ b0) v) = c3 ++ c2 ++ c1 ++ c0 ∧
    mergeLeft 0 (c3 ++ c2 ++ c1 ++ c0) (mergeRight 1 (b3 ++ b2 ++ b1 ++ b0) v) = c0 ++ b3 ++ b2 ++ b1 ∧
    mergeLeft 1 (c3 ++ c2 ++ c1 ++ c0) (mergeRight 2 (b3 ++ b2 ++ b1 ++ b0) v) = c1 ++ c0 ++ b3 ++ b2 ∧
    mergeLeft 2 (c3 ++ c2 ++ c1 ++ c0) (mergeRight 3 (b3 ++ b2 ++ b1 ++ b0) v) = c2 ++ c1 ++ c0 ++ b3 := by
  have hl := mergeLeft_bytes c0 c1 c2 c3
  obtain ⟨-, hr1, hr2, hr3⟩ := mergeRight_bytes b0 b1 b2 b3 v
  rw [hr1, hr2, hr3, (hl _).1, (hl _).2.1, (hl _).2.2.1, (hl _).2.2.2]
  refine ⟨rfl, ?_, ?_, ?_⟩ <;>
  · refine BitVec.eq_of_getLsbD_eq fun i hi => ?_
    simp only [BitVec.getLsbD_append, BitVec.getLsbD_extractLsb']
    interval_cases i <;> simp

theorem word_congr {s t : State} (h : SameBytes s t) (pa : Nat) : t.word pa = s.word pa := by
  simp only [State.word, h _]

/-- The pair goes on, and the register holds the second merge of the first (R238). -/
theorem lwr_lwl_next {s : State} {rt rs : Reg} {off off' : Imm} (hrt : rt ≠ 0) (hrs : rs ≠ rt)
    (h : Readable s (wordAddr (s.ea rs off)) .four) (h' : Readable s (wordAddr (s.ea rs off')) .four) :
    ∃ t u, exec (.lwr rt off rs) s = .next t ∧ exec (.lwl rt off' rs) t = .next u ∧
      u.x rt = mergeLeft ((s.ea rs off').toNat % 4) (s.word (s.physical (wordAddr (s.ea rs off'))))
        (mergeRight ((s.ea rs off).toNat % 4) (s.word (s.physical (wordAddr (s.ea rs off)))) (s.x rt)) ∧
      OnlyRegs [rt] s u := by
  obtain ⟨t, ht, hxt, honly⟩ := (setsReg_merge_of_readable h rt).2
  have ⟨hregs, _, _, _, hplatform, hbytes⟩ := honly
  have hea : t.ea rs off' = s.ea rs off' := by
    rw [State.ea, State.ea, hregs rs (by simpa using hrs)]
  have hphys := physical_congr hplatform.cfg (wordAddr (s.ea rs off'))
  rw [← hea] at h'
  obtain ⟨u, hu, hxu, honly'⟩ := (setsReg_merge_of_readable (readable_congr hplatform.cfg h') rt).1
  refine ⟨t, u, ht, hu, ?_, honly.trans honly'⟩
  rw [hxu, hxt, if_neg hrt, if_neg hrt, hea, hphys, word_congr hbytes]

/-- The byte at an address is byte `k` of the word it shares with `c` (R237). -/
theorem byteAt_physical {s : State} (h : s.cfg.physMask &&& 3#32 = 3#32) (a c : Word) (k : Nat)
    (hword : a.toNat / 4 = c.toNat / 4) (hk : a.toNat % 4 = k) :
    s.byteAt (s.physical a) = s.byteAt (s.physical (wordAddr c) + k) := by
  have hw : wordAddr a = wordAddr c := BitVec.eq_of_toNat_eq (by rw [toNat_wordAddr, toNat_wordAddr, hword])
  rw [physical_eq_wordAddr_add h, hw, hk]

theorem ea_add_three {s : State} {rs : Reg} {off : Imm} (h : (off + 3).toInt = off.toInt + 3) :
    s.ea rs (off + 3) = s.ea rs off + 3 := by
  have hsext : sext16 (off + 3) = sext16 off + 3 := by
    rw [sext16, BitVec.signExtend, h, BitVec.ofInt_add]
    rfl
  rw [State.ea, State.ea, hsext, BitVec.add_assoc]

/-- Settles O40: the four addresses lie in the two words read, and at each place of the first the two merges give the four bytes. -/
theorem unalignedLoadPair : Obligations.UnalignedLoadPair := by
  intro s rt rs off hrt hrs hoff hmask h h'
  obtain ⟨t, u, ht, hu, hx, honly⟩ := lwr_lwl_next hrt hrs h h'
  refine ⟨t, u, ht, hu, hx.trans ?_, honly⟩
  have byte := @byteAt_physical s hmask
  rw [ea_add_three hoff, State.word, State.word]
  generalize s.ea rs off = ea
  have hlt := ea.isLt
  have h1 : (ea + 1).toNat = (ea.toNat + 1) % 2 ^ 32 := BitVec.toNat_add ..
  have h2 : (ea + 2).toNat = (ea.toNat + 2) % 2 ^ 32 := BitVec.toNat_add ..
  have h3 : (ea + 3).toNat = (ea.toNat + 3) % 2 ^ 32 := BitVec.toNat_add ..
  obtain hk | hk | hk | hk : ea.toNat % 4 = 0 ∨ ea.toNat % 4 = 1 ∨ ea.toNat % 4 = 2 ∨ ea.toNat % 4 = 3 := by omega
  · rw [hk, show (ea + 3).toNat % 4 = 3 by omega, byte (ea + 3) (ea + 3) 3 (by omega) (by omega),
      byte (ea + 2) (ea + 3) 2 (by omega) (by omega), byte (ea + 1) (ea + 3) 1 (by omega) (by omega),
      byte ea (ea + 3) 0 (by omega) (by omega)]
    exact (mergeLeft_mergeRight_bytes ..).1
  · rw [hk, show (ea + 3).toNat % 4 = 0 by omega, byte (ea + 3) (ea + 3) 0 (by omega) (by omega),
      byte (ea + 2) ea 3 (by omega) (by omega), byte (ea + 1) ea 2 (by omega) (by omega),
      byte ea ea 1 (by omega) (by omega)]
    exact (mergeLeft_mergeRight_bytes ..).2.1
  · rw [hk, show (ea + 3).toNat % 4 = 1 by omega, byte (ea + 3) (ea + 3) 1 (by omega) (by omega),
      byte (ea + 2) (ea + 3) 0 (by omega) (by omega), byte (ea + 1) ea 3 (by omega) (by omega),
      byte ea ea 2 (by omega) (by omega)]
    exact (mergeLeft_mergeRight_bytes ..).2.2.1
  · rw [hk, show (ea + 3).toNat % 4 = 2 by omega, byte (ea + 3) (ea + 3) 2 (by omega) (by omega),
      byte (ea + 2) (ea + 3) 1 (by omega) (by omega), byte (ea + 1) (ea + 3) 0 (by omega) (by omega),
      byte ea ea 3 (by omega) (by omega)]
    exact (mergeLeft_mergeRight_bytes ..).2.2.2

/-! ## What a served write leaves -/

/-- Two neighbouring bytes of a word are its half there. -/
theorem extractLsb'_bytes (v : Word) (k : Nat) : v.extractLsb' (k + 8) 8 ++ v.extractLsb' k 8 = v.extractLsb' k 16 := by
  refine BitVec.eq_of_getLsbD_eq fun i hi => ?_
  simp only [BitVec.getLsbD_append, BitVec.getLsbD_extractLsb']
  split
  · next hlow => simp [hlow, hi]
  · next hlow => simp [hi, show i - 8 < 8 by omega, show k + 8 + (i - 8) = k + i by omega]

/-- A word stands where its four bytes stand (R71). -/
theorem word_of_bytes {s : State} {pa : Nat} {v : Word} (h : ∀ k < 4, s.byteAt (pa + k) = v.extractLsb' (8 * k) 8) :
    s.word pa = v := by
  have h0 := h 0 (by decide)
  rw [Nat.add_zero] at h0
  rw [State.word, h0, h 1 (by decide), h 2 (by decide), h 3 (by decide)]
  refine BitVec.eq_of_getLsbD_eq fun i hi => ?_
  simp only [BitVec.getLsbD_append, BitVec.getLsbD_extractLsb']
  interval_cases i <;> simp

theorem half_store (s : State) (pa : Nat) (v : Word) :
    { s with mem := Memory.storeBytes s.mem pa v 2 }.half pa = v.extractLsb' 0 16 := by
  rw [← extractLsb'_bytes]
  exact congrArg₂ (· ++ ·) (byteAt_store_inside s pa v 2 1 (by decide)) (byteAt_store_inside s pa v 2 0 (by decide))

theorem word_store (s : State) (pa : Nat) (v : Word) : { s with mem := Memory.storeBytes s.mem pa v 4 }.word pa = v :=
  word_of_bytes (byteAt_store_inside s pa v 4)

/-- A store that memory serves stores the register's low bytes (R67, R231). -/
theorem storesDo_of_writable {s : State} {rs : Reg} {off : Imm} {w : Width} (h : Writable s (s.ea rs off) w) (rt : Reg) :
    StoresDo s rt off rs w (.next { s with mem := Memory.storeBytes s.mem (s.physical (s.ea rs off)) (s.x rt) w.bytes }) :=
  storesDo_of_memWrite (memWrite_of_writable _ h)

/-- Settles O41: the words decode, and each store stores the low bytes of its register and nothing else. -/
theorem storeInstructions : Obligations.StoreInstructions := by
  intro s rt off rs
  refine ⟨decodeOfEncode (.sb rt off rs) rfl, decodeOfEncode (.sh rt off rs) rfl, decodeOfEncode (.sw rt off rs) rfl,
    fun h => ?_, fun h => ?_, fun h => ?_⟩
  · exact ⟨_, (storesDo_of_writable h rt).plain _ (by simp), onlyBytes_store .., byteAt_store_inside _ _ _ 1 0 (by decide)⟩
  · exact ⟨_, (storesDo_of_writable h rt).plain _ (by simp), onlyBytes_store .., half_store ..⟩
  · exact ⟨_, (storesDo_of_writable h rt).plain _ (by simp), onlyBytes_store .., word_store ..⟩

/-- Settles O42: the words decode, and each form stores the merge at its position, whose bytes are those listed. -/
theorem storeWordLeftAndRight : Obligations.StoreWordLeftAndRight := by
  refine fun s rt off rs =>
    ⟨decodeOfEncode (.swl rt off rs) rfl, decodeOfEncode (.swr rt off rs) rfl, fun hwrite => ?_⟩
  have hmerges := mergesDo_of_readable hwrite.readable rt
  refine ⟨_, _, hmerges.stores s rfl _ _ (.head _) _ (memWrite_of_writable _ hwrite),
    hmerges.stores s rfl _ _ (.tail _ (.head _)) _ (memWrite_of_writable _ hwrite), onlyBytes_store .., onlyBytes_store ..,
    ?_⟩
  rw [Width.bytes, word_store, word_store, State.word]
  obtain ⟨hl0, hl1, hl2, hl3⟩ := storeLeft_bytes (s.byteAt _) (s.byteAt _) (s.byteAt _) (s.byteAt _) (s.x rt)
  obtain ⟨hr0, hr1, hr2, hr3⟩ := storeRight_bytes (s.byteAt _) (s.byteAt _) (s.byteAt _) (s.byteAt _) (s.x rt)
  refine ⟨fun hk => ?_, fun hk => ?_, fun hk => ?_, fun hk => ?_⟩ <;> rw [hk]
  · exact ⟨hl0, hr0⟩
  · exact ⟨hl1, hr1⟩
  · exact ⟨hl2, hr2⟩
  · exact ⟨hl3, hr3⟩

theorem exec_sc_of_not_reserved {s : State} (h : s.llbit = false) (rt : Reg) (off : Imm) (rs : Reg) :
    exec (.sc rt off rs) s = .next (s.setX rt 0#32) := by
  rw [exec_sc, execSc, h]
  rfl

/-- With the reservation SC stores and then gives 1 (R245). -/
theorem exec_sc_of_writable {s : State} {rs : Reg} {off : Imm} (hl : s.llbit = true) (h : Writable s (s.ea rs off) .four)
    (rt : Reg) : exec (.sc rt off rs) s = .next
      ({ s with mem := Memory.storeBytes s.mem (s.physical (s.ea rs off)) (s.x rt) 4 }.setX rt 1#32) := by
  rw [exec_sc, execSc, if_pos hl, storeFrom, memWrite_of_writable _ h]
  rfl

/-- Settles O44: the word decodes, and the reservation tells the one register write from the store followed by one. -/
theorem storeConditionalRule : Obligations.StoreConditionalRule := fun _ rt off rs =>
  ⟨decodeOfEncode (.sc rt off rs) rfl, fun hl => setsReg_of_exec (exec_sc_of_not_reserved hl rt off rs) rfl,
    fun hl h => ⟨_, exec_sc_of_writable hl h rt, x_setX_self .., word_store .., sameRegs_setX (fun _ _ => rfl) rt _, ⟨rfl, rfl⟩,
      ⟨rfl, rfl, rfl, rfl⟩, ⟨rfl, rfl, rfl⟩, ⟨rfl, rfl, rfl, rfl, rfl, rfl⟩, fun _ ha => byteAt_store_outside _ _ _ _ _ ha⟩⟩

end Sys2Proof.Machine
end

section
/-! PROOFS. The frame of the loads and stores (45_load_store.md R231, 20_memory.md R65, R67, 60_exceptions.md R355): the bus
accesses of each form, what no access changes, and what an access where no device answers leaves as it was. -/

namespace Sys2Proof.Machine

/-! ## The accesses of each form -/

section
variable (rt : Reg) (off : Imm) (rs : Reg)

def loadForms : List Instr := [.lb rt off rs, .lbu rt off rs, .lh rt off rs, .lhu rt off rs, .lw rt off rs, .ll rt off rs]

def mergingLoadForms : List Instr := [.lwl rt off rs, .lwr rt off rs]

/-- The plain stores, with their widths. -/
def storeForms : List (Instr × Width) := [(.sb rt off rs, .one), (.sh rt off rs, .two), (.sw rt off rs, .four)]

def mergingStoreForms : List Instr := [.swl rt off rs, .swr rt off rs]

end

section
variable {rt rs : Reg} {off : Imm} {i : Instr} {s t : State}

/-- A load makes one read, then writes its register, and LL the reservation. -/
theorem loadForms_next (hi : i ∈ loadForms rt off rs) (h : exec i s = .next t) :
    ∃ w p v, memRead s (s.ea rs off) w = .next p ∧
      (t = p.2.setX rt v ∨ i = .ll rt off rs ∧ t = { p.2.setX rt v with llbit := true }) := by
  have hload : ∀ {w ext u}, loadTo rt off rs w ext s = .next u →
      ∃ p, memRead s (s.ea rs off) w = .next p ∧ u = p.2.setX rt (ext p.1) := loadTo_next.1
  simp only [loadForms, List.mem_cons, List.not_mem_nil, or_false] at hi
  obtain rfl | rfl | rfl | rfl | rfl | rfl := hi
  case inr.inr.inr.inr.inr =>
    obtain ⟨u, hu, ht⟩ := bind_eq_next.1 (exec_ll .. ▸ h)
    obtain ⟨p, hp, rfl⟩ := hload hu
    exact ⟨_, p, _, hp, .inr ⟨rfl, (Host.Outcome.next.inj ht).symm⟩⟩
  all_goals
    simp only [exec_lb, exec_lbu, exec_lh, exec_lhu, exec_lw] at h
    obtain ⟨p, hp, rfl⟩ := hload h
    exact ⟨_, p, _, hp, .inl rfl⟩

theorem mergingLoadForms_next (hi : i ∈ mergingLoadForms rt off rs) (h : exec i s = .next t) :
    ∃ p v, memRead s (wordAddr (s.ea rs off)) .four = .next p ∧ t = p.2.setX rt v := by
  simp only [mergingLoadForms, List.mem_cons, List.not_mem_nil, or_false] at hi
  obtain rfl | rfl := hi
  · obtain ⟨p, hp, rfl⟩ := loadMerge_next.1 (exec_lwl .. ▸ h)
    exact ⟨p, _, hp, rfl⟩
  · obtain ⟨p, hp, rfl⟩ := loadMerge_next.1 (exec_lwr .. ▸ h)
    exact ⟨p, _, hp, rfl⟩

theorem storeForms_next {w : Width} (hi : (i, w) ∈ storeForms rt off rs) (h : exec i s = .next t) :
    memWrite s (s.ea rs off) w (s.x rt) = .next t := by
  simp only [storeForms, List.mem_cons, Prod.mk.injEq, List.not_mem_nil, or_false] at hi
  obtain ⟨rfl, rfl⟩ | ⟨rfl, rfl⟩ | ⟨rfl, rfl⟩ := hi <;> exact h

/-- SC writes memory only with the reservation, and its register in both cases (R245). -/
theorem sc_next (h : exec (.sc rt off rs) s = .next t) :
    t = s.setX rt 0#32 ∨ ∃ u, memWrite s (s.ea rs off) .four (s.x rt) = .next u ∧ t = u.setX rt 1#32 := by
  rw [exec_sc, execSc] at h
  split at h
  · obtain ⟨u, hu, ht⟩ := bind_eq_next.1 h
    exact .inr ⟨u, hu, (Host.Outcome.next.inj ht).symm⟩
  · exact .inl (Host.Outcome.next.inj h).symm

theorem mergingStoreForms_next (hi : i ∈ mergingStoreForms rt off rs) (h : exec i s = .next t) :
    ∃ p v, memRead s (wordAddr (s.ea rs off)) .four = .next p ∧ memWrite p.2 (wordAddr (s.ea rs off)) .four v = .next t := by
  simp only [mergingStoreForms, List.mem_cons, List.not_mem_nil, or_false] at hi
  obtain rfl | rfl := hi
  · obtain ⟨p, hp, hw⟩ := storeMerge_next.1 (exec_swl .. ▸ h)
    exact ⟨p, _, hp, hw⟩
  · obtain ⟨p, hp, hw⟩ := storeMerge_next.1 (exec_swr .. ▸ h)
    exact ⟨p, _, hp, hw⟩

/-! ## What no access changes -/

/-- The forms that write a register do so after their accesses. -/
theorem accessed_of_register_forms (hi : i ∈ loadForms rt off rs ++ mergingLoadForms rt off rs ++ [.sc rt off rs])
    (h : exec i s = .next t) : ∃ u v, Accessed s u ∧
      (t = u.setX rt v ∨ i = .ll rt off rs ∧ t = { u.setX rt v with llbit := true }) := by
  simp only [List.mem_append, List.mem_singleton] at hi
  obtain (hi | hi) | rfl := hi
  · obtain ⟨w, p, v, hp, ht⟩ := loadForms_next hi h
    exact ⟨p.2, v, memRead_accessed hp, ht⟩
  · obtain ⟨p, v, hp, ht⟩ := mergingLoadForms_next hi h
    exact ⟨p.2, v, memRead_accessed hp, .inl ht⟩
  · obtain ht | ⟨u, hu, ht⟩ := sc_next h
    · exact ⟨s, _, .device (.refl s), .inl ht⟩
    · exact ⟨u, _, memWrite_accessed (.refl s) hu, .inl ht⟩

theorem accessed_of_store_forms (hi : i ∈ mergingStoreForms rt off rs ++ (storeForms rt off rs).map Prod.fst)
    (h : exec i s = .next t) : Accessed s t := by
  obtain hi | hi := List.mem_append.1 hi
  · obtain ⟨p, v, hp, hw⟩ := mergingStoreForms_next hi h
    exact memWrite_accessed (memRead_keeps hp) hw
  · obtain ⟨⟨j, w⟩, hj, rfl⟩ := List.mem_map.1 hi
    exact memWrite_accessed (.refl s) (storeForms_next hj h)

theorem SameCpu.setLlbit {s t : State} (h : SameCpu s t) (b : Bool) : SameCpu s { t with llbit := b } :=
  ⟨⟨h.hiLo.lo, h.hiLo.hi⟩, ⟨h.flow.pc, h.flow.npc, h.flow.dsCur, h.flow.dsNext⟩, h.cop0, h.halted, h.cfg, h.phase, h.now,
    h.handlers⟩

/-- What every load and store keeps: the CPU but the registers, the reservation but for LL, and the bytes that RAM does not own. -/
structure AccessKeeps (i : Instr) (rt : Reg) (off : Imm) (rs : Reg) (s t : State) : Prop where
  cpu   : SameCpu s t
  llbit : i ≠ .ll rt off rs → t.llbit = s.llbit
  rom   : KeepsRom s t

theorem keeps_of_register_forms (hi : i ∈ loadForms rt off rs ++ mergingLoadForms rt off rs ++ [.sc rt off rs])
    (h : exec i s = .next t) : SameRegs [rt] s t ∧ AccessKeeps i rt off rs s t := by
  obtain ⟨u, v, hu, ht⟩ := accessed_of_register_forms hi h
  obtain ⟨hregs, hcpu⟩ := hu.frame.sameCpu
  have hsetX := sameRegs_setX hregs rt v
  have hc := hcpu.setX rt v
  have hrom : ∀ {t' : State}, t'.cfg = u.cfg → t'.mem = u.mem → KeepsRom s t' := fun hc hm =>
    hu.keepsRom.trans (keepsRom_of_mem hc hm)
  obtain rfl | ⟨hll, rfl⟩ := ht
  · exact ⟨hsetX, hc, fun _ => hu.frame.llbit, hrom rfl rfl⟩
  · exact ⟨hsetX, hc.setLlbit true, fun hn => absurd hll hn, hrom rfl rfl⟩

theorem keeps_of_store_forms (hi : i ∈ mergingStoreForms rt off rs ++ (storeForms rt off rs).map Prod.fst)
    (h : exec i s = .next t) : SameRegs [] s t ∧ AccessKeeps i rt off rs s t := by
  have ha := accessed_of_store_forms hi h
  exact ⟨ha.frame.sameCpu.1, ha.frame.sameCpu.2, fun _ => ha.frame.llbit, ha.keepsRom⟩

end

/-! ## Where no device answers -/

theorem memRead_of_noDevice {s : State} {a : Word} {w : Width} {p : Word × State} (hd : NoDevice s a)
    (h : memRead s a w = .next p) : p.2 = s := by
  simp only [memRead] at h
  split at h
  · cases h
  · next r hr =>
    split at h
    · obtain ⟨v, -, ⟨⟩⟩ := bind_eq_next.1 h; rfl
    · obtain ⟨v, -, ⟨⟩⟩ := bind_eq_next.1 h; rfl
    · next ho => exact absurd ho (hd r _ hr)
    · next ho => exact absurd ho (hd r _ hr)

theorem memWrite_of_noDevice {s t : State} {a : Word} {w : Width} {v : Word} (hd : NoDevice s a)
    (h : memWrite s a w v = .next t) : t = { s with mem := Memory.storeBytes s.mem (s.physical a) v w.bytes } := by
  simp only [memWrite] at h
  split at h
  · cases h
  · next r hr =>
    split at h
    · cases h
    · exact (writeBacking_next.1 h).2.2
    · next ho => exact absurd ho (hd r _ hr)
    · next ho => exact absurd ho (hd r _ hr)

/-- A write of memory keeps everything outside the CPU but its bytes (R67). -/
theorem platform_of_memWrite {s t : State} {a : Word} {w : Width} {v : Word} (hd : NoDevice s a)
    (h : memWrite s a w v = .next t) : SamePlatform s t ∧ SameBytesOutside (s.physical a) w.bytes s t := by
  obtain rfl := memWrite_of_noDevice hd h
  obtain ⟨-, -, -, -, hplatform, hbytes⟩ := onlyBytes_store s (s.physical a) w.bytes v
  exact ⟨hplatform, hbytes⟩

/-- A register write after an access keeps what the access kept. -/
theorem platform_setX {s u : State} {pa n : Nat} (h : SamePlatform s u ∧ SameBytesOutside pa n s u) (rt : Reg) (v : Word) :
    SamePlatform s (u.setX rt v) ∧ SameBytesOutside pa n s (u.setX rt v) :=
  ⟨⟨h.1.cfg, h.1.intc, h.1.sched, h.1.phase, h.1.replies, h.1.draws⟩, h.2⟩

section
variable {rt rs : Reg} {off : Imm} {i : Instr} {s t : State}

theorem platform_of_loadForms (hi : i ∈ loadForms rt off rs) (h : exec i s = .next t) (hd : NoDevice s (s.ea rs off)) :
    SamePlatform s t ∧ SameBytes s t := by
  obtain ⟨w, p, v, hp, ht⟩ := loadForms_next hi h
  rw [memRead_of_noDevice hd hp] at ht
  obtain rfl | ⟨-, rfl⟩ := ht <;> exact ⟨⟨rfl, rfl, rfl, rfl, rfl, rfl⟩, fun _ => rfl⟩

theorem platform_of_mergingLoadForms (hi : i ∈ mergingLoadForms rt off rs) (h : exec i s = .next t)
    (hd : NoDevice s (wordAddr (s.ea rs off))) : SamePlatform s t ∧ SameBytes s t := by
  obtain ⟨p, v, hp, rfl⟩ := mergingLoadForms_next hi h
  rw [memRead_of_noDevice hd hp]
  exact ⟨⟨rfl, rfl, rfl, rfl, rfl, rfl⟩, fun _ => rfl⟩

theorem platform_of_sc (h : exec (.sc rt off rs) s = .next t) (hd : NoDevice s (s.ea rs off)) :
    SamePlatform s t ∧ SameBytesOutside (s.physical (s.ea rs off)) 4 s t := by
  obtain rfl | ⟨u, hu, rfl⟩ := sc_next h
  · exact ⟨⟨rfl, rfl, rfl, rfl, rfl, rfl⟩, fun _ _ => rfl⟩
  · exact platform_setX (platform_of_memWrite hd hu) rt _

theorem platform_of_mergingStoreForms (hi : i ∈ mergingStoreForms rt off rs) (h : exec i s = .next t)
    (hd : NoDevice s (wordAddr (s.ea rs off))) :
    SamePlatform s t ∧ SameBytesOutside (s.physical (wordAddr (s.ea rs off))) 4 s t := by
  obtain ⟨p, v, hp, hw⟩ := mergingStoreForms_next hi h
  rw [memRead_of_noDevice hd hp] at hw
  exact platform_of_memWrite hd hw

end

/-- Settles O45: the forms that write a register and the stores keep what their accesses keep, and each form where no device answers
leaves the state its read found, or the bytes its write stored. -/
theorem loadStoreFrame : Obligations.LoadStoreFrame := by
  intro s t rt off rs i h
  refine ⟨fun hi => (keeps_of_register_forms hi h).1, fun hi => (keeps_of_store_forms hi h).1, fun hi => ?all,
    fun hi hd => platform_of_loadForms hi h hd, fun hi hd => platform_of_mergingLoadForms hi h hd, fun n hi hd => ?stores,
    fun hi hd => platform_of_mergingStoreForms hi h hd⟩
  case all =>
    have hk : AccessKeeps i rt off rs s t := by
      obtain hi | hstore := List.mem_append.1 hi
      · obtain hload | hmerging := List.mem_append.1 hi
        · exact (keeps_of_register_forms (List.mem_append_left _ hload) h).2
        · exact (keeps_of_store_forms (List.mem_append_left _ hmerging) h).2
      · obtain hplain | hsc : i ∈ (storeForms rt off rs).map Prod.fst ∨ i ∈ [Instr.sc rt off rs] := List.mem_append.1 hstore
        · exact (keeps_of_store_forms (List.mem_append_right _ hplain) h).2
        · exact (keeps_of_register_forms (List.mem_append_right _ hsc) h).2
    exact ⟨hk.cpu, hk.llbit, hk.rom.bytes⟩
  case stores =>
    simp only [List.mem_cons, Prod.mk.injEq, List.not_mem_nil, or_false] at hi
    obtain ⟨rfl, rfl⟩ | ⟨rfl, rfl⟩ | ⟨rfl, rfl⟩ | ⟨rfl, rfl⟩ := hi
    · exact platform_of_memWrite hd h
    · exact platform_of_memWrite hd h
    · exact platform_of_memWrite hd h
    · exact platform_of_sc h hd

end Sys2Proof.Machine
end

section
/-! PROOFS. The bus (20_memory.md R62 to R72): which accesses of RAM and ROM are fatal, the mask, and the reads that see a written
word. -/

namespace Sys2Proof.Machine

/-! ## Accesses of RAM and ROM -/

section
variable {s : State} {a : Word} {w : Width} {r : Region}

theorem memRead_of_backed (hr : s.regionOf (s.physical a) = some r) (ho : r.owner = .ram ∨ r.owner = .rom) (w : Width) :
    memRead s a w = Res.bind (readBacking r (s.physical a) w s) fun v => .next (v, s) := by
  obtain ho | ho := ho <;> simp only [memRead, hr, ho]

theorem memWrite_of_ram (hr : s.regionOf (s.physical a) = some r) (ho : r.owner = .ram) (w : Width) (v : Word) :
    memWrite s a w v = writeBacking r (s.physical a) w v s := by
  simp only [memWrite, hr, ho]

theorem memWrite_of_rom (hr : s.regionOf (s.physical a) = some r) (ho : r.owner = .rom) (w : Width) (v : Word) :
    memWrite s a w v = .fault (.unhandledAccess (s.physical a) w true) := by
  simp only [memWrite, hr, ho]

theorem misalignedFatal_iff {pa : Nat} : s.misalignedFatal pa w = true ↔ s.cfg.misaligned = .fatal ∧ pa % w.bytes ≠ 0 := by
  simp only [State.misalignedFatal, Bool.and_eq_true, decide_eq_true_eq]

theorem misalignedFatal_of_admitted {pa : Nat} (h : s.cfg.misaligned = .byteAssemble ∨ pa % w.bytes = 0) :
    s.misalignedFatal pa w = false := by
  refine Bool.eq_false_iff.2 fun hm => ?_
  obtain ⟨hpolicy, hpa⟩ := misalignedFatal_iff.1 hm
  obtain h | h := h
  · exact absurd (hpolicy.symm.trans h) nofun
  · exact hpa h

theorem backing_of_misaligned {pa : Nat} (h : s.misalignedFatal pa w = true) (v : Word) :
    readBacking r pa w s = .fault (.misalignedDataAccess pa w) ∧
      writeBacking r pa w v s = .fault (.misalignedDataAccess pa w) := ⟨if_pos h, if_pos h⟩

/-- An access that begins inside its region and ends beyond it (R65). -/
theorem backing_of_beyond {pa : Nat} (hm : s.misalignedFatal pa w = false) (h : r.base + r.size < pa + w.bytes) (v : Word) :
    readBacking r pa w s = .fault (.unhandledAccess pa w false) ∧
      writeBacking r pa w v s = .fault (.unhandledAccess pa w true) := by
  have hend : r.base + r.size ≤ pa + w.bytes - 1 := by omega
  simp only [readBacking, writeBacking, hm, hend, Bool.false_eq_true, if_false, if_true, and_self]

end

/-- Settles O47: the bus finds the owner, refuses a write of ROM, and then tests the alignment and the end, in that order. -/
theorem regionLimitsAreFatal : Obligations.RegionLimitsAreFatal := by
  refine fun s a w v r hr => ⟨fun ho => memWrite_of_rom hr ho w v, fun ho hpolicy hpa => ?_, fun ho hadmitted hend => ?_⟩
  · obtain ⟨hread, hwrite⟩ := backing_of_misaligned (r := r) (misalignedFatal_iff.2 ⟨hpolicy, hpa⟩) v
    exact ⟨by rw [memRead_of_backed hr ho, hread, bind_fault], fun hram => by rw [memWrite_of_ram hr hram, hwrite]⟩
  · obtain ⟨hread, hwrite⟩ := backing_of_beyond (misalignedFatal_of_admitted hadmitted) hend v
    exact ⟨by rw [memRead_of_backed hr ho, hread, bind_fault], fun hram => by rw [memWrite_of_ram hr hram, hwrite]⟩

/-- Settles O48: an access looks at its address through the mask alone. -/
theorem maskedBitsAreIgnored : Obligations.MaskedBitsAreIgnored := by
  intro s a b w v h
  have hphys : s.physical a = s.physical b := congrArg BitVec.toNat h
  exact ⟨by simp only [memRead, hphys], by simp only [memWrite, hphys]⟩

/-! ## Reading a written word back -/

/-- An aligned part of a word that RAM serves is served too (R63, R70). -/
theorem readable_part {s : State} {a : Word} {k : Nat} {w : Width} (hwf : s.cfg.wf = true) (h : Writable s a .four)
    (hadmitted : s.cfg.misaligned = .byteAssemble ∨ s.physical a % 4 = 0)
    (hphys : s.physical (a + BitVec.ofNat 32 k) = s.physical a + k) (hk : k + w.bytes ≤ 4) (hpart : k % w.bytes = 0) :
    Readable s (a + BitVec.ofNat 32 k) w := by
  obtain ⟨r, hr, ho, hend, -⟩ := h
  have hbytes : 0 < w.bytes := by cases w <;> decide
  rw [show Width.four.bytes = 4 from rfl] at hend
  rw [Readable, hphys]
  refine ⟨r, regionOf_add hwf hr (by omega), .inl ho, by omega, misalignedFatal_of_admitted (hadmitted.imp_right fun h4 => ?_)⟩
  have hdvd : w.bytes ∣ 4 := by cases w <;> decide
  exact Nat.mod_eq_zero_of_dvd
    ((Nat.dvd_add_iff_left (Nat.dvd_of_mod_eq_zero hpart)).1 (hdvd.trans (Nat.dvd_of_mod_eq_zero h4)))

section
variable {s t : State} {a v : Word} (hwf : s.cfg.wf = true) (hwritable : Writable s a .four)
  (hadmitted : s.cfg.misaligned = .byteAssemble ∨ s.physical a % 4 = 0)
  (hphys : ∀ k < 4, s.physical (a + BitVec.ofNat 32 k) = s.physical a + k) (hcfg : t.cfg = s.cfg)
  (hbytes : ∀ k < 4, t.byteAt (s.physical a + k) = v.extractLsb' (8 * k) 8)
include hwf hwritable hadmitted hphys hcfg hbytes

theorem memRead_stored_byte {k : Nat} (hk : k < 4) :
    memRead t (a + BitVec.ofNat 32 k) .one = .next (0#24 ++ v.extractLsb' (8 * k) 8, t) := by
  have hread := readable_part (w := .one) hwf hwritable hadmitted (hphys k hk) hk (Nat.mod_one k)
  rw [memRead_of_readable (readable_congr hcfg hread), physical_congr hcfg, hphys k hk, Width.bytes, loadBytes_one,
    hbytes k hk, ← zext8, zext8_eq]

theorem memRead_stored_half {k : Nat} (hk : k + 2 ≤ 4) (hpart : k % 2 = 0) :
    memRead t (a + BitVec.ofNat 32 k) .two = .next (0#16 ++ v.extractLsb' (8 * k) 16, t) := by
  have hk4 : k < 4 := by omega
  have hread := readable_part (w := .two) hwf hwritable hadmitted (hphys k hk4) hk hpart
  rw [memRead_of_readable (readable_congr hcfg hread), physical_congr hcfg, hphys k hk4, Width.bytes, loadBytes_two,
    Nat.add_assoc, hbytes (k + 1) (by omega), hbytes k hk4, Nat.mul_add, extractLsb'_bytes, ← zext16, zext16_eq]

end

theorem memRead_stored_word {s t : State} {a v : Word} (hwritable : Writable s a .four) (hcfg : t.cfg = s.cfg)
    (hbytes : ∀ k < 4, t.byteAt (s.physical a + k) = v.extractLsb' (8 * k) 8) : memRead t a .four = .next (v, t) := by
  rw [memRead_of_readable (readable_congr hcfg hwritable.readable), physical_congr hcfg, Width.bytes, loadBytes_four,
    ← State.word, word_of_bytes hbytes]

/-- Settles O49: the parts of the word are served where it was, and each reads the bytes the write left there. -/
theorem mixedWidthsShareBytes : Obligations.MixedWidthsShareBytes := by
  intro s t a v hwf hwritable hadmitted hphys h
  rw [memWrite_of_writable v hwritable, Host.Outcome.next.injEq] at h
  have hcfg : t.cfg = s.cfg := h ▸ rfl
  have hbytes : ∀ k < 4, t.byteAt (s.physical a + k) = v.extractLsb' (8 * k) 8 := h ▸ byteAt_store_inside s _ v 4
  have hbyte := @memRead_stored_byte s t a v hwf hwritable hadmitted hphys hcfg hbytes
  have hhalf := @memRead_stored_half s t a v hwf hwritable hadmitted hphys hcfg hbytes
  have ha : a + BitVec.ofNat 32 0 = a := BitVec.add_zero a
  exact ⟨ha ▸ hbyte (k := 0) (by decide), hbyte (k := 1) (by decide), hbyte (k := 2) (by decide), hbyte (k := 3) (by decide),
    ha ▸ hhalf (k := 0) (by decide) rfl, hhalf (k := 2) (by decide) rfl,
    fun hpc => by rw [fetch, hpc, memRead_stored_word hwritable hcfg hbytes]⟩

end Sys2Proof.Machine
end

section
/-! PROOFS. Device windows (60_exceptions.md R330 to R355): a peripheral's window forwards each access, the effects of a reply are
performed one by one, and the controller's operations and its window reach one bank. -/

namespace Sys2Proof.Machine

/-! ## A peripheral's window -/

/-- What a device answers keeps what a device's transition keeps. -/
theorem answers_keeps {s u : State} {d : Nat} {c : DeviceCall} {v : Word} (h : Answers s d c v (.next u)) : DeviceKeeps s u := by
  generalize hq : (Host.Outcome.next u : Res State) = q at h
  cases h with
  | done es t h =>
    have hk := takeReply_keeps d c s
    rw [replied_iff.1 h] at hk
    exact hk.trans (applyEffects_keeps hq.symm)
  | unhandled t h => cases c <;> cases hq

section
variable {s : State} {rs : Reg} {off : Imm} {r : Region} {d : Nat} {v : Word} {q : Res State}

/-- The stores' write of the merged word goes to the same window in the state the read left (R242). -/
theorem mergesDo_of_answers (rt : Reg) (hr : s.regionOf (s.physical (wordAddr (s.ea rs off))) = some r)
    (ho : r.owner = .device (.peripheral d)) (h : Answers s d (.read (s.physical (wordAddr (s.ea rs off))) .four) v q) :
    MergesDo s rt off rs v q fun u value p =>
      ∃ x, Answers u d (.write (s.physical (wordAddr (s.ea rs off))) .four value) x p := by
  refine mergesDo_of_bus (memRead_peripheral hr ho h) (fun u hu => answers_x (hu ▸ h) rt) ?_
  rintro u rfl value p ⟨x, hx⟩
  have hcfg := (answers_keeps h).frame.cfg
  rw [← physical_congr hcfg] at hx hr
  rw [← regionOf_congr hcfg] at hr
  exact memWrite_peripheral hr ho hx

end

/-! ## The effects of a reply -/

theorem bind_next_right {α : Type} (r : Res α) : (Res.bind r fun a => .next a) = r := by
  cases r <;> rfl

theorem applyEffects_singleton (d : Nat) (e : Effect) (s : State) : applyEffects d [e] s = applyEffect d e s :=
  bind_next_right _

/-- The effects of a list are performed one after the other (R351). -/
theorem applyEffects_cons {d : Nat} {e : Effect} {s u : State} (h : applyEffects d [e] s = .next u) (es : List Effect) :
    applyEffects d (e :: es) s = applyEffects d es u := by
  rw [applyEffects_singleton] at h
  rw [applyEffects, h, bind_next]

/-- Listing one byte changes that byte and nothing else (R353). -/
theorem onlyBytes_set (s : State) (a : Nat) (b : Byte) :
    { s with mem := Memory.set s.mem a b }.byteAt a = b ∧ OnlyBytes a 1 s { s with mem := Memory.set s.mem a b } := by
  refine ⟨by simp [State.byteAt, get_set], fun _ _ => rfl, ⟨rfl, rfl⟩, ⟨rfl, rfl, rfl, rfl⟩, ⟨rfl, rfl, rfl⟩,
    ⟨rfl, rfl, rfl, rfl, rfl, rfl⟩, fun x hx => ?_⟩
  have hne : x ≠ a := by omega
  simp [State.byteAt, get_set, hne]

section
variable {s : State} {r : Region}

theorem deviceWriteRam_inside (hr : s.ramRegion = some r) {k : Nat} (hk : k < r.size) (d : Nat) (b : Byte) :
    deviceWriteRam d k b s = .next { s with mem := Memory.set s.mem (r.base + k) b } := by
  simp only [deviceWriteRam, hr, hk, if_true]

theorem deviceWriteRam_outside (hr : s.ramRegion = some r) {k : Nat} (hk : r.size ≤ k) (d : Nat) (b : Byte) :
    deviceWriteRam d k b s = .refused (.deviceBreaksContract d) := by
  simp only [deviceWriteRam, hr, hk.not_gt, if_false]

end

/-- Settles O50: each form is its bus access, which in a peripheral's window is the call, and each effect is one operation. -/
theorem deviceWindowsForward : Obligations.DeviceWindowsForward := by
  intro s rt off rs d v q
  refine ⟨fun r w ho => ⟨fun hr => ⟨fun h => loadsDo_of_memRead (memRead_peripheral hr ho h),
      fun h => storesDo_of_memWrite (memWrite_peripheral hr ho h)⟩,
      fun hr h => mergesDo_of_answers rt hr ho h, fun hr u h => memRead_peripheral hr ho h⟩,
    rfl, fun e es u h => applyEffects_cons h es,
    fun n => ⟨applyEffects_singleton d (.raise n) s, applyEffects_singleton d (.clear n) s⟩,
    fun h p delay => applyEffects_singleton d (.addEvent h p delay) s, fun r k b hr => ⟨fun hk => ?_, fun hk => ?_⟩⟩
  · exact ⟨_, (applyEffects_singleton d (.writeRam k b) s).trans (deviceWriteRam_inside hr hk d b), onlyBytes_set ..⟩
  · exact (applyEffects_singleton d (.writeRam k b) s).trans (deviceWriteRam_outside hr hk d b)

/-! ## The controller's operations -/

theorem updateBank_of_bank {s : State} {n : Nat} {b : Bank} (hb : s.intc[n]? = some b) (bad : BadRegister) (f : Bank → Bank) :
    s.updateBank n bad f = .next { s with intc := s.intc.set n (f b) } := by
  simp only [State.updateBank, hb]

theorem updateBank_of_none {s : State} {n : Nat} (hb : s.intc[n]? = none) (bad : BadRegister) (f : Bank → Bank) :
    s.updateBank n bad f = .fault (.unhandledRegister .intc bad) := by
  simp only [State.updateBank, hb]

/-- Setting bit `k` of a word, and clearing it, touch no other bit (R330, R331). -/
theorem source_bit (p : Word) {k n : Nat} (hn : n < 32) :
    (p ||| 1#32 <<< k).getLsbD n = (if n = k then true else p.getLsbD n) ∧
      (p &&& ~~~(1#32 <<< k)).getLsbD n = (if n = k then false else p.getLsbD n) := by
  simp only [BitVec.getLsbD_or, BitVec.getLsbD_and, BitVec.getLsbD_not, getLsbD_one_shiftLeft k n hn, hn]
  by_cases hk : n = k <;> simp [hk]

theorem intcGet_of_none {s : State} {n : Nat} (hb : s.intc[n]? = none) :
    intcGetMask n s = .fault (.unhandledRegister .intc (.bank n)) ∧
      intcGetPending n s = .fault (.unhandledRegister .intc (.bank n)) := by
  simp only [intcGetMask, intcGetPending, hb, and_self]

theorem intcGet_of_bank {s : State} {n : Nat} {b : Bank} (hb : s.intc[n]? = some b) :
    intcGetMask n s = .next b.mask ∧ intcGetPending n s = .next b.pending := by
  simp only [intcGetMask, intcGetPending, hb, and_self]

/-! ## The controller's window -/

theorem intc_of_no_port {s : State} {pa : Nat} {w : Width} (h : s.intcPort pa w = none) (v : Word) :
    intcRead pa w s = .fault (.unhandledRegister .intc (.address pa)) ∧
      intcWrite pa w v s = .fault (.unhandledRegister .intc (.address pa)) := by
  simp only [intcRead, intcWrite, h, and_self]

section
variable {s : State} {rs : Reg} {off : Imm} {r : Region} (ho : r.owner = .device .intc)
include ho

section
variable (hr : s.regionOf (s.physical (s.ea rs off)) = some r)
include hr

theorem loadsDo_of_intcRead_next {w : Width} {v : Word} (h : intcRead (s.physical (s.ea rs off)) w s = .next v) (rt : Reg) :
    LoadsDo s rt off rs w v (.next s) :=
  loadsDo_of_memRead (by rw [memRead_intc hr ho, h, bind_next, bind_next])

theorem loadsDo_of_intcRead_fault {w : Width} {e : Fault} (h : intcRead (s.physical (s.ea rs off)) w s = .fault e) (rt : Reg)
    (v : Word) : LoadsDo s rt off rs w v (.fault e) :=
  loadsDo_of_memRead (by rw [memRead_intc hr ho, h, bind_fault, bind_fault])

theorem storesDo_of_intcWrite {rt : Reg} {w : Width} {q : Res State}
    (h : intcWrite (s.physical (s.ea rs off)) w (truncate w (s.x rt)) s = q) : StoresDo s rt off rs w q :=
  storesDo_of_memWrite ((memWrite_intc hr ho).trans h)

end

section
variable (hr : s.regionOf (s.physical (wordAddr (s.ea rs off))) = some r)
include hr

theorem mergesDo_of_port {p : IntcPort} {b : Bank} (hp : s.intcPort (s.physical (wordAddr (s.ea rs off))) .four = some p)
    (hb : s.intc[p.bank]? = some b) (rt : Reg) :
    MergesDo s rt off rs (p.reg.of b) (.next s) fun u value q =>
      q = .next { u with intc := u.intc.set p.bank (p.reg.put b value) } := by
  refine mergesDo_of_bus (by rw [memRead_intc hr ho, intcRead_of_port hp hb, bind_next, bind_next, truncate]) ?_ ?_
  · rintro u ⟨⟩
    rfl
  · rintro u ⟨⟩ value q rfl
    rw [memWrite_intc hr ho, truncate, intcWrite_of_port hp hb]

theorem mergesDo_of_intcRead_fault {e : Fault} (h : intcRead (s.physical (wordAddr (s.ea rs off))) .four s = .fault e)
    (rt : Reg) (v : Word) (write : State → Word → Res State → Prop) : MergesDo s rt off rs v (.fault e) write :=
  mergesDo_of_bus (by rw [memRead_intc hr ho, h, bind_fault, bind_fault]) nofun nofun

end

end

/-- Settles O57: an operation in range acts on its bank and any other stops, and every form in the window is its read or write of
the port. -/
theorem controllerOperations : Obligations.ControllerOperations := by
  intro s source bank v
  refine ⟨fun hlt => ?_, fun hle => ?_, fun hlt => ?_, fun hle => ?_, fun rt off rs w r hr ho => ⟨fun p b hp hb => ?_,
    fun p hp hb => ?_, fun hp => ?_⟩, fun rt off rs r write hr ho => ⟨fun p b hp hb => mergesDo_of_port ho hr hp hb rt,
    fun p hp hb => mergesDo_of_intcRead_fault ho hr (intcRead_bad_bank hp hb) rt v write,
    fun hp => mergesDo_of_intcRead_fault ho hr (intc_of_no_port hp v).1 rt v write⟩⟩
  · have hb := List.getElem?_eq_getElem hlt
    exact ⟨_, _, _, hb, updateBank_of_bank hb .., updateBank_of_bank hb .., fun n hn => source_bit _ hn⟩
  · have hb := List.getElem?_eq_none hle
    exact ⟨updateBank_of_none hb .., updateBank_of_none hb ..⟩
  · have hb := List.getElem?_eq_getElem hlt
    exact ⟨_, hb, updateBank_of_bank hb .., updateBank_of_bank hb .., intcGet_of_bank hb⟩
  · have hb := List.getElem?_eq_none hle
    exact ⟨updateBank_of_none hb .., updateBank_of_none hb .., intcGet_of_none hb⟩
  · exact ⟨loadsDo_of_intcRead_next ho hr (intcRead_of_port hp hb) rt, storesDo_of_intcWrite ho hr (intcWrite_of_port hp hb)⟩
  · exact ⟨loadsDo_of_intcRead_fault ho hr (intcRead_bad_bank hp hb) rt v,
      storesDo_of_intcWrite ho hr (intcWrite_bad_bank hp hb)⟩
  · exact ⟨loadsDo_of_intcRead_fault ho hr (intc_of_no_port hp v).1 rt v,
      storesDo_of_intcWrite ho hr (intc_of_no_port hp _).2⟩

end Sys2Proof.Machine
end

section
/-! PROOFS. The event scheduler (60_exceptions.md R342, R344): where an event is inserted, and the run's actions one by one. -/

namespace Sys2Proof.Machine

/-! ## Insertion -/

/-- An event numbered after every queued one goes behind those due no later and before those due later (R45). -/
theorem insertEvent_split {e : Event} {q : List Event} (hord : q.Pairwise (fun e f => e.before f = true))
    (hseq : ∀ f ∈ q, f.seq < e.seq) : ∃ early late, q = early ++ late ∧ (∀ f ∈ early, f.due ≤ e.due) ∧
      (∀ f ∈ late, e.due < f.due) ∧ insertEvent e q = early ++ [e] ++ late := by
  induction q with
  | nil => exact ⟨[], [], rfl, nofun, nofun, rfl⟩
  | cons f rest ih =>
    have hf := hseq f (List.mem_cons_self ..)
    have hb : e.before f = true ↔ e.due < f.due := by
      simp only [Event.before, Bool.or_eq_true, Bool.and_eq_true, decide_eq_true_eq]
      omega
    by_cases hlt : e.due < f.due
    · exact ⟨[], f :: rest, rfl, nofun, fun g hg => hlt.trans_le (due_le_of_ordered hord g hg), if_pos (hb.2 hlt)⟩
    · obtain ⟨early, late, rfl, hearly, hlate, hins⟩ :=
        ih (List.pairwise_cons.1 hord).2 fun g hg => hseq g (List.mem_cons_of_mem _ hg)
      refine ⟨f :: early, late, rfl, List.forall_mem_cons.2 ⟨by omega, hearly⟩, hlate, ?_⟩
      rw [insertEvent, if_neg (mt hb.1 hlt), hins]
      rfl

theorem addEvent_of_valid {s : State} {h : Nat} {d : Int} (hd : 0 < d) (hh : h < s.sched.handlers.length) (p : Param) :
    addEvent h p d s = .next { s with sched := { s.sched with
      queue := insertEvent ⟨h, p, s.sched.now + d.toNat, s.sched.nextSeq⟩ s.sched.queue
      nextSeq := s.sched.nextSeq + 1 } } := by
  rw [addEvent, if_neg hd.not_ge, if_neg hh.not_ge]

/-- Settles O58: the two tests stop it, and past them the new event has the greatest number, so its due time alone places it. -/
theorem addEventKeepsOrder : Obligations.AddEventKeepsOrder := by
  refine fun s h p d hok => ⟨fun hd => if_pos hd, fun hd hh => ?_, fun hd hh => ?_⟩
  · rw [addEvent, if_neg hd.not_ge, if_pos hh]
  · obtain ⟨early, late, hq, hearly, hlate, hins⟩ :=
      insertEvent_split (e := ⟨h, p, s.sched.now + d.toNat, s.sched.nextSeq⟩) hok.ordered hok.seqs
    refine ⟨early, late, hq, fun e he => ?_, fun e he => ?_, by rw [addEvent_of_valid hd hh, hins]⟩
    · have := hearly e he
      dsimp only at this
      omega
    · have := hlate e he
      dsimp only at this
      omega

/-! ## The run's actions -/

theorem step_of_quantum_end {s : State} {used : Nat} (hp : s.phase = .cpu used) (hu : s.cfg.runQuantum ≤ used) :
    step s = startRun s := by
  simp only [step, turn, hp]
  exact if_neg hu.not_gt

theorem step_of_draining {s : State} {horizon : Nat} (hp : s.phase = .draining horizon) : step s = drainOne horizon s := by
  simp only [step, turn, hp]

/-- A due event is removed, and its handler runs with the clock at its due time (R344). -/
theorem drainOne_of_due {s : State} {horizon : Nat} {e : Event} {rest : List Event} (hq : s.sched.queue = e :: rest)
    (hdue : e.due ≤ horizon) : drainOne horizon s = runCallback e.handler e.param (s.popped e rest) := by
  simp only [drainOne, hq]
  exact if_pos hdue

theorem drainOne_of_none_due {s : State} {horizon : Nat} (h : ∀ e ∈ s.sched.queue.head?, horizon < e.due) :
    drainOne horizon s = .next (finishRun horizon s) := by
  unfold drainOne
  split
  · rfl
  · next e rest hq => exact if_neg (h e (by rw [hq]; rfl)).not_ge

theorem runCallback_of_unknown {s : State} {n : Nat} (h : s.sched.handlers[n]? = none) (p : Param) :
    runCallback n p s = .fault (.invalidHandlerId n) := by
  simp only [runCallback, h]

/-- Settles O59: the phase chooses the action, the queue's first event the round of the drain loop, and the handler's peripheral
answers the callback. -/
theorem schedulerRunActions : Obligations.SchedulerRunActions := by
  refine fun s => ⟨fun used hp hu => ⟨fun hq => ?_, fun hq => ?_⟩,
    fun horizon hp => ⟨fun e rest hq hdue => ?_, fun h => ?_⟩⟩
  · rw [step_of_quantum_end hp hu, startRun, if_pos hq]
  · rw [step_of_quantum_end hp hu, startRun, if_neg hq, getRunCycles]
  · have hstep := (step_of_draining hp).trans (drainOne_of_due hq hdue)
    exact ⟨fun d v q hd h => hstep.trans (runCallback_of_answers (s := s.popped e rest) hd h),
      fun hd => hstep.trans (runCallback_of_unknown (s := s.popped e rest) hd _)⟩
  · rw [step_of_draining hp, drainOne_of_none_due h, finishRun]

end Sys2Proof.Machine
end

section
/-! PROOFS. Reset (70_reset_and_hazards.md R400, 10_state.md R50): the first state and a reset of a running machine, where the spec
gives a value, and the bytes of the ROM array. -/

namespace Sys2Proof.Machine

/-- A RESET_PC that is zero or misaligned stops the reset (R126, R400). -/
theorem hostReset_of_not_validTarget {s : State} (h : ¬ValidTarget s.cfg.resetPc) : ∃ f, hostReset s = .fault f := by
  obtain ⟨-, hf⟩ | ⟨-, -, hf⟩ | ⟨hv, -⟩ := checkTarget_cases s.cfg.resetPc
  · exact ⟨_, setPC_of_checkTarget_fault hf _⟩
  · exact ⟨_, setPC_of_checkTarget_fault hf _⟩
  · exact absurd hv h

/-- With nothing listed, an address in the ROM region reads as its byte of ROM_IMAGE (R68). -/
theorem resetFor_byteAt_rom {c : Config} (hwf : c.wf = true) {r : Region} (hr : r ∈ c.regions) (ho : r.owner = .rom) {k : Nat}
    (hk : k < r.size) : (State.resetFor c).byteAt (r.base + k) = romByte c k := by
  have hhas : r.has (r.base + k) = true := by
    simp only [Region.has, Bool.and_eq_true, decide_eq_true_eq]
    omega
  rw [State.byteAt, resetFor_mem, Memory.get, Option.getD_none, resetFor_cfg, unlistedByte, romRegion_of_mem hwf hr ho]
  simp only [hhas, if_true, Nat.add_sub_cancel_left]

/-- Settles O60: both states are written out, and the reset completes exactly at a valid RESET_PC. -/
theorem resetValues : Obligations.ResetValues := by
  rintro c s t rfl
  refine ⟨hostReset_of_not_validTarget, fun hv ht => ?_, fun hwf r hr ho k hk => resetFor_byteAt_rom hwf hr ho hk⟩
  have hgoes : ∃ u, hostReset s = .next u := ⟨_, setPC_next.2 ⟨hv, rfl⟩⟩
  obtain rfl | ht := ht
  · exact ⟨rfl, rfl, rfl, rfl, rfl, rfl, rfl, rfl, rfl, rfl, rfl, rfl, rfl, rfl, rfl, rfl, rfl, hgoes⟩
  · obtain ⟨-, rfl⟩ := setPC_next.1 ht
    exact ⟨rfl, vector_set_zero_get .., rfl, rfl, rfl, rfl, rfl, rfl, rfl, rfl, rfl, rfl, rfl, rfl, rfl, rfl, rfl, hgoes⟩

end Sys2Proof.Machine
end
